-- ==== Sys2Proof/Word.lean ====
section
/-! DEFINITION. The words of the block: bytes, byte strings and the fixed widths of its fields (00_scope.md R5, R8, R9). -/

namespace Sys2Proof

/-- An 8-bit byte (R8). -/
abbrev Byte := BitVec 8

/-- A byte string: a finite sequence of bytes indexed from 0 (R8). -/
abbrev Bytes := List Byte

/-- An IPv4 address: 32 bits, the first octet on the wire in bits [31:24] (R9). -/
abbrev Ip := BitVec 32

/-- A hardware address: 48 bits, the first byte on the wire in bits [47:40] (R9). -/
abbrev Hw := BitVec 48

/-- A 16-bit value: a port, an ethertype, a register number, an identifier or a checksum. -/
abbrev Half := BitVec 16

/-- A 32-bit word: a descriptor word, a register value or a handler identifier. -/
abbrev Word := BitVec 32

/-- `zeros(n)`: n zero bytes (R8). -/
def zeros (n : Nat) : Bytes := List.replicate n 0

end Sys2Proof
end

