-- ==== Sys2Proof/Machine/Constants.lean ====
section
/-! DEFINITION. The numeric constants of the wire formats (30_encoding.md R122, R123, R128 to R134) and the sizes the
source fixes (00_scope.md R6). -/

namespace Sys2Proof.Machine

/-- ETH_TYPE_IPV4 (R133). -/
abbrev ethTypeIpv4 : Half := 0x0800
/-- ETH_TYPE_ARP (R133). -/
abbrev ethTypeArp : Half := 0x0806
/-- ARP_HW_ETHER (R122). -/
abbrev arpHwEther : Half := 0x0001
/-- The ARP protocol type of the fixed profile (R122). -/
abbrev arpProtoIpv4 : Half := 0x0800
/-- The ARP hardware address length (R122). -/
abbrev arpHwLen : Byte := 6
/-- The ARP protocol address length (R122). -/
abbrev arpProtoLen : Byte := 4
/-- ARP_OP_REQUEST (R122). -/
abbrev arpOpRequest : Half := 1
/-- ARP_OP_REPLY (R122). -/
abbrev arpOpReply : Half := 2
/-- HW_BROADCAST (R123). -/
abbrev hwBroadcast : Hw := 0xFFFFFFFFFFFF
/-- IP_PROTO_ICMP (R128). -/
abbrev ipProtoIcmp : BitVec 8 := 1
/-- IP_PROTO_UDP (R128). -/
abbrev ipProtoUdp : BitVec 8 := 17
/-- ICMP_ECHO_REQUEST (R129). -/
abbrev icmpEchoRequest : Byte := 8
/-- ICMP_ECHO_REPLY (R129). -/
abbrev icmpEchoReply : Byte := 0
/-- ICMP_DEST_UNREACH (R130). -/
abbrev icmpDestUnreach : Byte := 3
/-- ICMP_CODE_PROTO_UNREACH (R130). -/
abbrev icmpCodeProtoUnreach : BitVec 8 := 2
/-- ICMP_CODE_PORT_UNREACH (R130). -/
abbrev icmpCodePortUnreach : BitVec 8 := 3
/-- The link header's length (R6, R120). -/
abbrev linkHdrLen : Nat := 14
/-- The ARP message's length (R6, R121). -/
abbrev arpMsgLen : Nat := 28
/-- IP_HDR_LEN (R6, R134). -/
abbrev ipHdrLen : Nat := 20
/-- IP_MAX_TOTAL_IN (R6, R134). -/
abbrev ipMaxTotalIn : Nat := 1500
/-- IP_FRAG_PAYLOAD (R6, R134). -/
abbrev ipFragPayload : Nat := 1480
/-- The ICMP header's length, also the shortest ICMP message (R6). -/
abbrev icmpHdrLen : Nat := 8
/-- How many bytes of the original datagram a Destination-Unreachable embeds (R130). -/
abbrev icmpEmbedLen : Nat := 28
/-- The UDP header's length, also the shortest UDP length (R6). -/
abbrev udpHdrLen : Nat := 8
/-- UDP_TRUNC_BELOW (R6, R134). -/
abbrev udpTruncBelow : Nat := 18

end Sys2Proof.Machine
end

