-- ==== Sys2Proof/Config.lean ====
section
/-! DEFINITION. The implementation parameters of one block instance (00_scope.md R5). -/

namespace Sys2Proof

/-- The parameters of R5. Each is fixed for the lifetime of an instance and none can be changed by a command.
They stand in the machine's state so that a claim about every state is a claim about every instance
(DESIGN CHOICE, log 1). -/
structure Params where
  /-- ARP_CAPACITY: the number of resolution-cache entries. -/
  arpCapacity : Nat
  /-- ARP_TIMEOUT: the age beyond which the sweep marks an entry INVALID, in TIME_NOW units. -/
  arpTimeout : Nat
  /-- UDP_CAPACITY: the number of handler-table slots. -/
  udpCapacity : Nat
  /-- IP_TTL: the hop count of every outbound IPv4 header. -/
  ipTtl : BitVec 8
  /-- MAX_PKT: the largest packet operand a command accepts, in bytes. -/
  maxPkt : Nat
  /-- IP_TRIM_PADDING: whether IP input trims a buffer longer than the header's total length. -/
  ipTrimPadding : Bool
deriving DecidableEq, Repr

/-- The constraints R5 puts on the parameters. That the capacities fit their 32-bit readback registers is
DEDUCED from R33 and R40 (log 11). -/
abbrev Params.Valid (p : Params) : Prop :=
  1 ≤ p.arpCapacity ∧ p.arpCapacity < 2 ^ 32 ∧ 1 ≤ p.udpCapacity ∧ p.udpCapacity < 2 ^ 32 ∧
    3000 ≤ p.maxPkt ∧ p.maxPkt ≤ 65535

/-- The values every test vector uses (R5; 95_test_vectors.md section 0). They are one instance, not the block's
own values: DESIGN CHOICE, unsafe for a claim about this instance alone (log 1). -/
def Params.vectors : Params where
  arpCapacity := 8
  arpTimeout := 300
  udpCapacity := 4
  ipTtl := 64
  maxPkt := 65535
  ipTrimPadding := false

end Sys2Proof
end

