-- ==== Sys2Proof/Syntax.lean ====
section
/-! DEFINITION. The commands of the block: one constructor per row of the opcode map (30_encoding.md R107), and a
command as the host presents it (R100). The operands stand in the order of the assembler syntax (R114), the packet
operand last. -/

namespace Sys2Proof

/-- A command as it stands on the command port: the descriptor W0 to W3 and the packet operand (R100). LEN is the
length of `pkt` (R106; log 10). -/
structure Command where
  w0 : Word
  w1 : Word
  w2 : Word
  w3 : Word
  pkt : Bytes
deriving DecidableEq, Repr

/-- The 21 commands (R107). -/
inductive Instr where
  /-- NOP (R330). -/
  | nop
  /-- CSUM pkt (R163). -/
  | csum (pkt : Bytes)
  /-- ARP_INIT (R193). -/
  | arpInit
  /-- ARP_UPDATE ip, hw (R181). -/
  | arpUpdate (ip : Ip) (hw : Hw)
  /-- ARP_LOOKUP ip (R183). -/
  | arpLookup (ip : Ip)
  /-- ARP_REQUEST ip (R185). -/
  | arpRequest (ip : Ip)
  /-- ARP_RESOLVE ip, ethertype, pkt (R187). -/
  | arpResolve (ip : Ip) (proto : Half) (pkt : Bytes)
  /-- ARP_IN pkt (R190). -/
  | arpIn (pkt : Bytes)
  /-- IP_IN pkt (R222). -/
  | ipIn (pkt : Bytes)
  /-- IP_FRAG dst_ip, protocol, id, off, mf, pkt (R224). -/
  | ipFrag (dst : Ip) (proto : BitVec 8) (id : Half) (off : BitVec 13) (mf : Bool) (pkt : Bytes)
  /-- IP_SEND dst_ip, protocol, pkt (R226). -/
  | ipSend (dst : Ip) (proto : BitVec 8) (pkt : Bytes)
  /-- ICMP_IN src_ip, pkt (R261). -/
  | icmpIn (src : Ip) (pkt : Bytes)
  /-- ICMP_UNREACH dst_ip, code, pkt (R263). -/
  | icmpUnreach (dst : Ip) (code : BitVec 8) (pkt : Bytes)
  /-- UDP_IN src_ip, pkt (R283). -/
  | udpIn (src : Ip) (pkt : Bytes)
  /-- UDP_SEND src_port, dst_ip, dst_port, pkt (R285). -/
  | udpSend (sport : Half) (dst : Ip) (dport : Half) (pkt : Bytes)
  /-- UDP_OPEN port, handler (R286). -/
  | udpOpen (port : Half) (handler : Word)
  /-- UDP_CLOSE port (R287). -/
  | udpClose (port : Half)
  /-- UDP_PCSUM src_ip, dst_ip, pkt (R281). -/
  | udpPcsum (src dst : Ip) (pkt : Bytes)
  /-- ETH_RX pkt (R312). -/
  | ethRx (pkt : Bytes)
  /-- REG_RD reg (R331). -/
  | regRd (reg : Half)
  /-- REG_WR reg, value (R332). -/
  | regWr (reg : Half) (value : Word)
deriving DecidableEq, Repr

/-- The packet operand of a command; empty for a command that takes none (R106). -/
def Instr.packet : Instr → Bytes
  | .nop => []
  | .csum p => p
  | .arpInit => []
  | .arpUpdate _ _ => []
  | .arpLookup _ => []
  | .arpRequest _ => []
  | .arpResolve _ _ p => p
  | .arpIn p => p
  | .ipIn p => p
  | .ipFrag _ _ _ _ _ p => p
  | .ipSend _ _ p => p
  | .icmpIn _ p => p
  | .icmpUnreach _ _ p => p
  | .udpIn _ p => p
  | .udpSend _ _ _ p => p
  | .udpOpen _ _ => []
  | .udpClose _ => []
  | .udpPcsum _ _ p => p
  | .ethRx p => p
  | .regRd _ => []
  | .regWr _ _ => []

end Sys2Proof
end

