-- ==== Sys2Proof/WellFormed.lean ====
section
/-! DEFINITION. The well-formed commands: those a descriptor and a packet operand can spell (30_encoding.md R106,
R108). Every field but the packet operand has exactly the width its type gives it, so the one check is the packet's
length. -/

namespace Sys2Proof

/-- A command is well formed on an instance when its packet operand is no longer than MAX_PKT (R106). -/
def Instr.wf (p : Params) (i : Instr) : Bool := decide (i.packet.length ≤ p.maxPkt)

end Sys2Proof
end

