-- ==== Sys2Proof/Decode.lean ====
section
/-! DEFINITION. Decoding a command (30_encoding.md R100 to R109) and, after it, the encoder written from the same
tables. -/

namespace Sys2Proof

/-- Why a descriptor does not decode, in the order of R108 and R351. The first four raise ST_ILLEGAL, the last
ST_LENGTH. -/
inductive DecodeError where
  /-- OPC is in no row of R107 (R109). -/
  | reservedOpcode
  /-- A W0 bit that the row's format requires zero is 1 (R103). -/
  | reservedW0Bit
  /-- W1, W2 or W3 has a 1 in a bit the row marks 0 (R102). -/
  | reservedOperandBit
  /-- LEN is not 0 on a command that takes no packet (R106). -/
  | packetNotTaken
  /-- LEN is above MAX_PKT (R106). -/
  | packetTooLong
deriving DecidableEq, Repr

/-- The four W0 formats (R103). -/
inductive Format where
  | n
  | a16
  | a8
  | frag
deriving DecidableEq, Repr

/-- The W0 bits a format requires to be zero (R103). -/
def Format.mustBeZero : Format → Word
  | .n => 0x00FFFFFF
  | .a16 => 0x00FF0000
  | .a8 => 0x0000FFFF
  | .frag => 0x00006000

/-- The names of the 21 rows of R107. -/
inductive Op where
  | nop | csum
  | arpInit | arpUpdate | arpLookup | arpRequest | arpResolve | arpIn
  | ipIn | ipFrag | ipSend
  | icmpIn | icmpUnreach
  | udpIn | udpSend | udpOpen | udpClose | udpPcsum
  | ethRx
  | regRd | regWr
deriving DecidableEq, Repr

/-- One row of the opcode map (R107): the bits of W1, W2 and W3 it marks 0, and whether it takes a packet. -/
structure Row where
  opc : BitVec 8
  op : Op
  format : Format
  w1Zero : Word
  w2Zero : Word
  w3Zero : Word
  pkt : Bool
deriving DecidableEq, Repr

/-- Every bit of an operand word must be zero. -/
def allZero : Word := 0xFFFFFFFF
/-- The operand word is used whole. -/
def noneZero : Word := 0
/-- Bits [31:16] must be zero: the word holds a 16-bit operand. -/
def highZero : Word := 0xFFFF0000
/-- Bits [15:0] must be zero: the word holds hw[15:0] in its high half (R105). -/
def lowZero : Word := 0x0000FFFF

/-- The complete opcode map (R107). -/
def opcodeMap : List Row :=
  [ ⟨0x00, .nop,         .n,    allZero,  allZero,  allZero, false⟩,
    ⟨0x10, .csum,        .n,    allZero,  allZero,  allZero, true⟩,
    ⟨0x20, .arpInit,     .n,    allZero,  allZero,  allZero, false⟩,
    ⟨0x21, .arpUpdate,   .n,    noneZero, noneZero, lowZero, false⟩,
    ⟨0x22, .arpLookup,   .n,    noneZero, allZero,  allZero, false⟩,
    ⟨0x23, .arpRequest,  .n,    noneZero, allZero,  allZero, false⟩,
    ⟨0x24, .arpResolve,  .a16,  noneZero, allZero,  allZero, true⟩,
    ⟨0x25, .arpIn,       .n,    allZero,  allZero,  allZero, true⟩,
    ⟨0x30, .ipIn,        .n,    allZero,  allZero,  allZero, true⟩,
    ⟨0x31, .ipFrag,      .frag, noneZero, highZero, allZero, true⟩,
    ⟨0x32, .ipSend,      .a8,   noneZero, allZero,  allZero, true⟩,
    ⟨0x40, .icmpIn,      .n,    noneZero, allZero,  allZero, true⟩,
    ⟨0x41, .icmpUnreach, .a8,   noneZero, allZero,  allZero, true⟩,
    ⟨0x50, .udpIn,       .n,    noneZero, allZero,  allZero, true⟩,
    ⟨0x51, .udpSend,     .a16,  noneZero, highZero, allZero, true⟩,
    ⟨0x52, .udpOpen,     .a16,  noneZero, allZero,  allZero, false⟩,
    ⟨0x53, .udpClose,    .a16,  allZero,  allZero,  allZero, false⟩,
    ⟨0x54, .udpPcsum,    .n,    noneZero, noneZero, allZero, true⟩,
    ⟨0x60, .ethRx,       .n,    allZero,  allZero,  allZero, true⟩,
    ⟨0x70, .regRd,       .a16,  allZero,  allZero,  allZero, false⟩,
    ⟨0x71, .regWr,       .a16,  noneZero, allZero,  allZero, false⟩ ]

/-- OPC = W0[31:24] (R101). -/
def opcOf (w0 : Word) : BitVec 8 := w0.extractLsb' 24 8
/-- A8 = W0[23:16] (R101). -/
def a8Of (w0 : Word) : BitVec 8 := w0.extractLsb' 16 8
/-- A16 = W0[15:0] (R101). -/
def a16Of (w0 : Word) : Half := w0.extractLsb' 0 16
/-- MF = A16[15] (R103). -/
def mfOf (w0 : Word) : Bool := w0.getLsbD 15
/-- OFF = A16[12:0] (R103). -/
def offOf (w0 : Word) : BitVec 13 := w0.extractLsb' 0 13
/-- A 16-bit operand in bits [15:0] of an operand word. -/
def lowHalf (w : Word) : Half := w.extractLsb' 0 16
/-- hw = W2[31:0] ++ W3[31:16] (R105). -/
def hwOf (w2 w3 : Word) : Hw := w2 ++ (w3.extractLsb' 16 16 : Half)

/-- The row whose OPC is the descriptor's (R108). -/
def findRow (opc : BitVec 8) : Option Row := opcodeMap.find? (fun r => r.opc == opc)

/-- The command of a row with its fields (R107, R108). -/
def buildInstr (op : Op) (c : Command) : Instr :=
  match op with
  | .nop => .nop
  | .csum => .csum c.pkt
  | .arpInit => .arpInit
  | .arpUpdate => .arpUpdate c.w1 (hwOf c.w2 c.w3)
  | .arpLookup => .arpLookup c.w1
  | .arpRequest => .arpRequest c.w1
  | .arpResolve => .arpResolve c.w1 (a16Of c.w0) c.pkt
  | .arpIn => .arpIn c.pkt
  | .ipIn => .ipIn c.pkt
  | .ipFrag => .ipFrag c.w1 (a8Of c.w0) (lowHalf c.w2) (offOf c.w0) (mfOf c.w0) c.pkt
  | .ipSend => .ipSend c.w1 (a8Of c.w0) c.pkt
  | .icmpIn => .icmpIn c.w1 c.pkt
  | .icmpUnreach => .icmpUnreach c.w1 (a8Of c.w0) c.pkt
  | .udpIn => .udpIn c.w1 c.pkt
  | .udpSend => .udpSend (a16Of c.w0) c.w1 (lowHalf c.w2) c.pkt
  | .udpOpen => .udpOpen (a16Of c.w0) c.w1
  | .udpClose => .udpClose (a16Of c.w0)
  | .udpPcsum => .udpPcsum c.w1 c.w2 c.pkt
  | .ethRx => .ethRx c.pkt
  | .regRd => .regRd (a16Of c.w0)
  | .regWr => .regWr (a16Of c.w0) c.w1

/-- Decoding (R108): total; every descriptor and packet either decodes to one command or is rejected by name. -/
def decode (p : Params) (c : Command) : Except DecodeError Instr :=
  match findRow (opcOf c.w0) with
  | none => .error .reservedOpcode
  | some r =>
    if c.w0 &&& r.format.mustBeZero ≠ 0 then .error .reservedW0Bit
    else if c.w1 &&& r.w1Zero ≠ 0 ∨ c.w2 &&& r.w2Zero ≠ 0 ∨ c.w3 &&& r.w3Zero ≠ 0 then .error .reservedOperandBit
    else if r.pkt = false ∧ c.pkt.length ≠ 0 then .error .packetNotTaken
    else if r.pkt = true ∧ p.maxPkt < c.pkt.length then .error .packetTooLong
    else .ok (buildInstr r.op c)

/-- The words of a descriptor numbered as the opcode table numbers their bits: W0 in bits [31:0], W1 in [63:32],
W2 in [95:64], W3 in [127:96]. The words are values on a word-wide interface and have no byte order (20_memory.md
R70). -/
def commandOfBits (nbits w : Nat) (pkt : Bytes) : Command :=
  let v := w % 2 ^ nbits
  ⟨BitVec.ofNat 32 v, BitVec.ofNat 32 (v / 2 ^ 32), BitVec.ofNat 32 (v / 2 ^ 64), BitVec.ofNat 32 (v / 2 ^ 96), pkt⟩

/-- The command the decoder reads from a descriptor whose first `nbits` bits are `w` and whose other bits are zero,
with no packet bytes. -/
def decodeTableWord (nbits w : Nat) : Option Instr :=
  (decode Params.vectors (commandOfBits nbits w [])).toOption

/-! The encoder, from the same tables (R101 to R107). -/

/-- W0 of format N (R103). -/
def w0N (opc : BitVec 8) : Word := opc ++ (0 : BitVec 24)
/-- W0 of format A16 (R103). -/
def w0A16 (opc : BitVec 8) (a16 : Half) : Word := opc ++ (0 : BitVec 8) ++ a16
/-- W0 of format A8 (R103). -/
def w0A8 (opc a8 : BitVec 8) : Word := opc ++ a8 ++ (0 : BitVec 16)
/-- W0 of format FRAG (R103). -/
def w0Frag (opc a8 : BitVec 8) (mf : Bool) (off : BitVec 13) : Word :=
  opc ++ a8 ++ BitVec.ofBool mf ++ (0 : BitVec 2) ++ off
/-- An operand word that holds a 16-bit operand in its low half. -/
def wordOfLow (v : Half) : Word := (0 : BitVec 16) ++ v
/-- W2 of a hardware address: hw[47:16] (R105). -/
def hwWord2 (hw : Hw) : Word := hw.extractLsb' 16 32
/-- W3 of a hardware address: hw[15:0] in the high half (R105). -/
def hwWord3 (hw : Hw) : Word := (hw.extractLsb' 0 16 : Half) ++ (0 : BitVec 16)

/-- The descriptor and packet that spell a command (R107). -/
def encode : Instr → Command
  | .nop => ⟨w0N 0x00, 0, 0, 0, []⟩
  | .csum p => ⟨w0N 0x10, 0, 0, 0, p⟩
  | .arpInit => ⟨w0N 0x20, 0, 0, 0, []⟩
  | .arpUpdate ip hw => ⟨w0N 0x21, ip, hwWord2 hw, hwWord3 hw, []⟩
  | .arpLookup ip => ⟨w0N 0x22, ip, 0, 0, []⟩
  | .arpRequest ip => ⟨w0N 0x23, ip, 0, 0, []⟩
  | .arpResolve ip proto p => ⟨w0A16 0x24 proto, ip, 0, 0, p⟩
  | .arpIn p => ⟨w0N 0x25, 0, 0, 0, p⟩
  | .ipIn p => ⟨w0N 0x30, 0, 0, 0, p⟩
  | .ipFrag dst proto id off mf p => ⟨w0Frag 0x31 proto mf off, dst, wordOfLow id, 0, p⟩
  | .ipSend dst proto p => ⟨w0A8 0x32 proto, dst, 0, 0, p⟩
  | .icmpIn src p => ⟨w0N 0x40, src, 0, 0, p⟩
  | .icmpUnreach dst code p => ⟨w0A8 0x41 code, dst, 0, 0, p⟩
  | .udpIn src p => ⟨w0N 0x50, src, 0, 0, p⟩
  | .udpSend sport dst dport p => ⟨w0A16 0x51 sport, dst, wordOfLow dport, 0, p⟩
  | .udpOpen port handler => ⟨w0A16 0x52 port, handler, 0, 0, []⟩
  | .udpClose port => ⟨w0A16 0x53 port, 0, 0, 0, []⟩
  | .udpPcsum src dst p => ⟨w0N 0x54, src, dst, 0, p⟩
  | .ethRx p => ⟨w0N 0x60, 0, 0, 0, p⟩
  | .regRd reg => ⟨w0A16 0x70 reg, 0, 0, 0, []⟩
  | .regWr reg value => ⟨w0A16 0x71 reg, value, 0, 0, []⟩

end Sys2Proof
end

