-- ==== Sys2Proof/Machine/State.lean ====
section
/-! DEFINITION. The state of the block (10_state.md), its outcomes' reasons, and the state after reset (R58). -/

namespace Sys2Proof.Machine

/-- The state of a cache entry (R42). `pending` is declared and written by no rule (log 6). -/
inductive ArpState where
  | invalid
  | pending
  | valid
deriving DecidableEq, Repr

/-- A resolution-cache entry (R41). -/
structure ArpEntry where
  state : ArpState
  ip : Ip
  hw : Hw
  ts : Nat
deriving DecidableEq, Repr

/-- The pending-resolution slot (R44). The other three fields are read by no rule while `valid` is false. -/
structure Pend where
  valid : Bool
  ip : Ip
  proto : Half
  pkt : Bytes
deriving DecidableEq, Repr

/-- A slot of the UDP handler table (R45). -/
structure UdpSlot where
  valid : Bool
  port : Half
  handler : Word
deriving DecidableEq, Repr

/-- The completion statuses (60_exceptions.md R350). -/
inductive Status where
  /-- ST_OK: the command completed. -/
  | ok
  /-- ST_FAIL: the UDP handler table is full and the port is new. -/
  | fail
  /-- ST_ILLEGAL: an encoding or a register number the block refuses. -/
  | illegal
  /-- ST_LENGTH: a packet operand of a length the command refuses. -/
  | length
deriving DecidableEq, Repr

/-- A response record (R54). -/
structure Response where
  status : Status
  result : BitVec 64
deriving DecidableEq, Repr

/-- An output event (R52, R53). -/
inductive Event where
  /-- `TX(dst_hw, type, payload)` on the TX port (R52). -/
  | tx (dst : Hw) (type : Half) (payload : Bytes)
  /-- `DELIVER(handler, src_ip, src_port, payload)` on the DELIVER port (R53). -/
  | deliver (handler : Word) (src : Ip) (sport : Half) (payload : Bytes)
deriving DecidableEq, Repr

/-- What the host does next: it presents a command together with a TIME_NOW value (R50, R51), or it asserts the
reset input (R380). -/
inductive Input where
  | command (c : Command) (now : Nat)
  | reset
deriving DecidableEq, Repr

/-- The state: the persistent state of R57, the instance's parameters (R5), and the block's ports. -/
structure State where
  /-- The instance's parameters: constants, which no step changes (R57; log 1). -/
  params : Params
  /-- LOCAL_IP (R34). -/
  localIp : Ip
  /-- LOCAL_MAC: LOCAL_MAC_0 and the high half of LOCAL_MAC_1 (R35, R36). -/
  localMac : Hw
  /-- FRAG_ID (R37). -/
  fragId : Half
  /-- The resolution cache, index 0 first (R41). -/
  arp : List ArpEntry
  /-- The pending-resolution slot (R44). -/
  pend : Pend
  /-- The UDP handler table, index 0 first (R45). -/
  udp : List UdpSlot
  /-- The TIME_NOW port: the value sampled for the current command (R51; log 4). -/
  timeNow : Nat
  /-- The command port and the reset input: what the host presents, the next one first (R50, R380; log 2). -/
  inputs : List Input
  /-- The output sequence of TX and DELIVER events, in emission order (R52, R53, R86). -/
  events : List Event
  /-- The frame the external link layer builds from each TX event (R310; log 3). -/
  frames : List Bytes
  /-- The response records, one per command, in issue order (R54). -/
  responses : List Response
deriving DecidableEq, Repr

/-- Why the block stops. The source has no exceptions (R356), and no command reaches a fault. -/
inductive Fault where
  /-- A working buffer would shrink below zero length. Raised by `removeHeader` and `truncate` alone; treatment `fault`
  of 93_implementation_defined.md I1. Safe: the model stops, and no rule reaches the case (R84; log 8). -/
  | bufferUnderflow
deriving DecidableEq, Repr

/-- Why a command has no meaning. -/
inductive Refusal where
  /-- The command's arm of `exec` has no meaning yet. Raised by `exec` alone, and by none of its arms now. Safe: the
  model stops. -/
  | notModelled (mnemonic : String)
deriving DecidableEq, Repr

/-- An empty cache entry (R58). -/
def ArpEntry.empty : ArpEntry := ⟨.invalid, 0, 0, 0⟩

/-- An empty pending slot (R58). -/
def Pend.empty : Pend := ⟨false, 0, 0, []⟩

/-- A free handler slot (R58). -/
def UdpSlot.empty : UdpSlot := ⟨false, 0, 0⟩

/-- The block right after reset on the instance `p` (R58, R380): every register zero, every table empty, no event and
no response. Nothing is presented on the command port (log 2), and TIME_NOW is 0 (log 4). -/
def State.resetWith (p : Params) : State where
  params := p
  localIp := 0
  localMac := 0
  fragId := 0
  arp := List.replicate p.arpCapacity ArpEntry.empty
  pend := Pend.empty
  udp := List.replicate p.udpCapacity UdpSlot.empty
  timeNow := 0
  inputs := []
  events := []
  frames := []
  responses := []

/-- The block right after reset, on the instance the test vectors use (R5; log 1). -/
def State.reset : State := State.resetWith Params.vectors

end Sys2Proof.Machine
end

