-- ==== Sys2Proof/Machine/Flags.lean ====
section
/-! DEFINITION. The block has no flags and no condition codes (10_state.md R32). The one condition a command reports is
its completion status (60_exceptions.md R350), and this file computes it. -/

namespace Sys2Proof.Machine

/-- The two-bit code of a status (R54, R350). -/
def statusCode : Status → BitVec 2
  | .ok => 0
  | .fail => 1
  | .illegal => 2
  | .length => 3

/-- The status a decoding error raises (30_encoding.md R108). -/
def decodeStatus : DecodeError → Status
  | .reservedOpcode => .illegal
  | .reservedW0Bit => .illegal
  | .reservedOperandBit => .illegal
  | .packetNotTaken => .illegal
  | .packetTooLong => .length

/-- The response of a command: its status and result; the result is 0 whenever the status is not ST_OK (R54, R112). -/
def mkResponse (st : Status) (result : BitVec 64) : Response :=
  ⟨st, if st = .ok then result else 0⟩

end Sys2Proof.Machine
end

