-- ==== Sys2Proof/Machine/Operands.lean ====
section
/-! DEFINITION. Operands: byte order of the wire fields (00_scope.md R9, 20_memory.md R70, R71) and the working buffer
(20_memory.md R78 to R84). -/

namespace Sys2Proof.Machine

/-! Multi-byte fields, most significant byte first (R9). -/

/-- `B[o]`. Every rule checks the length before it reads; past the end the value is 0. -/
def byteAt (b : Bytes) (o : Nat) : Byte := b.getD o 0

/-- `be16(B, o)` (R9). -/
def be16 (b : Bytes) (o : Nat) : Half := byteAt b o ++ byteAt b (o + 1)

/-- `be32(B, o)` (R9). -/
def be32 (b : Bytes) (o : Nat) : Word := be16 b o ++ be16 b (o + 2)

/-- `be48(B, o)` (R9). -/
def be48 (b : Bytes) (o : Nat) : Hw := be16 b o ++ be32 b (o + 2)

/-- The two bytes of a 16-bit value on the wire (R9). -/
def bytes16 (v : Half) : Bytes := [v.extractLsb' 8 8, v.extractLsb' 0 8]

/-- The four bytes of a 32-bit value on the wire (R9). -/
def bytes32 (v : Word) : Bytes :=
  [v.extractLsb' 24 8, v.extractLsb' 16 8, v.extractLsb' 8 8, v.extractLsb' 0 8]

/-- The six bytes of a 48-bit value on the wire (R9). -/
def bytes48 (v : Hw) : Bytes :=
  [v.extractLsb' 40 8, v.extractLsb' 32 8, v.extractLsb' 24 8, v.extractLsb' 16 8, v.extractLsb' 8 8,
    v.extractLsb' 0 8]

/-- Overwrite the bytes of `b` from offset `o` on with `v`. -/
def putBytes (b : Bytes) (o : Nat) (v : Bytes) : Bytes := b.take o ++ v ++ b.drop (o + v.length)

/-- `put16(B, o, v)` (R9). -/
def put16 (b : Bytes) (o : Nat) (v : Half) : Bytes := putBytes b o (bytes16 v)

/-! The working buffer (R78). -/

/-- A working buffer (R78): the store, cut at the window. `front` holds the stored bytes before the window, the nearest
first; `win` is the window W(b); `back` holds the stored bytes after it. A stored byte beyond either list is 0x00
(R79). The offsets themselves are visible to no rule: `bufByte` gives the store's byte at each offset from the window's
start. -/
structure Buf where
  front : Bytes
  win : Bytes
  back : Bytes
deriving DecidableEq, Repr

/-- `b.len` (R78). -/
def bufLen (b : Buf) : Nat := b.win.length

/-- The store's byte at offset `b.start + k` (R78), 0x00 where nothing was stored (R79). -/
def bufByte (b : Buf) (k : Int) : Byte :=
  match k with
  | .ofNat n => (b.win ++ b.back).getD n 0
  | .negSucc n => b.front.getD n 0

/-- `load(P)` (R79). -/
def load (p : Bytes) : Buf := ⟨[], p, []⟩

/-- The `n` stored bytes just before the window, in store order. -/
def frontBytes (b : Buf) (n : Nat) : Bytes := ((b.front ++ zeros n).take n).reverse

/-- `add_header(b, n)` (R80): the window grows by n bytes in front and shows what the store holds there. -/
def addHeader (b : Buf) (n : Nat) : Buf := ⟨b.front.drop n, frontBytes b n ++ b.win, b.back⟩

/-- `remove_header(b, n)` (R81): requires n ≤ b.len; the removed bytes stay in the store. -/
def removeHeader (b : Buf) (n : Nat) : Except Fault Buf :=
  if n ≤ bufLen b then .ok ⟨(b.win.take n).reverse ++ b.front, b.win.drop n, b.back⟩ else .error .bufferUnderflow

/-- `truncate(b, n)` (R82): requires n ≤ b.len; the cut bytes stay in the store. -/
def truncate (b : Buf) (n : Nat) : Except Fault Buf :=
  if n ≤ bufLen b then .ok ⟨b.front, b.win.take n, b.win.drop n ++ b.back⟩ else .error .bufferUnderflow

/-- `MemWrite` of a run of bytes at offset `off` of the window (R78). -/
def memWrite (b : Buf) (off : Nat) (v : Bytes) : Buf := { b with win := putBytes b.win off v }

/-- `add_header` for a new header, all of whose bytes are then written (R80). -/
def pushHeader (b : Buf) (h : Bytes) : Buf := memWrite (addHeader b h.length) 0 h

end Sys2Proof.Machine
end

