-- ==== Sys2Proof/Machine/Ops.lean ====
section
/-! DEFINITION. The named operations over the block's ports, registers and tables. The block has no trap mechanism
(60_exceptions.md R356); what stands in an exception's place is `raise` (R350, R352), and there is nothing to return
from. -/

namespace Sys2Proof.Machine

/-! Completing a command. -/

/-- Append one response record (R54). -/
def respond (s : State) (st : Status) (result : BitVec 64) : State :=
  { s with responses := s.responses ++ [mkResponse st result] }

/-- `raise ST_X` (R10, R352): the command ends with that status and result 0, and nothing else changes. -/
def raise (st : Status) (s : State) : Host.Outcome State Fault Refusal := .next (respond s st 0)

/-- A command whose procedure ran to its end or was dropped: ST_OK and result 0 (R112, R353). -/
def complete (r : Except Fault State) : Host.Outcome State Fault Refusal :=
  match r with
  | .ok s => .next (respond s .ok 0)
  | .error f => .fault f

/-! The output ports. -/

/-- `frame(TX(dst_hw, type, payload))`: the frame the external link layer builds (45_link.md R310; 30_encoding.md
R120). -/
def linkFrame (mac dst : Hw) (type : Half) (payload : Bytes) : Bytes :=
  bytes48 dst ++ bytes48 mac ++ bytes16 type ++ payload

/-- `emit TX(dst_hw, type, payload)` (R10, R52). The frame carries LOCAL_MAC as it is now (R310; log 3). -/
def emitTx (s : State) (dst : Hw) (type : Half) (payload : Bytes) : State :=
  { s with
    events := s.events ++ [.tx dst type payload]
    frames := s.frames ++ [linkFrame s.localMac dst type payload] }

/-- `emit DELIVER(handler, src_ip, src_port, payload)` (R10, R53). -/
def emitDeliver (s : State) (handler : Word) (src : Ip) (sport : Half) (payload : Bytes) : State :=
  { s with events := s.events ++ [.deliver handler src sport payload] }

/-! The input ports. -/

/-- Accepting a command: it leaves the command port, and TIME_NOW is sampled once (R50, R51). -/
def acceptCommand (now : Nat) (rest : List Input) (s : State) : State :=
  { s with inputs := rest, timeNow := now }

/-- Asserting the reset input (70_reset_and_hazards.md R380): the persistent state takes its values of R58. Parameters,
the ports and what was already emitted stay; reset emits no event and produces no response. -/
def applyReset (s : State) : State :=
  { s with
    localIp := 0
    localMac := 0
    fragId := 0
    arp := List.replicate s.params.arpCapacity ArpEntry.empty
    pend := Pend.empty
    udp := List.replicate s.params.udpCapacity UdpSlot.empty }

/-! The control registers (R33). -/

/-- LOCAL_MAC_0: bytes m0 to m3 (R35). -/
def localMac0 (mac : Hw) : Word := mac.extractLsb' 16 32

/-- LOCAL_MAC_1: bytes m4 and m5 in bits [31:16], bits [15:0] zero (R36). -/
def localMac1 (mac : Hw) : Word := (mac.extractLsb' 0 16 : Half) ++ (0 : BitVec 16)

/-- `reg[r]` for an assigned register number, none for a reserved one (R33 to R40). -/
def regRead (s : State) (r : Half) : Option Word :=
  if r = 0x000 then some s.localIp
  else if r = 0x001 then some (localMac0 s.localMac)
  else if r = 0x002 then some (localMac1 s.localMac)
  else if r = 0x003 then some (s.fragId.setWidth 32)
  else if r = 0x004 then some (if s.pend.valid then 1 else 0)
  else if r = 0x010 then some (BitVec.ofNat 32 s.params.arpCapacity)
  else if r = 0x011 then some (BitVec.ofNat 32 s.params.arpTimeout)
  else if r = 0x012 then some (BitVec.ofNat 32 s.params.udpCapacity)
  else if r = 0x013 then some (s.params.ipTtl.setWidth 32)
  else if r = 0x014 then some (BitVec.ofNat 32 s.params.maxPkt)
  else if r = 0x015 then some (if s.params.ipTrimPadding then 1 else 0)
  else none

/-- `reg[r] <- v` for a read-write register, none for a reserved or read-only one (R33 to R39; 46_control.md R332).
Bits that read as zero ignore the write. -/
def regWrite (s : State) (r : Half) (v : Word) : Option State :=
  if r = 0x000 then some { s with localIp := v }
  else if r = 0x001 then some { s with localMac := v ++ (s.localMac.extractLsb' 0 16 : Half) }
  else if r = 0x002 then some { s with localMac := localMac0 s.localMac ++ (v.extractLsb' 16 16 : Half) }
  else if r = 0x003 then some { s with fragId := v.extractLsb' 0 16 }
  else none

/-! The UDP handler table (R45). -/

/-- The index of the valid slot that holds `port`: the lowest, should there be more (R46; log 7). -/
def udpFind (t : List UdpSlot) (port : Half) : Option Nat :=
  t.findIdx? (fun u => u.valid && u.port == port)

/-- The lowest free slot (44_udp.md R286). -/
def udpFree (t : List UdpSlot) : Option Nat := t.findIdx? (fun u => !u.valid)

end Sys2Proof.Machine
end

