-- ==== Sys2Proof/Machine/Control.lean ====
section
/-! DEFINITION. The control commands (46_control.md). -/

namespace Sys2Proof.Machine

/-- NOP (R330). -/
def execNop (s : State) : Host.Outcome State Fault Refusal := complete (.ok s)

/-- REG_RD (R331). -/
def execRegRd (reg : Half) (s : State) : Host.Outcome State Fault Refusal :=
  match regRead s reg with
  | some v => .next (respond s .ok (v.setWidth 64))
  | none => raise .illegal s

/-- REG_WR (R332). -/
def execRegWr (reg : Half) (value : Word) (s : State) : Host.Outcome State Fault Refusal :=
  match regWrite s reg value with
  | some s1 => complete (.ok s1)
  | none => raise .illegal s

end Sys2Proof.Machine
end

