-- ==== Sys2Proof/Machine/Arp.lean ====
section
/-! DEFINITION. The Address Resolution engine (41_arp.md). -/

namespace Sys2Proof.Machine

/-- The expiry test of R180: the age `now - ts`, a signed difference (log 5), is above ARP_TIMEOUT. -/
def expired (timeout now : Nat) (e : ArpEntry) : Bool := decide ((timeout : Int) < (now : Int) - (e.ts : Int))

/-- Step 1 of R180 on one entry. -/
def sweepEntry (timeout now : Nat) (e : ArpEntry) : ArpEntry :=
  if expired timeout now e then { e with state := .invalid } else e

/-- Step 1 of R180: the lazy expiry sweep. -/
def arpSweep (timeout now : Nat) (t : List ArpEntry) : List ArpEntry := t.map (sweepEntry timeout now)

/-- The smallest timestamp of a non-empty cache. -/
def minTs : List ArpEntry → Nat
  | [] => 0
  | [e] => e.ts
  | e :: rest => min e.ts (minTs rest)

/-- Step 3 of R180: the smallest index whose timestamp is the smallest. -/
def oldestIndex (t : List ArpEntry) : Nat := t.findIdx (fun e => e.ts == minTs t)

/-- Steps 2 and 3 of R180: the slot an update overwrites. -/
def updateIndex (t : List ArpEntry) : Nat :=
  match t.findIdx? (fun e => e.state == .invalid) with
  | some i => i
  | none => oldestIndex t

/-- `arp_update(ip, hw)` (R180). -/
def arpUpdate (s : State) (ip : Ip) (hw : Hw) : State :=
  let swept := arpSweep s.params.arpTimeout s.timeNow s.arp
  { s with arp := swept.set (updateIndex swept) ⟨.valid, ip, hw, s.timeNow⟩ }

/-- `arp_lookup(ip)` (R182): the first VALID entry with that address; it looks at no age. -/
def arpLookup (t : List ArpEntry) (ip : Ip) : Option Hw :=
  (t.find? (fun e => e.state == .valid && e.ip == ip)).map (·.hw)

/-- `arp_msg(op, tha, tpa)` (R184; 30_encoding.md R121, R122). -/
def arpMsg (s : State) (op : Half) (tha : Hw) (tpa : Ip) : Bytes :=
  bytes16 arpHwEther ++ bytes16 arpProtoIpv4 ++ [arpHwLen, arpProtoLen] ++ bytes16 op ++
    bytes48 s.localMac ++ bytes32 s.localIp ++ bytes48 tha ++ bytes32 tpa

/-- `arp_request(target_ip)` (R184). -/
def arpRequest (s : State) (target : Ip) : State :=
  emitTx s hwBroadcast ethTypeArp (arpMsg s arpOpRequest 0 target)

/-- `arp_resolve_send(pkt, ip, proto)` (R186). -/
def arpResolveSend (s : State) (pkt : Bytes) (ip : Ip) (proto : Half) : State :=
  match arpLookup s.arp ip with
  | some hw => emitTx s hw proto pkt
  | none => arpRequest { s with pend := ⟨true, ip, proto, pkt⟩ } ip

/-- The validation of R188: at least 28 bytes and the fixed Ethernet/IPv4 profile. -/
def arpAccepts (m : Bytes) : Bool :=
  decide (arpMsgLen ≤ m.length) && be16 m 0 == arpHwEther && be16 m 2 == arpProtoIpv4 &&
    byteAt m 4 == arpHwLen && byteAt m 5 == arpProtoLen

/-- R189, the reply: an occupied pending slot is drained to the replying sender, whatever it waited for. -/
def arpReply (s : State) (sha : Hw) : State :=
  if s.pend.valid then { emitTx s sha s.pend.proto s.pend.pkt with pend := Pend.empty } else s

/-- R189, the request: one for LOCAL_IP is answered. -/
def arpAnswer (s : State) (sha : Hw) (spa tpa : Ip) : State :=
  if tpa = s.localIp then emitTx s sha ethTypeArp (arpMsg s arpOpReply sha spa) else s

/-- `arp_in(M)` (R188, R189). The sender is learned whatever the opcode. -/
def arpIn (s : State) (m : Bytes) : State :=
  if arpAccepts m then
    let sha := be48 m 8
    let spa := be32 m 14
    let learned := arpUpdate s spa sha
    if be16 m 6 = arpOpReply then arpReply learned sha
    else if be16 m 6 = arpOpRequest then arpAnswer learned sha spa (be32 m 24)
    else learned
  else s

/-- ARP_INIT (R193). -/
def execArpInit (s : State) : Host.Outcome State Fault Refusal :=
  let cleared := { s with arp := List.replicate s.arp.length ArpEntry.empty }
  complete (.ok (arpRequest cleared cleared.localIp))

/-- ARP_UPDATE (R181). -/
def execArpUpdate (ip : Ip) (hw : Hw) (s : State) : Host.Outcome State Fault Refusal :=
  complete (.ok (arpUpdate s ip hw))

/-- ARP_LOOKUP (R183): bit 48 of the result is 1 on a hit, with hw below it; 0 on a miss. -/
def execArpLookup (ip : Ip) (s : State) : Host.Outcome State Fault Refusal :=
  .next (respond s .ok
    (match arpLookup s.arp ip with
     | some hw => (1 : BitVec 16) ++ hw
     | none => 0))

/-- ARP_REQUEST (R185). -/
def execArpRequest (ip : Ip) (s : State) : Host.Outcome State Fault Refusal :=
  complete (.ok (arpRequest s ip))

/-- ARP_RESOLVE (R187). -/
def execArpResolve (ip : Ip) (proto : Half) (pkt : Bytes) (s : State) : Host.Outcome State Fault Refusal :=
  complete (.ok (arpResolveSend s pkt ip proto))

/-- ARP_IN (R190). -/
def execArpIn (pkt : Bytes) (s : State) : Host.Outcome State Fault Refusal :=
  complete (.ok (arpIn s pkt))

end Sys2Proof.Machine
end

