-- ==== Sys2Proof/Machine/Checksum.lean ====
section
/-! DEFINITION. The Internet checksum engine (40_checksum.md). -/

namespace Sys2Proof.Machine

/-- The sum of the big-endian 16-bit words of a byte string, an unbounded natural (R160). A last byte that stands alone
is the high byte of a word whose low byte is 0x00 (R161). -/
def wordSum : Bytes → Nat
  | [] => 0
  | [a] => a.toNat * 256
  | a :: b :: rest => (a.toNat * 256 + b.toNat) + wordSum rest

/-- The end-around-carry loop of R160. `fuel` bounds the iterations; each one that runs makes the sum smaller. -/
def foldLoop (fuel s : Nat) : Nat :=
  match fuel with
  | 0 => s
  | fuel + 1 => if 0xFFFF < s then foldLoop fuel (s % 2 ^ 16 + s / 2 ^ 16) else s

/-- The folded sum (R160). A sum is above the number of iterations it needs. -/
def foldSum (s : Nat) : Nat := foldLoop s s

/-- `csum(B)`, the Internet checksum (R160). -/
def csum (b : Bytes) : Half := BitVec.ofNat 16 (0xFFFF - foldSum (wordSum b))

/-- CSUM (R163). -/
def execCsum (pkt : Bytes) (s : State) : Host.Outcome State Fault Refusal :=
  .next (respond s .ok ((csum pkt).setWidth 64))

end Sys2Proof.Machine
end

