-- ==== Sys2Proof/Machine/IpOutput.lean ====
section
/-! DEFINITION. IPv4 output: the header builder and the fragmentation engine (42_ip.md, section 2). -/

namespace Sys2Proof.Machine

/-- The flags and fragment-offset word (30_encoding.md R126): bits 15 and 14 zero, MF in bit 13, the offset below. -/
def flagsOffset (mf : Bool) (off : BitVec 13) : Half := (0 : BitVec 2) ++ BitVec.ofBool mf ++ off

/-- The 20-byte header of R223 with its checksum field zero (30_encoding.md R124, R125). -/
def ipHeaderZero (s : State) (total : Half) (dst : Ip) (proto : BitVec 8) (id : Half) (off : BitVec 13) (mf : Bool) :
    Bytes :=
  [0x45, 0x00] ++ bytes16 total ++ bytes16 id ++ bytes16 (flagsOffset mf off) ++ [s.params.ipTtl, proto] ++
    bytes16 0 ++ bytes32 s.localIp ++ bytes32 dst

/-- The 20-byte header of R223 with its checksum inserted (40_checksum.md R164). -/
def ipHeader (s : State) (total : Half) (dst : Ip) (proto : BitVec 8) (id : Half) (off : BitVec 13) (mf : Bool) :
    Bytes :=
  let h := ipHeaderZero s total dst proto id off mf
  put16 h 10 (csum h)

/-- The datagram of R223: the header in front of the buffer's window. The total length is the window's length after the
prepend. -/
def ipDatagram (s : State) (b : Buf) (dst : Ip) (proto : BitVec 8) (id : Half) (off : BitVec 13) (mf : Bool) : Buf :=
  pushHeader b (ipHeader s (BitVec.ofNat 16 (ipHdrLen + bufLen b)) dst proto id off mf)

/-- `ip_send_fragment(b, dst, proto, id, off, mf)` (R223). -/
def ipSendFragment (s : State) (b : Buf) (dst : Ip) (proto : BitVec 8) (id : Half) (off : BitVec 13) (mf : Bool) :
    State :=
  arpResolveSend s (ipDatagram s b dst proto id off mf).win dst ethTypeIpv4

/-- The loop of R225 over the payload that is left, from byte offset `o` on. Each turn sends 1480 bytes with MF = 1;
the rest, at most 1480 bytes, goes out with MF = 0. `fuel` bounds the turns: each one shortens the payload. -/
def ipSendLoop (fuel : Nat) (s : State) (rest : Bytes) (o : Nat) (dst : Ip) (proto : BitVec 8) (id : Half) : State :=
  match fuel with
  | 0 => s
  | fuel + 1 =>
    if ipFragPayload < rest.length then
      ipSendLoop fuel
        (ipSendFragment s (load (rest.take ipFragPayload)) dst proto id (BitVec.ofNat 13 (o / 8)) true)
        (rest.drop ipFragPayload) (o + ipFragPayload) dst proto id
    else ipSendFragment s (load rest) dst proto id (BitVec.ofNat 13 (o / 8)) false

/-- `ip_send(b, dst, proto)` (R225). The identifier is drawn once, before the increment. -/
def ipSend (s : State) (b : Buf) (dst : Ip) (proto : BitVec 8) : State :=
  let id := s.fragId
  let s1 := { s with fragId := s.fragId + 1 }
  if ipFragPayload < bufLen b then ipSendLoop (bufLen b) s1 b.win 0 dst proto id
  else ipSendFragment s1 b dst proto id 0 false

/-- IP_FRAG (R224). FRAG_ID is neither read nor changed. -/
def execIpFrag (dst : Ip) (proto : BitVec 8) (id : Half) (off : BitVec 13) (mf : Bool) (pkt : Bytes) (s : State) :
    Host.Outcome State Fault Refusal :=
  if 65515 < pkt.length then raise .length s
  else complete (.ok (ipSendFragment s (load pkt) dst proto id off mf))

/-- IP_SEND (R226). -/
def execIpSend (dst : Ip) (proto : BitVec 8) (pkt : Bytes) (s : State) : Host.Outcome State Fault Refusal :=
  complete (.ok (ipSend s (load pkt) dst proto))

end Sys2Proof.Machine
end

