-- ==== Sys2Proof/Machine/Icmp.lean ====
section
/-! DEFINITION. The ICMP echo and error synthesizer (43_icmp.md). -/

namespace Sys2Proof.Machine

/-- The Echo-Reply of R260: type, code and checksum rewritten, every byte from offset 4 on copied. -/
def echoReply (m : Bytes) : Bytes :=
  let r := putBytes (putBytes m 0 [icmpEchoReply, 0]) 2 (bytes16 0)
  put16 r 2 (csum r)

/-- `icmp_in(M, src)` (R260). The message's own checksum is not verified. -/
def icmpIn (s : State) (m : Bytes) (src : Ip) : State :=
  if m.length < icmpHdrLen then s
  else if byteAt m 0 = icmpEchoRequest ∧ byteAt m 1 = 0 then ipSend s (load (echoReply m)) src ipProtoIcmp
  else s

/-- The Destination-Unreachable message of R262: 8 header bytes, then the first 28 bytes of the datagram, zero-filled
(30_encoding.md R130). -/
def unreachMsg (d : Bytes) (code : BitVec 8) : Bytes :=
  let k := min icmpEmbedLen d.length
  let e := d.take k ++ zeros (icmpEmbedLen - k)
  let u := [icmpDestUnreach, code, 0, 0, 0, 0, 0, 0] ++ e
  put16 u 2 (csum u)

/-- `icmp_unreachable(D, dst, code)` (R262). -/
def icmpUnreachable (s : State) (d : Bytes) (dst : Ip) (code : BitVec 8) : State :=
  ipSend s (load (unreachMsg d code)) dst ipProtoIcmp

/-- ICMP_IN (R261). -/
def execIcmpIn (src : Ip) (pkt : Bytes) (s : State) : Host.Outcome State Fault Refusal :=
  complete (.ok (icmpIn s pkt src))

/-- ICMP_UNREACH (R263). -/
def execIcmpUnreach (dst : Ip) (code : BitVec 8) (pkt : Bytes) (s : State) : Host.Outcome State Fault Refusal :=
  complete (.ok (icmpUnreachable s pkt dst code))

end Sys2Proof.Machine
end

