-- ==== Sys2Proof/Machine/Udp.lean ====
section
/-! DEFINITION. The UDP checksum verifier and port dispatcher (44_udp.md). -/

namespace Sys2Proof.Machine

/-- The 12-byte pseudo-header (30_encoding.md R132). -/
def pseudoHeader (src dst : Ip) (ulen : Half) : Bytes :=
  bytes32 src ++ bytes32 dst ++ [0x00, ipProtoUdp] ++ bytes16 ulen

/-- `udp_pseudo_checksum(b, src, dst)` (R280): the pseudo-header goes in front of the window, with the length field of the
real header, and the whole is summed. The procedure leaves the buffer as it was (R288; D22), and a buffer is a value
(20_memory.md R83), so its result is the checksum alone. -/
def udpPseudoChecksum (b : Buf) (src dst : Ip) : Half :=
  csum (pushHeader b (pseudoHeader src dst (be16 b.win 4))).win

/-- The truncation of R282: a declared length below 18 cuts a longer buffer. -/
def udpTrim (b : Buf) (ulen : Nat) : Except Fault Buf :=
  if ulen < udpTruncBelow ∧ ulen < bufLen b then truncate b ulen else .ok b

/-- The checksum R282 computes on input: over the segment with its checksum field zeroed. -/
def udpInChecksum (s : State) (b : Buf) (src : Ip) : Half :=
  udpPseudoChecksum (memWrite b 6 (bytes16 0)) src s.localIp

/-- The dispatch of R282, after the checksum: deliver to the port's handler, or answer Port-Unreachable with the 20 bytes
in front of the segment re-attached. -/
def udpDispatch (s : State) (b : Buf) (src : Ip) : Except Fault State :=
  match udpFind s.udp (be16 b.win 2) with
  | some j =>
    match removeHeader b udpHdrLen with
    | .ok data => .ok (emitDeliver s (s.udp.getD j UdpSlot.empty).handler src (be16 b.win 0) data.win)
    | .error f => .error f
  | none => .ok (icmpUnreachable s (addHeader b ipHdrLen).win src icmpCodePortUnreach)

/-- `udp_in(b, src)` (R282). The checksum field is zeroed for the computation and restored. -/
def udpIn (s : State) (b : Buf) (src : Ip) : Except Fault State :=
  if bufLen b < udpHdrLen then .ok s
  else if (be16 b.win 4).toNat < udpHdrLen then .ok s
  else
    match udpTrim b (be16 b.win 4).toNat with
    | .error f => .error f
    | .ok b =>
      let rx := be16 b.win 6
      if udpInChecksum s b src ≠ rx then .ok s
      else udpDispatch s (memWrite (memWrite b 6 (bytes16 0)) 6 (bytes16 rx)) src

/-- The UDP header of R284 with its checksum field zero (30_encoding.md R131). -/
def udpHeaderZero (sport dport ulen : Half) : Bytes := bytes16 sport ++ bytes16 dport ++ bytes16 ulen ++ bytes16 0

/-- The segment of R284: the header in front of the payload, its length field the length after the prepend, its checksum
inserted as computed. -/
def udpSegment (s : State) (b : Buf) (sport : Half) (dst : Ip) (dport : Half) : Buf :=
  let seg := pushHeader b (udpHeaderZero sport dport (BitVec.ofNat 16 (udpHdrLen + bufLen b)))
  memWrite seg 6 (bytes16 (udpPseudoChecksum seg s.localIp dst))

/-- `udp_send(b, sport, dst, dport)` (R284). -/
def udpSend (s : State) (b : Buf) (sport : Half) (dst : Ip) (dport : Half) : State :=
  ipSend s (udpSegment s b sport dst dport) dst ipProtoUdp

/-- UDP_PCSUM (R281). -/
def execUdpPcsum (src dst : Ip) (pkt : Bytes) (s : State) : Host.Outcome State Fault Refusal :=
  if pkt.length < udpHdrLen then raise .length s
  else .next (respond s .ok ((udpPseudoChecksum (load pkt) src dst).setWidth 64))

/-- UDP_IN (R283). -/
def execUdpIn (src : Ip) (pkt : Bytes) (s : State) : Host.Outcome State Fault Refusal :=
  complete (udpIn s (load pkt) src)

/-- UDP_SEND (R285). -/
def execUdpSend (sport : Half) (dst : Ip) (dport : Half) (pkt : Bytes) (s : State) : Host.Outcome State Fault Refusal :=
  if 65527 < pkt.length then raise .length s
  else complete (.ok (udpSend s (load pkt) sport dst dport))

/-- UDP_OPEN (R286). -/
def execUdpOpen (port : Half) (handler : Word) (s : State) : Host.Outcome State Fault Refusal :=
  match udpFind s.udp port with
  | some j => complete (.ok { s with udp := s.udp.modify j (fun u => { u with handler := handler }) })
  | none =>
    match udpFree s.udp with
    | some j => complete (.ok { s with udp := s.udp.set j ⟨true, port, handler⟩ })
    | none => raise .fail s

/-- UDP_CLOSE (R287). A port that is not registered is no error. -/
def execUdpClose (port : Half) (s : State) : Host.Outcome State Fault Refusal :=
  match udpFind s.udp port with
  | some j => complete (.ok { s with udp := s.udp.set j UdpSlot.empty })
  | none => complete (.ok s)

end Sys2Proof.Machine
end

