-- ==== Sys2Proof/Machine/IpInput.lean ====
section
/-! DEFINITION. IPv4 input: the parser and validator (42_ip.md, section 1). -/

namespace Sys2Proof.Machine

/-- The version of an IPv4 header: byte 0 bits [7:4] (30_encoding.md R125). -/
def ipVersion (w : Bytes) : BitVec 4 := (byteAt w 0).extractLsb' 4 4

/-- The header length in bytes: 4 times IHL, byte 0 bits [3:0] (30_encoding.md R125). -/
def ipHdrBytes (w : Bytes) : Nat := 4 * ((byteAt w 0).extractLsb' 0 4 : BitVec 4).toNat

/-- The declared total length (30_encoding.md R124). -/
def ipTotalLen (w : Bytes) : Nat := (be16 w 2).toNat

/-- The validation of R220, in its order; a datagram that fails a check is dropped. The low-order bit of the service type
is bit 0 of byte 1 (30_encoding.md R127). -/
def ipAccepts (localIp : Ip) (w : Bytes) : Bool :=
  decide (ipHdrLen ≤ w.length) &&
  (ipVersion w == 4) && decide (ipHdrLen ≤ ipHdrBytes w) &&
  decide (ipHdrBytes w ≤ w.length) &&
  !(byteAt w 1).getLsbD 0 &&
  decide (ipTotalLen w ≤ ipMaxTotalIn) &&
  (csum (w.take (ipHdrBytes w)) == 0) &&
  (be32 w 16 == localIp)

/-- The trimming of R221: with IP_TRIM_PADDING, a buffer longer than the total length is cut to it, when that is at least
the header length. -/
def ipTrim (s : State) (b : Buf) : Except Fault Buf :=
  if s.params.ipTrimPadding ∧ ipTotalLen b.win < bufLen b ∧ ipHdrBytes b.win ≤ ipTotalLen b.win then
    truncate b (ipTotalLen b.win)
  else .ok b

/-- The dispatch of R221 by the protocol field: ICMP and UDP with the header stripped, any other value answered with
Protocol-Unreachable carrying the datagram untouched. -/
def ipDispatch (s : State) (b : Buf) : Except Fault State :=
  let proto := byteAt b.win 9
  let src := be32 b.win 12
  if proto = ipProtoIcmp then
    match removeHeader b (ipHdrBytes b.win) with
    | .ok data => .ok (icmpIn s data.win src)
    | .error f => .error f
  else if proto = ipProtoUdp then
    match removeHeader b (ipHdrBytes b.win) with
    | .ok data => udpIn s data src
    | .error f => .error f
  else .ok (icmpUnreachable s b.win src icmpCodeProtoUnreach)

/-- `ip_in(b)` (R220, R221). -/
def ipIn (s : State) (b : Buf) : Except Fault State :=
  if ipAccepts s.localIp b.win then
    match ipTrim s b with
    | .ok b => ipDispatch s b
    | .error f => .error f
  else .ok s

/-- IP_IN (R222). -/
def execIpIn (pkt : Bytes) (s : State) : Host.Outcome State Fault Refusal :=
  complete (ipIn s (load pkt))

end Sys2Proof.Machine
end

