-- ==== Sys2Proof/Machine/Link.lean ====
section
/-! DEFINITION. The link-layer edge: the receive dispatch (45_link.md R311, R312). The transmit side, the TX event and the
frame built from it (R310), stands in Ops as `emitTx` and `linkFrame`. -/

namespace Sys2Proof.Machine

/-- The IPv4 branch of R311: passive learning before IP validation, if the payload holds an IP header's 20 bytes, then IP
input. -/
def ethIpv4 (s : State) (b : Buf) (smac : Hw) : Except Fault State :=
  ipIn (if ipHdrLen ≤ bufLen b then arpUpdate s (be32 b.win 12) smac else s) b

/-- `eth_rx(F)` (R311). The destination address is not checked. -/
def ethRx (s : State) (f : Bytes) : Except Fault State :=
  if f.length < linkHdrLen then .ok s
  else
    match removeHeader (load f) linkHdrLen with
    | .error e => .error e
    | .ok b =>
      if be16 f 12 = ethTypeArp then .ok (arpIn s b.win)
      else if be16 f 12 = ethTypeIpv4 then ethIpv4 s b (be48 f 6)
      else .ok s

/-- ETH_RX (R312). -/
def execEthRx (pkt : Bytes) (s : State) : Host.Outcome State Fault Refusal :=
  complete (ethRx s pkt)

end Sys2Proof.Machine
end

