-- ==== Sys2Proof/Machine/Dispatch.lean ====
section
/-! DEFINITION. exec: one arm per command, each one direct call of its meaning. -/

namespace Sys2Proof.Machine

def exec (i : Instr) (s : State) : Host.Outcome State Fault Refusal :=
  match i with
  -- control (46_control.md)
  | .nop => Sys2Proof.Machine.execNop s
  -- checksum (40_checksum.md)
  | .csum pkt => Sys2Proof.Machine.execCsum pkt s
  -- address resolution (41_arp.md)
  | .arpInit => Sys2Proof.Machine.execArpInit s
  | .arpUpdate ip hw => Sys2Proof.Machine.execArpUpdate ip hw s
  | .arpLookup ip => Sys2Proof.Machine.execArpLookup ip s
  | .arpRequest ip => Sys2Proof.Machine.execArpRequest ip s
  | .arpResolve ip proto pkt => Sys2Proof.Machine.execArpResolve ip proto pkt s
  | .arpIn pkt => Sys2Proof.Machine.execArpIn pkt s
  -- IPv4 (42_ip.md)
  | .ipIn pkt => Sys2Proof.Machine.execIpIn pkt s
  | .ipFrag dst proto id off mf pkt => Sys2Proof.Machine.execIpFrag dst proto id off mf pkt s
  | .ipSend dst proto pkt => Sys2Proof.Machine.execIpSend dst proto pkt s
  -- ICMP (43_icmp.md)
  | .icmpIn src pkt => Sys2Proof.Machine.execIcmpIn src pkt s
  | .icmpUnreach dst code pkt => Sys2Proof.Machine.execIcmpUnreach dst code pkt s
  -- UDP (44_udp.md)
  | .udpIn src pkt => Sys2Proof.Machine.execUdpIn src pkt s
  | .udpSend sport dst dport pkt => Sys2Proof.Machine.execUdpSend sport dst dport pkt s
  | .udpOpen port handler => Sys2Proof.Machine.execUdpOpen port handler s
  | .udpClose port => Sys2Proof.Machine.execUdpClose port s
  | .udpPcsum src dst pkt => Sys2Proof.Machine.execUdpPcsum src dst pkt s
  -- link (45_link.md)
  | .ethRx pkt => Sys2Proof.Machine.execEthRx pkt s
  -- control registers (46_control.md)
  | .regRd reg => Sys2Proof.Machine.execRegRd reg s
  | .regWr reg value => Sys2Proof.Machine.execRegWr reg value s

end Sys2Proof.Machine
end

