-- ==== Sys2Proof/Machine/Step.lean ====
section
/-! DEFINITION. One step of the block: one command, or one assertion of the reset input (70_reset_and_hazards.md R380,
R385). -/

namespace Sys2Proof.Machine

/-- One step. It takes the next entry of the command port: a command is accepted, decoded and executed as one atomic step
(R85, R385); a reset takes effect between commands (R380); with nothing presented the block is idle and keeps its
state (60_exceptions.md R362). -/
def step (s : State) : Host.Outcome State Fault Refusal :=
  match s.inputs with
  | [] => .next s
  | .reset :: rest => .next (applyReset { s with inputs := rest })
  | .command c now :: rest =>
    match decode s.params c with
    | .ok i => exec i (acceptCommand now rest s)
    | .error e => raise (decodeStatus e) (acceptCommand now rest s)

/-- `s` with one more command in front of the command port: the descriptor whose first `nbits` bits are `w` and whose other
bits are zero, an empty packet operand, and the TIME_NOW that is on the port (log 2). -/
def State.withFetchWord (s : State) (nbits w : Nat) : State :=
  { s with inputs := .command (commandOfBits nbits w []) s.timeNow :: s.inputs }

end Sys2Proof.Machine
end

