-- ==== Sys2Proof/Machine/Assembler.lean ====
section
/-! DEFINITION. The assembler notation (30_encoding.md R114 to R117): a text, as a list of characters, becomes what a host
presents on the command port. The commands it spells are those of Syntax; nothing of the machine depends on this file.
Names stand as character lists, so that Lean's kernel evaluates a program's assembly. -/

namespace Sys2Proof.Machine

/-- The tokens of one line. -/
inductive AsmTok where
  | word (cs : List Char)
  | comma
  | lbrace
  | rbrace
  | lparen
  | rparen
  | eq
  | plus
deriving DecidableEq, Repr

/-- The one-character tokens; the braces by their code points. -/
def asmSymbol (c : Char) : Option AsmTok :=
  if c = ',' then some .comma
  else if c.toNat = 123 then some .lbrace
  else if c.toNat = 125 then some .rbrace
  else if c = '(' then some .lparen
  else if c = ')' then some .rparen
  else if c = '=' then some .eq
  else if c = '+' then some .plus
  else none

/-- A word that has been read backwards, as a token; an empty one is none. -/
def asmWord (acc : List Char) : List AsmTok := if acc.isEmpty then [] else [.word acc.reverse]

/-- The tokens of a line; `; text` is a comment (R116). `acc` is the word being read, backwards. -/
def asmTokens (acc : List Char) : List Char → List AsmTok
  | [] => asmWord acc
  | c :: rest =>
    if c = ';' then asmWord acc
    else if c = ' ' ∨ c = '\t' ∨ c = '\r' then asmWord acc ++ asmTokens [] rest
    else
      match asmSymbol c with
      | some t => asmWord acc ++ t :: asmTokens [] rest
      | none => asmTokens (c :: acc) rest

/-- Split a list at a separator. -/
def splitOn {α : Type} [DecidableEq α] (sep : α) (acc : List α) : List α → List (List α)
  | [] => [acc.reverse]
  | x :: rest => if x = sep then acc.reverse :: splitOn sep [] rest else splitOn sep (x :: acc) rest

/-- The value of a digit of a base, 10 or 16 (R115): the value whose digit it is. A hex digit's case is ignored. -/
def digitVal (base : Nat) (c : Char) : Option Nat :=
  (List.range base).find? (fun v => (Nat.digitChar v).toUpper == c.toUpper)

/-- The value of a run of digits in a base, after the digits already read. -/
def digitsVal (base acc : Nat) : List Char → Option Nat
  | [] => some acc
  | c :: rest => (digitVal base c).bind (fun d => digitsVal base (acc * base + d) rest)

/-- A number: decimal or 0x hex (R115). -/
def asmNat : List Char → Option Nat
  | [] => none
  | '0' :: 'x' :: c :: rest => digitsVal 16 0 (c :: rest)
  | c :: rest => digitsVal 10 0 (c :: rest)

/-- A number that fits `n` bits. -/
def asmBits (n : Nat) (cs : List Char) : Option (BitVec n) :=
  match asmNat cs with
  | some v => if v < 2 ^ n then some (BitVec.ofNat n v) else none
  | none => none

/-- A number in a base that fits a byte. -/
def asmByte (base : Nat) (cs : List Char) : Option Byte :=
  match cs with
  | [] => none
  | c :: rest =>
    match digitsVal base 0 (c :: rest) with
    | some v => if v < 256 then some (BitVec.ofNat 8 v) else none
    | none => none

/-- The bytes of several words, all of which must be bytes. -/
def asmByteList (base : Nat) : List (List Char) → Option Bytes
  | [] => some []
  | w :: rest =>
    match asmByte base w, asmByteList base rest with
    | some b, some bs => some (b :: bs)
    | _, _ => none

/-- `ip`: a dotted quad (R115, R104). -/
def asmIp (cs : List Char) : Option Ip :=
  match asmByteList 10 (splitOn '.' [] cs) with
  | some [a, b, c, d] => some (a ++ b ++ c ++ d)
  | _ => none

/-- `hw`: six colon-separated hex bytes (R115). -/
def asmHw (cs : List Char) : Option Hw :=
  match asmByteList 16 (splitOn ':' [] cs) with
  | some [a, b, c, d, e, f] => some (a ++ b ++ c ++ d ++ e ++ f)
  | _ => none

/-- The register names of R33. -/
def regNames : List (List Char × Half) :=
  [ (['L','O','C','A','L','_','I','P'], 0x000),
    (['L','O','C','A','L','_','M','A','C','_','0'], 0x001),
    (['L','O','C','A','L','_','M','A','C','_','1'], 0x002),
    (['F','R','A','G','_','I','D'], 0x003),
    (['E','N','G','I','N','E','_','S','T','A','T','U','S'], 0x004),
    (['P','A','R','A','M','_','A','R','P','_','C','A','P','A','C','I','T','Y'], 0x010),
    (['P','A','R','A','M','_','A','R','P','_','T','I','M','E','O','U','T'], 0x011),
    (['P','A','R','A','M','_','U','D','P','_','C','A','P','A','C','I','T','Y'], 0x012),
    (['P','A','R','A','M','_','I','P','_','T','T','L'], 0x013),
    (['P','A','R','A','M','_','M','A','X','_','P','K','T'], 0x014),
    (['P','A','R','A','M','_','F','L','A','G','S'], 0x015) ]

/-- The value a name stands for in a list of named values. -/
def lookupName {α : Type} (name : List Char) (names : List (List Char × α)) : Option α :=
  (names.find? (fun p => p.1 == name)).map (·.2)

/-- `reg`: a register number or a register name (R115). -/
def asmReg (cs : List Char) : Option Half :=
  match lookupName cs regNames with
  | some r => some r
  | none => asmBits 16 cs

/-- `mf`: 0 or 1 (R115). -/
def asmMf (cs : List Char) : Option Bool :=
  match asmNat cs with
  | some 0 => some false
  | some 1 => some true
  | _ => none

/-- `ramp(N)`: the N-byte string whose byte k is k mod 256 (R116). -/
def ramp (n : Nat) : Bytes := (List.range n).map (fun k => BitVec.ofNat 8 k)

/-- The byte strings defined so far (R116). -/
abbrev AsmEnv := List (List Char × Bytes)

/-- The hex bytes of a brace list, after its opening brace, and what follows its closing one (R115). -/
def braceBytes : List AsmTok → Option (Bytes × List AsmTok)
  | .rbrace :: rest => some ([], rest)
  | .word w :: rest =>
    match asmByte 16 w, braceBytes rest with
    | some b, some (bs, after) => some (b :: bs, after)
    | _, _ => none
  | _ => none

/-- One byte string: a brace list, `ramp(N)` or a defined name (R115, R116), and what follows it. -/
def asmTerm (env : AsmEnv) : List AsmTok → Option (Bytes × List AsmTok)
  | .lbrace :: rest => braceBytes rest
  | .word ['r','a','m','p'] :: .lparen :: .word n :: .rparen :: rest => (asmNat n).map (fun v => (ramp v, rest))
  | .word w :: rest => (lookupName w env).map (fun b => (b, rest))
  | _ => none

/-- Byte strings joined by `++` (R116). `fuel` bounds their number. -/
def asmPkt (fuel : Nat) (env : AsmEnv) (ts : List AsmTok) : Option Bytes :=
  match fuel with
  | 0 => none
  | fuel + 1 =>
    match asmTerm env ts with
    | some (b, []) => some b
    | some (b, .plus :: .plus :: rest) => (asmPkt fuel env rest).map (b ++ ·)
    | _ => none

/-- A packet operand (R115). -/
def asmPacket (env : AsmEnv) (ts : List AsmTok) : Option Bytes := asmPkt ts.length env ts

/-- The mnemonics of R107, the pseudo-instructions of R117 and the directives of R116, in capitals. -/
inductive AsmName where
  | op (o : Op)
  | setIp
  | setMac
  | setFragId
  | boot
  | time
  | bytes
deriving DecidableEq, Repr

/-- How each name is spelt (R107, R116, R117). -/
def asmNames : List (List Char × AsmName) :=
  [ (['N','O','P'], .op .nop),
    (['C','S','U','M'], .op .csum),
    (['A','R','P','_','I','N','I','T'], .op .arpInit),
    (['A','R','P','_','U','P','D','A','T','E'], .op .arpUpdate),
    (['A','R','P','_','L','O','O','K','U','P'], .op .arpLookup),
    (['A','R','P','_','R','E','Q','U','E','S','T'], .op .arpRequest),
    (['A','R','P','_','R','E','S','O','L','V','E'], .op .arpResolve),
    (['A','R','P','_','I','N'], .op .arpIn),
    (['I','P','_','I','N'], .op .ipIn),
    (['I','P','_','F','R','A','G'], .op .ipFrag),
    (['I','P','_','S','E','N','D'], .op .ipSend),
    (['I','C','M','P','_','I','N'], .op .icmpIn),
    (['I','C','M','P','_','U','N','R','E','A','C','H'], .op .icmpUnreach),
    (['U','D','P','_','I','N'], .op .udpIn),
    (['U','D','P','_','S','E','N','D'], .op .udpSend),
    (['U','D','P','_','O','P','E','N'], .op .udpOpen),
    (['U','D','P','_','C','L','O','S','E'], .op .udpClose),
    (['U','D','P','_','P','C','S','U','M'], .op .udpPcsum),
    (['E','T','H','_','R','X'], .op .ethRx),
    (['R','E','G','_','R','D'], .op .regRd),
    (['R','E','G','_','W','R'], .op .regWr),
    (['S','E','T','_','I','P'], .setIp),
    (['S','E','T','_','M','A','C'], .setMac),
    (['S','E','T','_','F','R','A','G','_','I','D'], .setFragId),
    (['B','O','O','T'], .boot),
    (['.','T','I','M','E'], .time),
    (['.','B','Y','T','E','S'], .bytes) ]

/-- `SET_IP a.b.c.d` (R117). -/
def setIpInstrs (ip : Ip) : List Instr := [.regWr 0x000 ip]

/-- `SET_MAC m0:m1:m2:m3:m4:m5` (R117). -/
def setMacInstrs (hw : Hw) : List Instr := [.regWr 0x001 (hwWord2 hw), .regWr 0x002 (hwWord3 hw)]

/-- `SET_FRAG_ID v` (R117). -/
def setFragIdInstrs (v : Word) : List Instr := [.regWr 0x003 v]

/-- `BOOT ip, hw` (R117): the boot sequence of 70_reset_and_hazards.md R382, steps 1, 2 and 4. -/
def bootInstrs (ip : Ip) (hw : Hw) : List Instr := setIpInstrs ip ++ setMacInstrs hw ++ [.arpInit]

/-- What one line says: commands, a new TIME_NOW, or a byte string's definition. -/
inductive AsmItem where
  | commands (is : List Instr)
  | time (n : Nat)
  | bytes (name : List Char) (v : Bytes)
deriving DecidableEq, Repr

/-- The command a mnemonic and its operands spell, in the operand order of R114. -/
def asmInstr (env : AsmEnv) (o : Op) (ops : List (List AsmTok)) : Option Instr :=
  match o, ops with
  | .nop, [] => some .nop
  | .csum, [p] => (asmPacket env p).map .csum
  | .arpInit, [] => some .arpInit
  | .arpUpdate, [[.word ip], [.word hw]] =>
    (asmIp ip).bind (fun ip => (asmHw hw).map (fun hw => .arpUpdate ip hw))
  | .arpLookup, [[.word ip]] => (asmIp ip).map .arpLookup
  | .arpRequest, [[.word ip]] => (asmIp ip).map .arpRequest
  | .arpResolve, [[.word ip], [.word t], p] =>
    (asmIp ip).bind (fun ip => (asmBits 16 t).bind (fun t => (asmPacket env p).map (fun p => .arpResolve ip t p)))
  | .arpIn, [p] => (asmPacket env p).map .arpIn
  | .ipIn, [p] => (asmPacket env p).map .ipIn
  | .ipFrag, [[.word dst], [.word proto], [.word id], [.word off], [.word mf], p] =>
    (asmIp dst).bind (fun dst => (asmBits 8 proto).bind (fun proto => (asmBits 16 id).bind (fun id =>
      (asmBits 13 off).bind (fun off => (asmMf mf).bind (fun mf =>
        (asmPacket env p).map (fun p => .ipFrag dst proto id off mf p))))))
  | .ipSend, [[.word dst], [.word proto], p] =>
    (asmIp dst).bind (fun dst => (asmBits 8 proto).bind (fun proto =>
      (asmPacket env p).map (fun p => .ipSend dst proto p)))
  | .icmpIn, [[.word src], p] => (asmIp src).bind (fun src => (asmPacket env p).map (fun p => .icmpIn src p))
  | .icmpUnreach, [[.word dst], [.word code], p] =>
    (asmIp dst).bind (fun dst => (asmBits 8 code).bind (fun code =>
      (asmPacket env p).map (fun p => .icmpUnreach dst code p)))
  | .udpIn, [[.word src], p] => (asmIp src).bind (fun src => (asmPacket env p).map (fun p => .udpIn src p))
  | .udpSend, [[.word sport], [.word dst], [.word dport], p] =>
    (asmBits 16 sport).bind (fun sport => (asmIp dst).bind (fun dst => (asmBits 16 dport).bind (fun dport =>
      (asmPacket env p).map (fun p => .udpSend sport dst dport p))))
  | .udpOpen, [[.word port], [.word h]] =>
    (asmBits 16 port).bind (fun port => (asmBits 32 h).map (fun h => .udpOpen port h))
  | .udpClose, [[.word port]] => (asmBits 16 port).map .udpClose
  | .udpPcsum, [[.word src], [.word dst], p] =>
    (asmIp src).bind (fun src => (asmIp dst).bind (fun dst => (asmPacket env p).map (fun p => .udpPcsum src dst p)))
  | .ethRx, [p] => (asmPacket env p).map .ethRx
  | .regRd, [[.word r]] => (asmReg r).map .regRd
  | .regWr, [[.word r], [.word v]] => (asmReg r).bind (fun r => (asmBits 32 v).map (fun v => .regWr r v))
  | _, _ => none

/-- The operands of a statement: its tokens split at commas; none where nothing follows the mnemonic. -/
def asmOperands (ts : List AsmTok) : List (List AsmTok) := if ts.isEmpty then [] else splitOn .comma [] ts

/-- What a statement says, by its first word (R114, R116, R117). -/
def asmStatement (env : AsmEnv) (n : AsmName) (ts : List AsmTok) : Option AsmItem :=
  match n, ts with
  | .op o, ts => (asmInstr env o (asmOperands ts)).map (fun i => .commands [i])
  | .setIp, [.word ip] => (asmIp ip).map (fun ip => .commands (setIpInstrs ip))
  | .setMac, [.word hw] => (asmHw hw).map (fun hw => .commands (setMacInstrs hw))
  | .setFragId, [.word v] => (asmBits 32 v).map (fun v => .commands (setFragIdInstrs v))
  | .boot, [.word ip, .comma, .word hw] =>
    (asmIp ip).bind (fun ip => (asmHw hw).map (fun hw => .commands (bootInstrs ip hw)))
  | .time, [.word v] => (asmNat v).map .time
  | .bytes, .word name :: .eq :: p => (asmPacket env p).map (.bytes name)
  | _, _ => none

/-- What a line says; an empty line says nothing. Case is ignored in mnemonics (R114). -/
def asmLine (env : AsmEnv) (line : List Char) : Option AsmItem :=
  match asmTokens [] line with
  | [] => some (.commands [])
  | .word w :: ts =>
    match lookupName (w.map Char.toUpper) asmNames with
    | some n => asmStatement env n ts
    | none => none
  | _ => none

/-- What the host presents for a program's lines: `now` is the TIME_NOW of the commands that follow (R116). -/
def asmLines (now : Nat) (env : AsmEnv) : List (List Char) → Option (List Input)
  | [] => some []
  | line :: rest =>
    match asmLine env line with
    | none => none
    | some (.time n) => asmLines n env rest
    | some (.bytes name v) => asmLines now ((name, v) :: env) rest
    | some (.commands is) => (asmLines now env rest).map (is.map (fun i => Input.command (encode i) now) ++ ·)

/-- Assemble a program's text. Before the first `.time`, TIME_NOW is 0 (R116). -/
def assemble (text : List Char) : Option (List Input) := asmLines 0 [] (splitOn '\n' [] text)

end Sys2Proof.Machine
end

