-- ==== Sys2Proof/Safety.lean ====
section
/-! DEFINITION. What a safe state and a safe run are, and the words the statements use: each says a thing of the spec in
terms of the state's fields and of the bytes of a message. -/

namespace Sys2Proof.Safety

open Sys2Proof.Machine

/-! Invariants. -/

/-- No entry of the cache is PENDING (10_state.md R42: no reachable state holds it). -/
abbrev noPendingEntry (t : List ArpEntry) : Prop := ∀ e ∈ t, e.state ≠ .pending

/-- No two valid slots hold the same port (R46). -/
abbrev uniquePorts (t : List UdpSlot) : Prop :=
  t.Pairwise (fun a b => a.valid = true → b.valid = true → a.port ≠ b.port)

/-- The table invariants: each table has exactly its capacity of entries (R41, R43, R45), no entry is PENDING (R42), no two
valid slots hold one port (R46), and the held packet is at most 65535 bytes long (R44). -/
abbrev Inv (s : State) : Prop :=
  s.arp.length = s.params.arpCapacity ∧ s.udp.length = s.params.udpCapacity ∧ noPendingEntry s.arp ∧
    uniquePorts s.udp ∧ s.pend.pkt.length ≤ 65535

/-! A command's outcome. -/

/-- `s` with one more response record and nothing else changed. -/
def answered (s : State) (st : Status) (result : BitVec 64) : State :=
  { s with responses := s.responses ++ [⟨st, result⟩] }

/-- The frame the link layer builds from an event, on a block whose LOCAL_MAC is `mac`: destination, source and type, six,
six and two bytes, most significant first, then the payload (45_link.md R310). A DELIVER event has none. -/
def frameOf (mac : Hw) : Event → Option Bytes
  | .tx dst type payload => some (bytes48 dst ++ bytes48 mac ++ bytes16 type ++ payload)
  | .deliver _ _ _ _ => none

/-- `s` with the events `es` emitted, and their frames, and nothing else changed. -/
def emitted (s : State) (es : List Event) : State :=
  { s with events := s.events ++ es, frames := s.frames ++ es.filterMap (frameOf s.localMac) }

/-! Messages, by their fields. -/

/-- `m` is the 28-byte ARP message with these fields (30_encoding.md R121, R122). -/
def isArpMessage (m : Bytes) (op : Half) (sha : Hw) (spa : Ip) (tha : Hw) (tpa : Ip) : Prop :=
  m.length = 28 ∧ be16 m 0 = 0x0001 ∧ be16 m 2 = 0x0800 ∧ byteAt m 4 = 6 ∧ byteAt m 5 = 4 ∧ be16 m 6 = op ∧
    be48 m 8 = sha ∧ be32 m 14 = spa ∧ be48 m 18 = tha ∧ be32 m 24 = tpa

/-- `m` is long enough for an ARP message and has the fixed Ethernet/IPv4 profile (41_arp.md R188). -/
abbrev arpProfile (m : Bytes) : Prop :=
  28 ≤ m.length ∧ be16 m 0 = 0x0001 ∧ be16 m 2 = 0x0800 ∧ byteAt m 4 = 6 ∧ byteAt m 5 = 4

/-- `d` is an IPv4 datagram of the block: a 20-byte header with these fields, whose checksum field is the checksum of the header
with that field zero (40_checksum.md R164), so that the header checks to zero, and then the payload (30_encoding.md R124 to R126;
42_ip.md R223). `word` is the value of the flags and offset word. -/
def isDatagram (s : State) (d : Bytes) (dst : Ip) (proto : BitVec 8) (id : Half) (word : Nat) (payload : Bytes) : Prop :=
  d.length = 20 + payload.length ∧ byteAt d 0 = 0x45 ∧ byteAt d 1 = 0 ∧ (be16 d 2).toNat = d.length ∧ be16 d 4 = id ∧
    (be16 d 6).toNat = word ∧ byteAt d 8 = s.params.ipTtl ∧ byteAt d 9 = proto ∧ be32 d 12 = s.localIp ∧
    be32 d 16 = dst ∧ be16 d 10 = csum (putBytes (d.take 20) 10 [0, 0]) ∧ csum (d.take 20) = 0 ∧ d.drop 20 = payload

/-- `t` is `s` after a packet was handed to address resolution (41_arp.md R186): sent to the cached address, or held with a
request broadcast. -/
def resolved (s : State) (ip : Ip) (proto : Half) (pkt : Bytes) (t : State) : Prop :=
  (∃ hw, arpLookup s.arp ip = some hw ∧ t = emitted s [.tx hw proto pkt]) ∨
    (arpLookup s.arp ip = none ∧ ∃ m, isArpMessage m 1 s.localMac s.localIp 0 ip ∧
      t = emitted { s with pend := ⟨true, ip, proto, pkt⟩ } [.tx 0xFFFFFFFFFFFF 0x0806 m])

/-! IPv4 and UDP input, by the received bytes. -/

/-- The header length a datagram declares, in bytes (30_encoding.md R125). -/
def headerLen (w : Bytes) : Nat := 4 * ((byteAt w 0).toNat % 16)

/-- The datagram fails one of the checks of 42_ip.md R220. -/
abbrev ipRejects (localIp : Ip) (w : Bytes) : Prop :=
  w.length < 20 ∨ (byteAt w 0).toNat / 16 ≠ 4 ∨ (byteAt w 0).toNat % 16 < 5 ∨ w.length < headerLen w ∨
    (byteAt w 1).toNat % 2 = 1 ∨ 1500 < (be16 w 2).toNat ∨ csum (w.take (headerLen w)) ≠ 0 ∨ be32 w 16 ≠ localIp

/-- The datagram as dispatched: with IP_TRIM_PADDING cut to its total length, if that is shorter and at least the header
length (42_ip.md R221). -/
def trimmed (p : Params) (w : Bytes) : Bytes :=
  if p.ipTrimPadding = true ∧ (be16 w 2).toNat < w.length ∧ headerLen w ≤ (be16 w 2).toNat then
    w.take (be16 w 2).toNat
  else w

/-- The segment UDP input checks: a declared length below 18 cuts it (44_udp.md R282). -/
def udpCut (seg : Bytes) : Bytes := if (be16 seg 4).toNat < 18 then seg.take (be16 seg 4).toNat else seg

/-- The segment holds a header, declares at least 8 bytes, and its checksum field is the checksum of the pseudo-header and the
segment with that field zero (44_udp.md R280, R282). -/
abbrev udpVerifies (localIp src : Ip) (seg : Bytes) : Prop :=
  8 ≤ seg.length ∧ 8 ≤ (be16 seg 4).toNat ∧
    csum (bytes32 src ++ bytes32 localIp ++ [0x00, 17] ++ bytes16 (be16 seg 4) ++ putBytes (udpCut seg) 6 [0, 0]) =
      be16 seg 6

/-! Descriptors. -/

/-- The reserved opcodes, as 30_encoding.md R109 lists them. -/
abbrev reservedOpc (n : Nat) : Prop :=
  (0x01 ≤ n ∧ n ≤ 0x0F) ∨ (0x11 ≤ n ∧ n ≤ 0x1F) ∨ (0x26 ≤ n ∧ n ≤ 0x2F) ∨ (0x33 ≤ n ∧ n ≤ 0x3F) ∨
    (0x42 ≤ n ∧ n ≤ 0x4F) ∨ (0x55 ≤ n ∧ n ≤ 0x5F) ∨ (0x61 ≤ n ∧ n ≤ 0x6F) ∨ (0x72 ≤ n ∧ n ≤ 0xFF)

/-! What each command may write, from the 'State written' of its rule. -/

/-- The commands that write LOCAL_IP or LOCAL_MAC. -/
def writesAddress : Instr → Bool
  | .regWr _ _ => true
  | _ => false

/-- The commands that write the resolution cache. -/
def writesCache : Instr → Bool
  | .arpInit => true
  | .arpUpdate _ _ => true
  | .arpIn _ => true
  | .ethRx _ => true
  | _ => false

/-- The commands that write the UDP handler table. -/
def writesTable : Instr → Bool
  | .udpOpen _ _ => true
  | .udpClose _ => true
  | _ => false

/-- The commands that write FRAG_ID. -/
def writesFragId : Instr → Bool
  | .ipIn _ => true
  | .ipSend _ _ _ => true
  | .icmpIn _ _ => true
  | .icmpUnreach _ _ _ => true
  | .udpIn _ _ => true
  | .udpSend _ _ _ _ => true
  | .ethRx _ => true
  | .regWr _ _ => true
  | _ => false

/-- The commands that write the pending slot. -/
def writesPend : Instr → Bool
  | .arpResolve _ _ _ => true
  | .arpIn _ => true
  | .ipIn _ => true
  | .ipFrag _ _ _ _ _ _ => true
  | .ipSend _ _ _ => true
  | .icmpIn _ _ => true
  | .icmpUnreach _ _ _ => true
  | .udpIn _ _ => true
  | .udpSend _ _ _ _ => true
  | .ethRx _ => true
  | _ => false

/-- The commands that emit events. -/
def emitsEvents : Instr → Bool
  | .arpInit => true
  | .arpRequest _ => true
  | i => writesPend i

/-- The commands that read TIME_NOW (10_state.md R51). -/
def readsTime : Instr → Bool
  | .arpUpdate _ _ => true
  | .arpIn _ => true
  | .ethRx _ => true
  | _ => false

end Sys2Proof.Safety
end

