-- ==== Sys2Proof/Certificates/Slice0/Obligations.lean ====
section
/-! DEFINITION. The statements for the provers. -/

open Sys2Proof Sys2Proof.Machine Sys2Proof.Safety

/-! Encoding. -/

/-- Decoding the encoding of a well-formed command gives that command (30_encoding.md R100 to R108). -/
def Obligations.DecodeOfEncodeGivesTheCommandBack : Prop :=
  ∀ (p : Params) (i : Instr), i.wf p = true → decode p (encode i) = .ok i

/-- A command that decodes is the encoding of what it decodes to, and what it decodes to is well formed: no bit of a
descriptor is dropped (R101 to R108). -/
def Obligations.EncodeOfDecodeGivesTheDescriptorBack : Prop :=
  ∀ (p : Params) (c : Command) (i : Instr), decode p c = .ok i → encode i = c ∧ i.wf p = true

/-- The encoding examples of R118, word for word. -/
def Obligations.SpecExampleWordsEncodeAndDecode : Prop :=
  (encode (.arpUpdate 0xC0A80101 0x0200000000AA) = ⟨0x21000000, 0xC0A80101, 0x02000000, 0x00AA0000, []⟩ ∧
    decode Params.vectors ⟨0x21000000, 0xC0A80101, 0x02000000, 0x00AA0000, []⟩ =
      .ok (.arpUpdate 0xC0A80101 0x0200000000AA)) ∧
  ((∀ p : Bytes, encode (.ipFrag 0xC0A80101 17 0x1234 185 true p) = ⟨0x311180B9, 0xC0A80101, 0x00001234, 0, p⟩) ∧
    opcOf 0x311180B9 = 0x31 ∧ a8Of 0x311180B9 = 0x11 ∧ a16Of 0x311180B9 = 0x80B9 ∧
    (0x8000 ||| 185 : Nat) = 0x80B9 ∧
    decode Params.vectors ⟨0x311180B9, 0xC0A80101, 0x00001234, 0, [0xDE]⟩ =
      .ok (.ipFrag 0xC0A80101 17 0x1234 185 true [0xDE])) ∧
  (encode (.regWr 0x002 0x00010000) = ⟨0x71000002, 0x00010000, 0, 0, []⟩ ∧
    decode Params.vectors ⟨0x71000002, 0x00010000, 0, 0, []⟩ = .ok (.regWr 0x002 0x00010000))

/-- R109: exactly the 235 listed opcodes are reserved, and each raises ST_ILLEGAL with no effect. -/
def Obligations.ReservedOpcodesAreIllegal : Prop :=
  (∀ (p : Params) (c : Command),
    decode p c = .error .reservedOpcode ↔ reservedOpc (c.w0.toNat / 2 ^ 24)) ∧
  ((List.range 256).filter (fun n => decide (reservedOpc n))).length = 235 ∧
  ∀ (s : State) (c : Command) (now : Nat) (rest : List Input), s.inputs = .command c now :: rest →
    reservedOpc (c.w0.toNat / 2 ^ 24) →
    step s = .next (answered { s with inputs := rest, timeNow := now } .illegal 0)

/-- R108, R351, R352: for a descriptor whose opcode is a row of R107, the first of the four causes that applies is reported, in
their order, and the command changes nothing else. -/
def Obligations.RejectedDescriptorsReportTheFirstCause : Prop :=
  ∀ (s : State) (c : Command) (now : Nat) (rest : List Input) (r : Row), s.inputs = .command c now :: rest →
    r ∈ opcodeMap → r.opc = opcOf c.w0 →
    (c.w0 &&& r.format.mustBeZero ≠ 0 →
      decode s.params c = .error .reservedW0Bit ∧
        step s = .next (answered { s with inputs := rest, timeNow := now } .illegal 0)) ∧
    (c.w0 &&& r.format.mustBeZero = 0 →
      (c.w1 &&& r.w1Zero ≠ 0 ∨ c.w2 &&& r.w2Zero ≠ 0 ∨ c.w3 &&& r.w3Zero ≠ 0) →
      decode s.params c = .error .reservedOperandBit ∧
        step s = .next (answered { s with inputs := rest, timeNow := now } .illegal 0)) ∧
    (c.w0 &&& r.format.mustBeZero = 0 → c.w1 &&& r.w1Zero = 0 → c.w2 &&& r.w2Zero = 0 → c.w3 &&& r.w3Zero = 0 →
      r.pkt = false → c.pkt ≠ [] →
      decode s.params c = .error .packetNotTaken ∧
        step s = .next (answered { s with inputs := rest, timeNow := now } .illegal 0)) ∧
    (c.w0 &&& r.format.mustBeZero = 0 → c.w1 &&& r.w1Zero = 0 → c.w2 &&& r.w2Zero = 0 → c.w3 &&& r.w3Zero = 0 →
      r.pkt = true → s.params.maxPkt < c.pkt.length →
      decode s.params c = .error .packetTooLong ∧
        step s = .next (answered { s with inputs := rest, timeNow := now } .length 0)) ∧
    (c.w0 &&& r.format.mustBeZero = 0 → c.w1 &&& r.w1Zero = 0 → c.w2 &&& r.w2Zero = 0 → c.w3 &&& r.w3Zero = 0 →
      (if r.pkt then c.pkt.length ≤ s.params.maxPkt else c.pkt = []) →
      ∃ i, decode s.params c = .ok i)

/-! The step. -/

/-- A step whose next entry is a command that decodes executes exactly that command: it leaves the command port, TIME_NOW is
sampled, and exec runs (10_state.md R50, R51; 70_reset_and_hazards.md R385). That the commands to come and the sampled TIME_NOW
stand in the state is the model's choice (logs 2, 4). -/
def Obligations.StepRunsTheDecodedCommand : Prop :=
  ∀ (s : State) (c : Command) (now : Nat) (rest : List Input) (i : Instr),
    s.inputs = .command c now :: rest → decode s.params c = .ok i →
    step s = exec i { s with inputs := rest, timeNow := now }

/-- R58: when the reset input is asserted the state takes the values of the table, the parameters stay, and nothing is
emitted. -/
def Obligations.ResetInputClearsTheState : Prop :=
  ∀ (s : State) (rest : List Input), s.inputs = .reset :: rest →
    ∃ t, step s = .next t ∧ t.localIp = 0 ∧ t.localMac = 0 ∧ t.fragId = 0 ∧
      (∀ r ∈ ([0x000, 0x001, 0x002, 0x003, 0x004] : List Half), regRead t r = some 0) ∧
      t.arp = List.replicate s.params.arpCapacity ⟨.invalid, 0, 0, 0⟩ ∧
      t.pend = ⟨false, 0, 0, []⟩ ∧
      t.udp = List.replicate s.params.udpCapacity ⟨false, 0, 0⟩ ∧
      t.params = s.params ∧
      (∀ r ∈ ([0x010, 0x011, 0x012, 0x013, 0x014, 0x015] : List Half), regRead t r = regRead s r) ∧
      t.events = s.events ∧ t.frames = s.frames ∧ t.responses = s.responses ∧ t.inputs = rest

/-- The state after reset has the values of R58 on every instance and meets the table invariants. The instance's parameters in
State.reset, the empty command port and the TIME_NOW of 0 are the model's choices (logs 1, 2, 4); nothing here rests on
them. -/
def Obligations.ResetStateMeetsTheInvariants : Prop :=
  ∀ p : Params, Inv (State.resetWith p) ∧ (State.resetWith p).params = p ∧
    (∀ r ∈ ([0x000, 0x001, 0x002, 0x003, 0x004] : List Half), regRead (State.resetWith p) r = some 0) ∧
    (∀ e ∈ (State.resetWith p).arp, e = ⟨.invalid, 0, 0, 0⟩) ∧ (State.resetWith p).pend = ⟨false, 0, 0, []⟩ ∧
    (∀ u ∈ (State.resetWith p).udp, u = ⟨false, 0, 0⟩) ∧ (State.resetWith p).events = [] ∧
    (State.resetWith p).responses = [] ∧ State.reset = State.resetWith Params.vectors

/-- With nothing presented the block is idle and keeps its state (60_exceptions.md R362). -/
def Obligations.IdleBlockKeepsItsState : Prop := ∀ s : State, s.inputs = [] → step s = .next s

/-! Statements about every step. -/

/-- Every step keeps the table invariants and the parameters: the capacities (R41, R43, R45), no PENDING entry (R42), unique
ports (R46), a held packet of at most 65535 bytes (R44). That an instance is valid is rule R5 with log 11; that the tables are
lists is log 9. -/
def Obligations.EveryStepKeepsTheInvariants : Prop :=
  ∀ s t : State, s.params.Valid → Inv s → step s = .next t → Inv t ∧ t.params = s.params

/-- Every step answers a next state: no command reaches the model's one fault (log 8) or a refusal (R84, R356), and a command takes its place on the
port and ends with exactly one response record, whose result is 0 unless its status is ST_OK (R54, R350). -/
def Obligations.EveryStepGoesOn : Prop :=
  ∀ s : State, ∃ t, step s = .next t ∧
    (∀ c now rest, s.inputs = .command c now :: rest →
      t.inputs = rest ∧ t.timeNow = now ∧
        ∃ r, t.responses = s.responses ++ [r] ∧ (r.status ≠ .ok → r.result = 0)) ∧
    (∀ rest, s.inputs = .reset :: rest → t.inputs = rest ∧ t.responses = s.responses)

/-- R352: a command whose status is not ST_OK changes no state and emits no event, and its result is 0. -/
def Obligations.ErrorStatusHasNoEffect : Prop :=
  ∀ (s t : State) (c : Command) (now : Nat) (rest : List Input) (r : Response),
    s.inputs = .command c now :: rest → step s = .next t → t.responses = s.responses ++ [r] → r.status ≠ .ok →
    r.result = 0 ∧ t = { s with inputs := rest, timeNow := now, responses := s.responses ++ [r] }

/-- R86: what a step emits is appended to what was emitted before and does not depend on it. -/
def Obligations.OutputsAppendInIssueOrder : Prop :=
  ∀ (s t : State) (es : List Event) (fs : List Bytes) (rs : List Response), step s = .next t →
    s.events <+: t.events ∧
    step { s with events := es ++ s.events, frames := fs ++ s.frames, responses := rs ++ s.responses } =
      .next { t with events := es ++ t.events, frames := fs ++ t.frames, responses := rs ++ t.responses }

/-- The frames the model keeps beside the events, which is its choice (log 3: the block itself builds no link header), are those
of R310: each TX event of a command gives one frame, in order, with LOCAL_MAC as the source address, and a DELIVER event gives
none. -/
def Obligations.EachTxEventGivesItsFrame : Prop :=
  ∀ (i : Instr) (s t : State), exec i s = .next t →
    ∃ es, t.events = s.events ++ es ∧ t.frames = s.frames ++ es.filterMap (frameOf s.localMac)

/-- Which command may write which state (the 'State written' of every command's rule; R37, R57, R90). The parameters and the
input ports are written by none. -/
def Obligations.OnlyTheNamedCommandsWrite : Prop :=
  ∀ (i : Instr) (s t : State), exec i s = .next t →
    t.params = s.params ∧ t.timeNow = s.timeNow ∧ t.inputs = s.inputs ∧
    (writesAddress i = false → t.localIp = s.localIp ∧ t.localMac = s.localMac) ∧
    (writesCache i = false → t.arp = s.arp) ∧
    (writesTable i = false → t.udp = s.udp) ∧
    (writesFragId i = false → t.fragId = s.fragId) ∧
    (writesPend i = false → t.pend = s.pend) ∧
    (emitsEvents i = false → t.events = s.events ∧ t.frames = s.frames)

/-- R51, R358: only ARP_UPDATE, ARP_IN and ETH_RX read TIME_NOW. -/
def Obligations.TimeIsReadOnlyByCacheUpdates : Prop :=
  ∀ (i : Instr) (s t : State) (n : Nat), readsTime i = false → exec i s = .next t →
    exec i { s with timeNow := n } = .next { t with timeNow := n }

/-- R189: the pending slot's address is never compared with anything, so no command's outcome depends on it. -/
def Obligations.PendingAddressIsNeverRead : Prop :=
  ∀ (i : Instr) (s t : State) (ip : Ip), exec i s = .next t →
    ∃ ip', exec i { s with pend := { s.pend with ip := ip } } = .next { t with pend := { t.pend with ip := ip' } }

/-- R37, R225: but for REG_WR, a command leaves FRAG_ID or takes it to the next value mod 2^16, and each of IP_SEND,
ICMP_UNREACH and UDP_SEND that is not refused for its length draws exactly one identifier. -/
def Obligations.FragIdAdvancesByAtMostOne : Prop :=
  ∀ (i : Instr) (s t : State), exec i s = .next t →
    (writesAddress i = false → t.fragId = s.fragId ∨ t.fragId.toNat = (s.fragId.toNat + 1) % 2 ^ 16) ∧
    (∀ dst proto p, i = .ipSend dst proto p → t.fragId.toNat = (s.fragId.toNat + 1) % 2 ^ 16) ∧
    (∀ dst code p, i = .icmpUnreach dst code p → t.fragId.toNat = (s.fragId.toNat + 1) % 2 ^ 16) ∧
    (∀ sport dst dport p, i = .udpSend sport dst dport p → p.length ≤ 65527 →
      t.fragId.toNat = (s.fragId.toNat + 1) % 2 ^ 16)

/-- R46: no two valid slots hold the same port, after reset and after every step from a state in which that holds. -/
def Obligations.NoTwoSlotsHoldOnePort : Prop :=
  (∀ p : Params, uniquePorts (State.resetWith p).udp) ∧
  ∀ s t : State, uniquePorts s.udp → step s = .next t → uniquePorts t.udp

/-! Control and checksum. -/

/-- R330: NOP answers ST_OK with result 0 and changes nothing. -/
def Obligations.NopDoesNothing : Prop := ∀ s : State, exec .nop s = .next (answered s .ok 0)

/-- R73: NOP, REG_RD, ARP_LOOKUP, CSUM and UDP_PCSUM are idempotent: a repeat gives the same response, and neither changes
the state. -/
def Obligations.ReadingCommandsAreIdempotent : Prop :=
  ∀ (i : Instr) (s : State),
    (i = .nop ∨ (∃ r, i = .regRd r) ∨ (∃ ip, i = .arpLookup ip) ∨ (∃ p, i = .csum p) ∨
      (∃ src dst p, i = .udpPcsum src dst p)) →
    ∃ r : Response, exec i s = .next { s with responses := s.responses ++ [r] } ∧
      exec i { s with responses := s.responses ++ [r] } = .next { s with responses := s.responses ++ [r, r] }

/-- R160, R163: CSUM answers the one's complement of the one's-complement sum of the operand's big-endian words, a last odd byte
being a high byte; it changes nothing else. The sum is written out over the words, and the end-around carry in closed
form. -/
def Obligations.CsumAnswersTheOnesComplementSum : Prop :=
  ∀ (p : Bytes) (s : State), ∃ c : Half,
    exec (.csum p) s = .next (answered s .ok (c.setWidth 64)) ∧
    c.toNat =
      let w := ∑ k ∈ Finset.range ((p.length + 1) / 2),
        ((byteAt p (2 * k)).toNat * 256 + (byteAt p (2 * k + 1)).toNat)
      if w = 0 then 0xFFFF else 0xFFFE - (w - 1) % 0xFFFF

/-- R161: a string of odd length has the checksum of the string with one zero byte after it, and its last byte is the high byte
of the final word. -/
def Obligations.OddStringIsPaddedWithAZeroByte : Prop :=
  ∀ (b : Bytes) (a : Byte), b.length % 2 = 0 →
    csum (b ++ [a]) = csum (b ++ [a, 0]) ∧ wordSum (b ++ [a]) = wordSum b + a.toNat * 256

/-- R162, its four properties: empty and all-zero strings; when the folded sum is zero and when the checksum is; the
self-check; and that permuting words, or inserting zero words, changes nothing. -/
def Obligations.ChecksumProperties : Prop :=
  (csum [] = 0xFFFF ∧ ∀ n, csum (zeros n) = 0xFFFF) ∧
  (∀ b : Bytes, (foldSum (wordSum b) = 0 ↔ ∀ x ∈ b, x = 0) ∧ foldSum (wordSum b) ≤ 0xFFFF ∧
    (csum b = 0 ↔ foldSum (wordSum b) = 0xFFFF)) ∧
  (∀ (b : Bytes) (f : Nat), f % 2 = 0 → f + 2 ≤ b.length →
    csum (put16 (put16 b f 0) f (csum (put16 b f 0))) = 0) ∧
  (∀ (ws vs : List Half) (tail : Bytes), ws.Perm vs →
    csum (ws.flatMap bytes16 ++ tail) = csum (vs.flatMap bytes16 ++ tail)) ∧
  (∀ (ws vs : List Half) (tail : Bytes),
    csum ((ws ++ 0 :: vs).flatMap bytes16 ++ tail) = csum ((ws ++ vs).flatMap bytes16 ++ tail))

/-- R33 to R40, R331: what REG_RD answers for every register number. That the capacities and MAX_PKT fit 32 bits is part of a
valid instance (log 11). -/
def Obligations.RegisterReadsAnswerTheTable : Prop :=
  ∀ s : State, s.params.Valid →
    exec (.regRd 0x000) s = .next (answered s .ok (s.localIp.setWidth 64)) ∧
    exec (.regRd 0x001) s = .next (answered s .ok ((s.localMac >>> 16).setWidth 64)) ∧
    exec (.regRd 0x002) s = .next (answered s .ok (BitVec.ofNat 64 (s.localMac.toNat % 2 ^ 16 * 2 ^ 16))) ∧
    exec (.regRd 0x003) s = .next (answered s .ok (s.fragId.setWidth 64)) ∧
    exec (.regRd 0x004) s = .next (answered s .ok (if s.pend.valid then 1 else 0)) ∧
    exec (.regRd 0x010) s = .next (answered s .ok (BitVec.ofNat 64 s.params.arpCapacity)) ∧
    exec (.regRd 0x011) s = .next (answered s .ok (BitVec.ofNat 64 (s.params.arpTimeout % 2 ^ 32))) ∧
    exec (.regRd 0x012) s = .next (answered s .ok (BitVec.ofNat 64 s.params.udpCapacity)) ∧
    exec (.regRd 0x013) s = .next (answered s .ok (s.params.ipTtl.setWidth 64)) ∧
    exec (.regRd 0x014) s = .next (answered s .ok (BitVec.ofNat 64 s.params.maxPkt)) ∧
    exec (.regRd 0x015) s = .next (answered s .ok (if s.params.ipTrimPadding then 1 else 0)) ∧
    ∀ r : Half, r ∉ ([0x000, 0x001, 0x002, 0x003, 0x004, 0x010, 0x011, 0x012, 0x013, 0x014, 0x015] : List Half) →
      exec (.regRd r) s = .next (answered s .illegal 0)

/-- R33 to R39, R332: a write of a read-write register completes, is read back with its read-as-zero bits zero, leaves every
other register and all other state as they were; a write of any other number is ST_ILLEGAL with no effect. -/
def Obligations.RegisterWritesReadBack : Prop :=
  ∀ (s : State) (r : Half) (v mask : Word),
    ((r, mask) ∈ ([(0x000, 0xFFFFFFFF), (0x001, 0xFFFFFFFF), (0x002, 0xFFFF0000), (0x003, 0x0000FFFF)] :
        List (Half × Word)) →
      ∃ t, exec (.regWr r v) s = .next t ∧
        exec (.regRd r) t = .next (answered t .ok ((v &&& mask).setWidth 64)) ∧
        (∀ q : Half, q ≠ r → regRead t q = regRead s q) ∧
        t = { s with
              localIp := t.localIp, localMac := t.localMac, fragId := t.fragId,
              responses := s.responses ++ [⟨.ok, 0⟩] }) ∧
    (r ∉ ([0x000, 0x001, 0x002, 0x003] : List Half) → exec (.regWr r v) s = .next (answered s .illegal 0))

/-- R38: ENGINE_STATUS reads bit 0 as pend.valid and the other bits as zero, refuses every write, and is 0 after reset. -/
def Obligations.EngineStatusFollowsThePendingSlot : Prop :=
  (∀ s : State, regRead s 0x004 = some (BitVec.ofNat 32 s.pend.valid.toNat) ∧
    exec (.regRd 0x004) s = .next (answered s .ok (BitVec.ofNat 64 s.pend.valid.toNat))) ∧
  (∀ (s : State) (v : Word), exec (.regWr 0x004 v) s = .next (answered s .illegal 0)) ∧
  ∀ p : Params, regRead (State.resetWith p) 0x004 = some 0

/-! Address resolution. -/

/-- R182, R183: ARP_LOOKUP answers bit 48 and the hardware address of the first VALID entry with the address, or 0 where there
is none, and changes nothing. -/
def Obligations.ArpLookupAnswersTheFirstValidEntry : Prop :=
  ∀ (s : State) (ip : Ip),
    (∀ (k : Nat) (e : ArpEntry), s.arp[k]? = some e → e.state = .valid → e.ip = ip →
      (∀ (j : Nat) (d : ArpEntry), j < k → s.arp[j]? = some d → ¬(d.state = .valid ∧ d.ip = ip)) →
      exec (.arpLookup ip) s = .next (answered s .ok (BitVec.ofNat 64 (2 ^ 48 + e.hw.toNat)))) ∧
    ((∀ e ∈ s.arp, ¬(e.state = .valid ∧ e.ip = ip)) → exec (.arpLookup ip) s = .next (answered s .ok 0))

/-- R180, R181: ARP_UPDATE sweeps every entry older than ARP_TIMEOUT to INVALID, then overwrites exactly one slot: the first
INVALID one, or, where none is INVALID, the first with the smallest timestamp. Nothing else changes. -/
def Obligations.ArpUpdateSweepsThenOverwritesOneSlot : Prop :=
  ∀ (s : State) (ip : Ip) (hw : Hw), s.arp ≠ [] →
    ∃ (swept a : List ArpEntry) (i : Nat),
      exec (.arpUpdate ip hw) s = .next (answered { s with arp := a } .ok 0) ∧
      swept.length = s.arp.length ∧ a.length = s.arp.length ∧ i < s.arp.length ∧
      (∀ (k : Nat) (e : ArpEntry), s.arp[k]? = some e →
        swept[k]? = some (if (s.params.arpTimeout : Int) < (s.timeNow : Int) - (e.ts : Int) then
          { e with state := .invalid } else e)) ∧
      a[i]? = some ⟨.valid, ip, hw, s.timeNow⟩ ∧ (∀ k : Nat, k ≠ i → a[k]? = swept[k]?) ∧
      ((∃ e, swept[i]? = some e ∧ e.state = .invalid ∧
          ∀ (j : Nat) (d : ArpEntry), j < i → swept[j]? = some d → d.state ≠ .invalid) ∨
        ((∀ d ∈ swept, d.state ≠ .invalid) ∧
          ∃ e, swept[i]? = some e ∧ (∀ d ∈ swept, e.ts ≤ d.ts) ∧
            ∀ (j : Nat) (d : ArpEntry), j < i → swept[j]? = some d → e.ts < d.ts))

/-- R191, R312: an address that was not cached is found as soon as it is learned, with the address learned. -/
def Obligations.LearnedAddressIsFoundAtOnce : Prop :=
  ∀ (s : State) (ip : Ip) (hw : Hw), s.arp ≠ [] → (∀ e ∈ s.arp, ¬(e.state = .valid ∧ e.ip = ip)) →
    ∃ t, exec (.arpUpdate ip hw) s = .next t ∧
      exec (.arpLookup ip) t = .next (answered t .ok (BitVec.ofNat 64 (2 ^ 48 + hw.toNat)))

/-- R90, R191: an update expires what is older than ARP_TIMEOUT and only that. An address all of whose entries have expired is
no longer found after an update for another address; an entry that has not expired stays as it is in every slot but the one the
update overwrites, which is the slot `updateIndex` chooses in the swept cache and, unless the cache has no entry (log 9), holds
the new entry. -/
def Obligations.UpdateExpiresOldEntriesOnly : Prop :=
  ∀ (s : State) (ip : Ip) (hw : Hw),
    ∃ t, exec (.arpUpdate ip hw) s = .next t ∧
      (∀ other : Ip, other ≠ ip → (∀ e ∈ s.arp, e.ip = other → s.params.arpTimeout + e.ts < s.timeNow) →
        exec (.arpLookup other) t = .next (answered t .ok 0)) ∧
      let i := updateIndex (arpSweep s.params.arpTimeout s.timeNow s.arp)
      (s.arp ≠ [] → t.arp[i]? = some ⟨.valid, ip, hw, s.timeNow⟩) ∧
        ∀ (k : Nat) (e : ArpEntry), k ≠ i → s.arp[k]? = some e → s.timeNow ≤ s.params.arpTimeout + e.ts →
          t.arp[k]? = some e

/-- R184, R185: ARP_REQUEST broadcasts one 28-byte request with the local addresses and a zero target hardware address. -/
def Obligations.ArpRequestBroadcastsOneRequest : Prop :=
  ∀ (s : State) (ip : Ip), ∃ m, isArpMessage m 1 s.localMac s.localIp 0 ip ∧
    exec (.arpRequest ip) s = .next (answered (emitted s [.tx 0xFFFFFFFFFFFF 0x0806 m]) .ok 0)

/-- R193: ARP_INIT makes every entry INVALID and zero and broadcasts a request for LOCAL_IP; the pending slot, the handler table
and FRAG_ID stay. -/
def Obligations.ArpInitClearsTheCacheAndAnnounces : Prop :=
  ∀ s : State, ∃ m, isArpMessage m 1 s.localMac s.localIp 0 s.localIp ∧
    exec .arpInit s =
      .next (answered (emitted { s with arp := s.arp.map (fun _ => ⟨.invalid, 0, 0, 0⟩) }
        [.tx 0xFFFFFFFFFFFF 0x0806 m]) .ok 0)

/-- R186, R187: ARP_RESOLVE sends the packet to the cached address, or holds it, whatever the slot held, and broadcasts a
request. -/
def Obligations.ArpResolveSendsOrHolds : Prop :=
  ∀ (s : State) (ip : Ip) (proto : Half) (p : Bytes), ∃ t, resolved s ip proto p t ∧
    exec (.arpResolve ip proto p) s = .next (answered t .ok 0)

/-- R188 to R190: ARP_IN drops a message that is short or has the wrong profile; any other teaches the cache its sender as
ARP_UPDATE would, and then a reply drains an occupied slot to its sender, a request for LOCAL_IP is answered, and anything else
does nothing more. -/
def Obligations.ArpInLearnsThenActs : Prop :=
  ∀ (s : State) (m : Bytes),
    (¬arpProfile m → exec (.arpIn m) s = .next (answered s .ok 0)) ∧
    (arpProfile m → ∃ a, exec (.arpUpdate (be32 m 14) (be48 m 8)) s = .next (answered { s with arp := a } .ok 0) ∧
      (be16 m 6 = 2 ∧ s.pend.valid = true →
        exec (.arpIn m) s = .next (answered (emitted { s with arp := a, pend := ⟨false, 0, 0, []⟩ }
          [.tx (be48 m 8) s.pend.proto s.pend.pkt]) .ok 0)) ∧
      (be16 m 6 = 1 ∧ be32 m 24 = s.localIp →
        ∃ r, isArpMessage r 2 s.localMac s.localIp (be48 m 8) (be32 m 14) ∧
          exec (.arpIn m) s = .next (answered (emitted { s with arp := a } [.tx (be48 m 8) 0x0806 r]) .ok 0)) ∧
      (¬(be16 m 6 = 2 ∧ s.pend.valid = true) → ¬(be16 m 6 = 1 ∧ be32 m 24 = s.localIp) →
        exec (.arpIn m) s = .next (answered { s with arp := a } .ok 0)))

/-- R192: of two packets that miss before any reply, the next reply, from any sender, releases only the second, to that reply's
sender. -/
def Obligations.ReplyReleasesOnlyTheSecondMiss : Prop :=
  ∀ (s : State) (ip1 ip2 : Ip) (q1 q2 : Half) (p1 p2 m : Bytes),
    arpLookup s.arp ip1 = none → arpLookup s.arp ip2 = none → arpProfile m → be16 m 6 = 2 →
    ∃ t1 t2 t3 r1 r2, exec (.arpResolve ip1 q1 p1) s = .next t1 ∧ exec (.arpResolve ip2 q2 p2) t1 = .next t2 ∧
      exec (.arpIn m) t2 = .next t3 ∧
      isArpMessage r1 1 s.localMac s.localIp 0 ip1 ∧ isArpMessage r2 1 s.localMac s.localIp 0 ip2 ∧
      t3.events = s.events ++ [.tx 0xFFFFFFFFFFFF 0x0806 r1, .tx 0xFFFFFFFFFFFF 0x0806 r2, .tx (be48 m 8) q2 p2] ∧
      t3.pend = ⟨false, 0, 0, []⟩

/-! IPv4 output. -/

/-- R164, R223, R224: IP_FRAG hands the one datagram its operands describe, with the offset and MF as given and the header's
checksum inserted as computed, to address resolution for the destination, and leaves FRAG_ID; a payload above 65515 bytes is
ST_LENGTH with no effect. -/
def Obligations.IpFragSendsTheDescribedDatagram : Prop :=
  ∀ (s : State) (dst : Ip) (proto : BitVec 8) (id : Half) (off : BitVec 13) (mf : Bool) (p : Bytes),
    (65515 < p.length → exec (.ipFrag dst proto id off mf p) s = .next (answered s .length 0)) ∧
    (p.length ≤ 65515 → ∃ d t, isDatagram s d dst proto id ((if mf then 0x2000 else 0) + off.toNat) p ∧
      resolved s dst 0x0800 d t ∧ exec (.ipFrag dst proto id off mf p) s = .next (answered t .ok 0))

/-- R225 to R227, with the next hop cached: IP_SEND sends the payload as datagrams whose payloads, concatenated in emission
order, are the payload; the k-th starts at byte 1480 k, carries offset 185 k and MF unless it is the last; all carry the FRAG_ID
before the command and a header checksum inserted as computed (R164); all but the last are 1500 bytes long and none is longer; FRAG_ID is then
incremented. -/
def Obligations.IpSendFragmentsThePayload : Prop :=
  ∀ (s : State) (dst : Ip) (proto : BitVec 8) (p : Bytes) (hw : Hw), p.length ≤ 65535 →
    arpLookup s.arp dst = some hw →
    ∃ ds : List Bytes,
      exec (.ipSend dst proto p) s =
        .next (answered (emitted { s with fragId := s.fragId + 1 } (ds.map (.tx hw 0x0800 ·))) .ok 0) ∧
      ds.length = max 1 ((p.length + 1479) / 1480) ∧
      (ds.map (·.drop 20)).flatten = p ∧
      ∀ (k : Nat) (d : Bytes), ds[k]? = some d →
        isDatagram s d dst proto s.fragId ((if k + 1 < ds.length then 0x2000 else 0) + 185 * k)
            ((p.drop (1480 * k)).take 1480) ∧
          d.length ≤ 1500 ∧ (k + 1 < ds.length → d.length = 1500)

/-- R186, R225, R226, with the next hop not cached: every fragment broadcasts a request, the slot holds the last one, its header
checksum inserted as computed (R164), and FRAG_ID is incremented all the same. -/
def Obligations.IpSendThatMissesHoldsTheLastFragment : Prop :=
  ∀ (s : State) (dst : Ip) (proto : BitVec 8) (p : Bytes), p.length ≤ 65535 → arpLookup s.arp dst = none →
    ∃ n d m, n + 1 = max 1 ((p.length + 1479) / 1480) ∧ isArpMessage m 1 s.localMac s.localIp 0 dst ∧
      isDatagram s d dst proto s.fragId (185 * n) (p.drop (1480 * n)) ∧
      exec (.ipSend dst proto p) s =
        .next (answered (emitted { s with fragId := s.fragId + 1, pend := ⟨true, dst, 0x0800, d⟩ }
          (List.replicate (n + 1) (.tx 0xFFFFFFFFFFFF 0x0806 m))) .ok 0)

/-! IPv4 input. -/

/-- R220, R353: a datagram that fails any check is dropped: ST_OK, and nothing else changes. -/
def Obligations.IpInDropsWhatFailsACheck : Prop :=
  ∀ (s : State) (p : Bytes), ipRejects s.localIp p → exec (.ipIn p) s = .next (answered s .ok 0)

/-- R221, R222: an accepted datagram does what ICMP_IN does with its payload, what UDP_IN does with its payload when the
destination port is open, or, for any other protocol, what ICMP_UNREACH with code 2 does with the whole datagram. -/
def Obligations.IpInDispatchesByProtocol : Prop :=
  ∀ (s : State) (p : Bytes), ¬ipRejects s.localIp p →
    ∃ t, exec (.ipIn p) s = .next t ∧
      (byteAt p 9 = 1 → exec (.icmpIn (be32 p 12) ((trimmed s.params p).drop (headerLen p))) s = .next t) ∧
      (byteAt p 9 = 17 →
        (∃ u ∈ s.udp, u.valid = true ∧ u.port = be16 ((trimmed s.params p).drop (headerLen p)) 2) →
        exec (.udpIn (be32 p 12) ((trimmed s.params p).drop (headerLen p))) s = .next t) ∧
      (byteAt p 9 ≠ 1 → byteAt p 9 ≠ 17 → exec (.icmpUnreach (be32 p 12) 2 (trimmed s.params p)) s = .next t)

/-- R282, R288: an accepted UDP datagram for a closed port, whose segment verifies, is answered as ICMP_UNREACH with code 3
answers the datagram from the last 20 bytes of its header on: with a 20-byte header, its header and the first 8 bytes of its
payload, as received. One whose segment does not verify is dropped. -/
def Obligations.ClosedPortEmbedsTheReceivedHeader : Prop :=
  ∀ (s : State) (p : Bytes), ¬ipRejects s.localIp p → byteAt p 9 = 17 →
    (∀ u ∈ s.udp, u.valid = true → u.port ≠ be16 ((trimmed s.params p).drop (headerLen p)) 2) →
    (udpVerifies s.localIp (be32 p 12) ((trimmed s.params p).drop (headerLen p)) →
      ∃ t, exec (.ipIn p) s = .next t ∧
        exec (.icmpUnreach (be32 p 12) 3 ((trimmed s.params p).drop (headerLen p - 20))) s = .next t ∧
        (headerLen p = 20 → exec (.icmpUnreach (be32 p 12) 3 (p.take 28)) s = .next t)) ∧
    (¬udpVerifies s.localIp (be32 p 12) ((trimmed s.params p).drop (headerLen p)) →
      exec (.ipIn p) s = .next (answered s .ok 0))

/-! ICMP. -/

/-- R264 and the procedure it derives from: an echo request is answered with a reply of the same length, identifier, sequence and
payload, whose checksum field is the checksum of the reply with that field zero (R164) and which checks to zero, sent by IP_SEND
with protocol 1 to the source; any other message is ignored. -/
def Obligations.EchoReplyMirrorsTheRequest : Prop :=
  ∀ (s : State) (src : Ip) (m : Bytes),
    (8 ≤ m.length ∧ byteAt m 0 = 8 ∧ byteAt m 1 = 0 →
      ∃ r t, exec (.icmpIn src m) s = .next t ∧ exec (.ipSend src 1 r) s = .next t ∧ csum r = 0 ∧
        be16 r 2 = csum (putBytes r 2 [0, 0]) ∧ r.length = m.length ∧ byteAt r 0 = 0 ∧ byteAt r 1 = 0 ∧ be16 r 4 = be16 m 4 ∧ be16 r 6 = be16 m 6 ∧
        r.drop 8 = m.drop 8) ∧
    (¬(8 ≤ m.length ∧ byteAt m 0 = 8 ∧ byteAt m 1 = 0) → exec (.icmpIn src m) s = .next (answered s .ok 0))

/-- R130, R262, R263: ICMP_UNREACH sends, by IP_SEND with protocol 1, a 36-byte message of type 3 and the given code, whose
checksum field is the checksum of the message with that field zero (R164) and which checks to zero, with four zero bytes and the
datagram's first 28 bytes, zero-filled. -/
def Obligations.UnreachableEmbedsTwentyEightBytes : Prop :=
  ∀ (s : State) (dst : Ip) (code : BitVec 8) (d : Bytes),
    ∃ u t, exec (.icmpUnreach dst code d) s = .next t ∧ exec (.ipSend dst 1 u) s = .next t ∧
      u.length = 36 ∧ byteAt u 0 = 3 ∧ byteAt u 1 = code ∧ be32 u 4 = 0 ∧ u.drop 8 = (d ++ zeros 28).take 28 ∧
      be16 u 2 = csum (putBytes u 2 [0, 0]) ∧ csum u = 0

/-! UDP. -/

/-- R280, R281: UDP_PCSUM answers the checksum of the pseudo-header, with the length the segment declares, and the whole segment;
a segment below 8 bytes is ST_LENGTH. Nothing else changes. -/
def Obligations.UdpPcsumCoversThePseudoHeader : Prop :=
  ∀ (s : State) (src dst : Ip) (p : Bytes),
    (p.length < 8 → exec (.udpPcsum src dst p) s = .next (answered s .length 0)) ∧
    (8 ≤ p.length → exec (.udpPcsum src dst p) s =
      .next (answered s .ok
        ((csum (bytes32 src ++ bytes32 dst ++ [0x00, 17, byteAt p 4, byteAt p 5] ++ p)).setWidth 64)))

/-- R284, R285: UDP_SEND sends, by IP_SEND with protocol 17, the payload behind a header with the ports, the segment's length and
the checksum of the pseudo-header and the segment with its checksum field zero, inserted as computed (R164);
UDP_PCSUM of the segment, from LOCAL_IP to the destination, is 0. A payload above 65527 bytes is ST_LENGTH with no effect. -/
def Obligations.UdpSendBuildsAVerifyingSegment : Prop :=
  ∀ (s : State) (sport : Half) (dst : Ip) (dport : Half) (p : Bytes),
    (65527 < p.length → exec (.udpSend sport dst dport p) s = .next (answered s .length 0)) ∧
    (p.length ≤ 65527 →
      ∃ seg t, exec (.udpSend sport dst dport p) s = .next t ∧ exec (.ipSend dst 17 seg) s = .next t ∧
        be16 seg 0 = sport ∧ be16 seg 2 = dport ∧ (be16 seg 4).toNat = 8 + p.length ∧ seg.drop 8 = p ∧
        be16 seg 6 = csum (bytes32 s.localIp ++ bytes32 dst ++ [0x00, 17] ++ bytes16 (be16 seg 4) ++
          putBytes seg 6 [0, 0]) ∧
        exec (.udpPcsum s.localIp dst seg) s = .next (answered s .ok 0))

/-- R282, R283: UDP_IN drops a segment that does not verify; delivers a verified one to the handler of its open port, with the
bytes after the header of the segment as cut; and answers one for a closed port as ICMP_UNREACH with code 3 answers 20 zero bytes
and the segment. -/
def Obligations.UdpInVerifiesThenDispatches : Prop :=
  ∀ (s : State) (src : Ip) (p : Bytes),
    (¬udpVerifies s.localIp src p → exec (.udpIn src p) s = .next (answered s .ok 0)) ∧
    (udpVerifies s.localIp src p →
      (∀ u ∈ s.udp, uniquePorts s.udp → u.valid = true → u.port = be16 p 2 →
        exec (.udpIn src p) s =
          .next (answered (emitted s [.deliver u.handler src (be16 p 0) ((udpCut p).drop 8)]) .ok 0)) ∧
      ((∀ u ∈ s.udp, u.valid = true → u.port ≠ be16 p 2) →
        ∃ t, exec (.udpIn src p) s = .next t ∧ exec (.icmpUnreach src 3 (zeros 20 ++ p)) s = .next t))

/-- R286: UDP_OPEN replaces the handler of a registered port, takes the lowest free slot for a new one, and is ST_FAIL with no
effect when the port is new and the table is full. -/
def Obligations.UdpOpenReplacesInsertsOrFails : Prop :=
  ∀ (s : State) (port : Half) (handler : Word),
    (∀ (j : Nat) (u : UdpSlot), uniquePorts s.udp → s.udp[j]? = some u → u.valid = true → u.port = port →
      exec (.udpOpen port handler) s =
        .next (answered { s with udp := s.udp.set j ⟨true, port, handler⟩ } .ok 0)) ∧
    ((∀ u ∈ s.udp, u.valid = true → u.port ≠ port) →
      (∀ (j : Nat) (u : UdpSlot), s.udp[j]? = some u → u.valid = false → (∀ (k : Nat) (v : UdpSlot), k < j → s.udp[k]? = some v → v.valid = true) →
        exec (.udpOpen port handler) s =
          .next (answered { s with udp := s.udp.set j ⟨true, port, handler⟩ } .ok 0)) ∧
      ((∀ u ∈ s.udp, u.valid = true) → exec (.udpOpen port handler) s = .next (answered s .fail 0)))

/-- R287: UDP_CLOSE frees the slot of a registered port, after which no slot holds the port, and does nothing, without error, for
a port that is not registered. -/
def Obligations.UdpCloseFreesTheSlot : Prop :=
  ∀ (s : State) (port : Half),
    (∀ (j : Nat) (u : UdpSlot), uniquePorts s.udp → s.udp[j]? = some u → u.valid = true → u.port = port →
      exec (.udpClose port) s = .next (answered { s with udp := s.udp.set j ⟨false, 0, 0⟩ } .ok 0) ∧
        ∀ v ∈ s.udp.set j ⟨false, 0, 0⟩, v.valid = true → v.port ≠ port) ∧
    ((∀ u ∈ s.udp, u.valid = true → u.port ≠ port) → exec (.udpClose port) s = .next (answered s .ok 0))

/-- From UDP_SEND on one block to DELIVER on another (R223, R284 on the way out; R220, R221, R282 on the way in): a payload of at
most 1472 bytes sent to a cached address leaves as one datagram, and the block whose LOCAL_IP is the destination, given that
datagram by IP_IN, delivers exactly the payload, with the sender's address and port, to the handler of the open port, and does
nothing else. -/
def Obligations.SentPayloadIsDelivered : Prop :=
  ∀ (a b : State) (sport : Half) (dst : Ip) (dport : Half) (p : Bytes) (hw : Hw) (u : UdpSlot),
    p.length ≤ 1472 → arpLookup a.arp dst = some hw → b.localIp = dst → uniquePorts b.udp →
    u ∈ b.udp → u.valid = true → u.port = dport →
    ∃ d, exec (.udpSend sport dst dport p) a =
        .next (answered (emitted { a with fragId := a.fragId + 1 } [.tx hw 0x0800 d]) .ok 0) ∧
      exec (.ipIn d) b =
        .next (answered (emitted b [.deliver u.handler a.localIp sport p]) .ok 0)

/-! The link. -/

/-- R311, R312: ETH_RX drops a short frame and one of an unknown type; gives the payload of an ARP frame to ARP_IN; and, of an
IPv4 frame, learns the source from a payload of at least 20 bytes as ARP_UPDATE would, whatever IP input then does with it, and
gives the payload to IP_IN. The link header in front of the payload is never seen. -/
def Obligations.EthRxRoutesByType : Prop :=
  ∀ (s : State) (f : Bytes),
    (f.length < 14 ∨ (be16 f 12 ≠ 0x0806 ∧ be16 f 12 ≠ 0x0800) → exec (.ethRx f) s = .next (answered s .ok 0)) ∧
    (14 ≤ f.length → be16 f 12 = 0x0806 →
      ∃ t, exec (.ethRx f) s = .next t ∧ exec (.arpIn (f.drop 14)) s = .next t) ∧
    (14 ≤ f.length → be16 f 12 = 0x0800 →
      ∃ a t, (34 ≤ f.length →
          exec (.arpUpdate (be32 f 26) (be48 f 6)) s = .next (answered { s with arp := a } .ok 0)) ∧
        (f.length < 34 → a = s.arp) ∧
        exec (.ethRx f) s = .next t ∧ exec (.ipIn (f.drop 14)) { s with arp := a } = .next t)

/-! Boot. -/

/-- R117, R382: the expansion of BOOT, run on any state, leaves the two addresses loaded, every cache entry INVALID and one
announcement request for the new address emitted with the new addresses. -/
def Obligations.BootLoadsTheAddressesAndAnnounces : Prop :=
  ∀ (s : State) (ip : Ip) (hw : Hw), ∃ i1 i2 i3 i4 t1 t2 t3 t4 m, bootInstrs ip hw = [i1, i2, i3, i4] ∧
    exec i1 s = .next t1 ∧ exec i2 t1 = .next t2 ∧ exec i3 t2 = .next t3 ∧ exec i4 t3 = .next t4 ∧
    t4.localIp = ip ∧ t4.localMac = hw ∧ (∀ e ∈ t4.arp, e.state = .invalid) ∧
    isArpMessage m 1 hw ip 0 ip ∧ t4.events = s.events ++ [.tx 0xFFFFFFFFFFFF 0x0806 m] ∧
    t4.pend = s.pend ∧ t4.udp = s.udp ∧ t4.fragId = s.fragId
end

