-- ==== Sys2Proof/Laws/Bytes.lean ====
section
/-! SUPPORT. Byte order: the reads and writes of multi-byte fields agree (00_scope.md R9). -/

namespace Sys2Proof.Laws

open Sys2Proof Sys2Proof.Machine

@[simp] theorem length_bytes16 (v : Half) : (bytes16 v).length = 2 := rfl
@[simp] theorem length_bytes32 (v : Word) : (bytes32 v).length = 4 := rfl
@[simp] theorem length_bytes48 (v : Hw) : (bytes48 v).length = 6 := rfl
@[simp] theorem length_zeros (n : Nat) : (zeros n).length = n := by simp [zeros]

/-! Reading one byte. -/

@[simp] theorem byteAt_cons_zero (a : Byte) (l : Bytes) : byteAt (a :: l) 0 = a := rfl
@[simp] theorem byteAt_cons_succ (a : Byte) (l : Bytes) (n : Nat) : byteAt (a :: l) (n + 1) = byteAt l n := rfl

theorem byteAt_append_left (a b : Bytes) (o : Nat) (h : o < a.length) : byteAt (a ++ b) o = byteAt a o := by
  simp [byteAt, List.getElem?_append_left h]

theorem byteAt_append_right (a b : Bytes) (o : Nat) (h : a.length ≤ o) :
    byteAt (a ++ b) o = byteAt b (o - a.length) := by
  simp [byteAt, List.getElem?_append_right h]

@[simp] theorem byteAt_drop (a : Bytes) (n o : Nat) : byteAt (a.drop n) o = byteAt a (n + o) := by
  simp [byteAt]

theorem byteAt_take (a : Bytes) (n o : Nat) (h : o < n) : byteAt (a.take n) o = byteAt a o := by
  simp [byteAt, List.getElem?_take_of_lt h]

/-- Past the end a byte string reads 0. -/
theorem byteAt_of_length_le (a : Bytes) (o : Nat) (h : a.length ≤ o) : byteAt a o = 0 := by
  simp [byteAt, List.getElem?_eq_none h]

/-! Reading a field inside a part of a byte string. -/

theorem be16_append_right (a b : Bytes) (o : Nat) (h : a.length ≤ o) : be16 (a ++ b) o = be16 b (o - a.length) := by
  simp [be16, byteAt_append_right a b o h, byteAt_append_right a b (o + 1) (by omega),
    show o + 1 - a.length = o - a.length + 1 by omega]

theorem be16_append_left (a b : Bytes) (o : Nat) (h : o + 1 < a.length) : be16 (a ++ b) o = be16 a o := by
  simp [be16, byteAt_append_left a b o (by omega), byteAt_append_left a b (o + 1) h]

@[simp] theorem be16_drop (a : Bytes) (n o : Nat) : be16 (a.drop n) o = be16 a (n + o) := by
  simp [be16, Nat.add_assoc]

@[simp] theorem be32_drop (a : Bytes) (n o : Nat) : be32 (a.drop n) o = be32 a (n + o) := by
  simp [be32, Nat.add_assoc]

@[simp] theorem be48_drop (a : Bytes) (n o : Nat) : be48 (a.drop n) o = be48 a (n + o) := by
  simp [be48, Nat.add_assoc]

/-! A field read where it was written. -/

theorem half_split (v : Half) : (v.extractLsb' 8 8 ++ v.extractLsb' 0 8 : Half) = v := by
  apply BitVec.eq_of_getLsbD_eq
  intro i hi
  rw [BitVec.getLsbD_append]
  split
  · simp [*]
  · rw [BitVec.getLsbD_extractLsb']
    simp only [show i - 8 < 8 by omega, decide_true, Bool.true_and]
    congr 1
    omega

@[simp] theorem be16_bytes16 (v : Half) (l : Bytes) : be16 (bytes16 v ++ l) 0 = v := half_split v

@[simp] theorem be16_bytes16_nil (v : Half) : be16 (bytes16 v) 0 = v := half_split v

theorem word_split (v : Word) :
    ((v.extractLsb' 24 8 ++ v.extractLsb' 16 8 : Half) ++ (v.extractLsb' 8 8 ++ v.extractLsb' 0 8 : Half) : Word) = v := by
  apply BitVec.eq_of_getLsbD_eq
  intro i hi
  simp only [BitVec.getLsbD_append, BitVec.getLsbD_extractLsb']
  split
  · split
    · simp [*]
    · simp only [show i - 8 < 8 by omega, decide_true, Bool.true_and]
      congr 1
      omega
  · split
    · simp only [show i - 16 < 8 by omega, decide_true, Bool.true_and]
      congr 1
      omega
    · simp only [show i - 16 - 8 < 8 by omega, decide_true, Bool.true_and]
      congr 1
      omega

@[simp] theorem be32_bytes32 (v : Word) (l : Bytes) : be32 (bytes32 v ++ l) 0 = v := word_split v

@[simp] theorem be32_bytes32_nil (v : Word) : be32 (bytes32 v) 0 = v := word_split v

theorem hw_split (v : Hw) :
    ((v.extractLsb' 40 8 ++ v.extractLsb' 32 8 : Half) ++
      ((v.extractLsb' 24 8 ++ v.extractLsb' 16 8 : Half) ++ (v.extractLsb' 8 8 ++ v.extractLsb' 0 8 : Half) : Word) : Hw) =
      v := by
  apply BitVec.eq_of_getLsbD_eq
  intro i hi
  simp only [BitVec.getLsbD_append, BitVec.getLsbD_extractLsb']
  repeat' split
  all_goals first
    | (simp only [show i < 8 by omega, decide_true, Bool.true_and]; congr 1; omega)
    | (simp only [show i - 8 < 8 by omega, decide_true, Bool.true_and]; congr 1; omega)
    | (simp only [show i - 16 < 8 by omega, decide_true, Bool.true_and]; congr 1; omega)
    | (simp only [show i - 16 - 8 < 8 by omega, decide_true, Bool.true_and]; congr 1; omega)
    | (simp only [show i - 32 < 8 by omega, decide_true, Bool.true_and]; congr 1; omega)
    | (simp only [show i - 32 - 8 < 8 by omega, decide_true, Bool.true_and]; congr 1; omega)

@[simp] theorem be48_bytes48 (v : Hw) (l : Bytes) : be48 (bytes48 v ++ l) 0 = v := hw_split v

@[simp] theorem be48_bytes48_nil (v : Hw) : be48 (bytes48 v) 0 = v := hw_split v

/-- The two bytes on the wire of a value just read are the bytes it was read from. -/
theorem bytes16_append (a b : Byte) : bytes16 (a ++ b) = [a, b] := by
  have h1 : (a ++ b : Half).extractLsb' 8 8 = a := by
    apply BitVec.eq_of_getLsbD_eq
    intro i hi
    rw [BitVec.getLsbD_extractLsb', BitVec.getLsbD_append]
    simp [hi]
  have h0 : (a ++ b : Half).extractLsb' 0 8 = b := by
    apply BitVec.eq_of_getLsbD_eq
    intro i hi
    rw [BitVec.getLsbD_extractLsb', BitVec.getLsbD_append]
    simp [hi]
  simp [bytes16, h1, h0]

/-- The value of two bytes is `B[o]*256 + B[o+1]` (R9). -/
theorem be16_toNat (b : Bytes) (o : Nat) : (be16 b o).toNat = (byteAt b o).toNat * 256 + (byteAt b (o + 1)).toNat := by
  have h := (byteAt b (o + 1)).isLt
  simp only [be16, BitVec.toNat_append]
  rw [← Nat.shiftLeft_add_eq_or_of_lt h, Nat.shiftLeft_eq]

/-! Overwriting bytes. -/

@[simp] theorem length_putBytes (b v : Bytes) (o : Nat) (h : o + v.length ≤ b.length) :
    (putBytes b o v).length = b.length := by
  simp only [putBytes, List.length_append, List.length_take, List.length_drop]
  omega

@[simp] theorem length_put16 (b : Bytes) (o : Nat) (v : Half) (h : o + 2 ≤ b.length) :
    (put16 b o v).length = b.length := length_putBytes b _ o (by simpa using h)

/-- Overwriting a whole prefix leaves the new bytes in front of the rest. -/
theorem putBytes_zero (b v : Bytes) : putBytes b 0 v = v ++ b.drop v.length := by simp [putBytes]

/-- A byte after an overwrite: the new one inside the overwritten range, the old one outside it. -/
theorem byteAt_putBytes (b v : Bytes) (o k : Nat) (h : o + v.length ≤ b.length) :
    byteAt (putBytes b o v) k = if o ≤ k ∧ k < o + v.length then byteAt v (k - o) else byteAt b k := by
  have hlen : (b.take o).length = o := by simp only [List.length_take]; omega
  simp only [putBytes, List.append_assoc]
  by_cases h1 : k < o
  · rw [byteAt_append_left _ _ _ (by omega), byteAt_take _ _ _ h1, if_neg (by omega)]
  · rw [byteAt_append_right _ _ _ (by omega), hlen]
    by_cases h2 : k < o + v.length
    · rw [byteAt_append_left _ _ _ (by omega), if_pos (by omega)]
    · rw [byteAt_append_right _ _ _ (by omega), byteAt_drop, if_neg (by omega)]
      congr 1
      omega

/-- The two bytes a read takes at `o`, written back, change nothing. -/
theorem put16_be16 (b : Bytes) (o : Nat) (h : o + 2 ≤ b.length) : put16 b o (be16 b o) = b := by
  rw [put16, be16, bytes16_append]
  have h0 : byteAt b o = b[o]'(by omega) := by simp [byteAt, List.getElem?_eq_getElem (show o < b.length by omega)]
  have h1 : byteAt b (o + 1) = b[o + 1]'(by omega) := by
    simp [byteAt, List.getElem?_eq_getElem (show o + 1 < b.length by omega)]
  rw [putBytes, h0, h1]
  conv_rhs => rw [← List.take_append_drop o b, List.drop_eq_getElem_cons (show o < b.length by omega),
    List.drop_eq_getElem_cons (show o + 1 < b.length by omega)]
  simp

/-- A value written and read back at the same offset. -/
theorem be16_put16 (b : Bytes) (o : Nat) (v : Half) (h : o + 2 ≤ b.length) : be16 (put16 b o v) o = v := by
  have hb : ∀ k, k < 2 → byteAt (put16 b o v) (o + k) = byteAt (bytes16 v) k := by
    intro k hk
    rw [put16, byteAt_putBytes _ _ _ _ (by simpa using h), length_bytes16, if_pos (by omega), Nat.add_sub_cancel_left]
  have h0 := hb 0 (by omega)
  rw [Nat.add_zero] at h0
  rw [be16, h0, hb 1 (by omega)]
  exact be16_bytes16_nil v

/-- The later of two overwrites of the same range counts. -/
theorem putBytes_putBytes (b v w : Bytes) (o : Nat) (hv : v.length = w.length) (h : o + v.length ≤ b.length) :
    putBytes (putBytes b o v) o w = putBytes b o w := by
  have hlen : (b.take o).length = o := by simp only [List.length_take]; omega
  have ht : (b.take o ++ v ++ b.drop (o + v.length)).take o = b.take o := by
    rw [List.append_assoc, List.take_append_of_le_length (by omega), List.take_of_length_le (by omega)]
  have hd : (b.take o ++ v ++ b.drop (o + v.length)).drop (o + w.length) = b.drop (o + w.length) := by
    rw [List.drop_append, List.drop_of_length_le (by simp only [List.length_append]; omega)]
    simp only [List.length_append, hlen, hv, List.nil_append, Nat.sub_self, List.drop_zero]
  simp only [putBytes, ht, hd]

end Sys2Proof.Laws
end

