-- ==== Sys2Proof/Laws/State.lean ====
section
/-! SUPPORT. The fields of State under each of the operations that update it: one lemma per field per update, true by
rfl. -/

namespace Sys2Proof.Laws

open Sys2Proof Sys2Proof.Machine

/-! `respond`. -/

@[simp] theorem respond_params (s : State) (st : Status) (r : BitVec 64) : (respond s st r).params = s.params := rfl
@[simp] theorem respond_localIp (s : State) (st : Status) (r : BitVec 64) : (respond s st r).localIp = s.localIp := rfl
@[simp] theorem respond_localMac (s : State) (st : Status) (r : BitVec 64) : (respond s st r).localMac = s.localMac := rfl
@[simp] theorem respond_fragId (s : State) (st : Status) (r : BitVec 64) : (respond s st r).fragId = s.fragId := rfl
@[simp] theorem respond_arp (s : State) (st : Status) (r : BitVec 64) : (respond s st r).arp = s.arp := rfl
@[simp] theorem respond_pend (s : State) (st : Status) (r : BitVec 64) : (respond s st r).pend = s.pend := rfl
@[simp] theorem respond_udp (s : State) (st : Status) (r : BitVec 64) : (respond s st r).udp = s.udp := rfl
@[simp] theorem respond_timeNow (s : State) (st : Status) (r : BitVec 64) : (respond s st r).timeNow = s.timeNow := rfl
@[simp] theorem respond_inputs (s : State) (st : Status) (r : BitVec 64) : (respond s st r).inputs = s.inputs := rfl
@[simp] theorem respond_events (s : State) (st : Status) (r : BitVec 64) : (respond s st r).events = s.events := rfl
@[simp] theorem respond_frames (s : State) (st : Status) (r : BitVec 64) : (respond s st r).frames = s.frames := rfl
@[simp] theorem respond_responses (s : State) (st : Status) (r : BitVec 64) : (respond s st r).responses = s.responses ++ [mkResponse st r] := rfl

/-! `emitTx`. -/

@[simp] theorem emitTx_params (s : State) (d : Hw) (ty : Half) (p : Bytes) : (emitTx s d ty p).params = s.params := rfl
@[simp] theorem emitTx_localIp (s : State) (d : Hw) (ty : Half) (p : Bytes) : (emitTx s d ty p).localIp = s.localIp := rfl
@[simp] theorem emitTx_localMac (s : State) (d : Hw) (ty : Half) (p : Bytes) : (emitTx s d ty p).localMac = s.localMac := rfl
@[simp] theorem emitTx_fragId (s : State) (d : Hw) (ty : Half) (p : Bytes) : (emitTx s d ty p).fragId = s.fragId := rfl
@[simp] theorem emitTx_arp (s : State) (d : Hw) (ty : Half) (p : Bytes) : (emitTx s d ty p).arp = s.arp := rfl
@[simp] theorem emitTx_pend (s : State) (d : Hw) (ty : Half) (p : Bytes) : (emitTx s d ty p).pend = s.pend := rfl
@[simp] theorem emitTx_udp (s : State) (d : Hw) (ty : Half) (p : Bytes) : (emitTx s d ty p).udp = s.udp := rfl
@[simp] theorem emitTx_timeNow (s : State) (d : Hw) (ty : Half) (p : Bytes) : (emitTx s d ty p).timeNow = s.timeNow := rfl
@[simp] theorem emitTx_inputs (s : State) (d : Hw) (ty : Half) (p : Bytes) : (emitTx s d ty p).inputs = s.inputs := rfl
@[simp] theorem emitTx_events (s : State) (d : Hw) (ty : Half) (p : Bytes) : (emitTx s d ty p).events = s.events ++ [.tx d ty p] := rfl
@[simp] theorem emitTx_frames (s : State) (d : Hw) (ty : Half) (p : Bytes) : (emitTx s d ty p).frames = s.frames ++ [linkFrame s.localMac d ty p] := rfl
@[simp] theorem emitTx_responses (s : State) (d : Hw) (ty : Half) (p : Bytes) : (emitTx s d ty p).responses = s.responses := rfl

/-! `emitDeliver`. -/

@[simp] theorem emitDeliver_params (s : State) (h : Word) (src : Ip) (sp : Half) (p : Bytes) : (emitDeliver s h src sp p).params = s.params := rfl
@[simp] theorem emitDeliver_localIp (s : State) (h : Word) (src : Ip) (sp : Half) (p : Bytes) : (emitDeliver s h src sp p).localIp = s.localIp := rfl
@[simp] theorem emitDeliver_localMac (s : State) (h : Word) (src : Ip) (sp : Half) (p : Bytes) : (emitDeliver s h src sp p).localMac = s.localMac := rfl
@[simp] theorem emitDeliver_fragId (s : State) (h : Word) (src : Ip) (sp : Half) (p : Bytes) : (emitDeliver s h src sp p).fragId = s.fragId := rfl
@[simp] theorem emitDeliver_arp (s : State) (h : Word) (src : Ip) (sp : Half) (p : Bytes) : (emitDeliver s h src sp p).arp = s.arp := rfl
@[simp] theorem emitDeliver_pend (s : State) (h : Word) (src : Ip) (sp : Half) (p : Bytes) : (emitDeliver s h src sp p).pend = s.pend := rfl
@[simp] theorem emitDeliver_udp (s : State) (h : Word) (src : Ip) (sp : Half) (p : Bytes) : (emitDeliver s h src sp p).udp = s.udp := rfl
@[simp] theorem emitDeliver_timeNow (s : State) (h : Word) (src : Ip) (sp : Half) (p : Bytes) : (emitDeliver s h src sp p).timeNow = s.timeNow := rfl
@[simp] theorem emitDeliver_inputs (s : State) (h : Word) (src : Ip) (sp : Half) (p : Bytes) : (emitDeliver s h src sp p).inputs = s.inputs := rfl
@[simp] theorem emitDeliver_events (s : State) (h : Word) (src : Ip) (sp : Half) (p : Bytes) : (emitDeliver s h src sp p).events = s.events ++ [.deliver h src sp p] := rfl
@[simp] theorem emitDeliver_frames (s : State) (h : Word) (src : Ip) (sp : Half) (p : Bytes) : (emitDeliver s h src sp p).frames = s.frames := rfl
@[simp] theorem emitDeliver_responses (s : State) (h : Word) (src : Ip) (sp : Half) (p : Bytes) : (emitDeliver s h src sp p).responses = s.responses := rfl

/-! `acceptCommand`. -/

@[simp] theorem acceptCommand_params (now : Nat) (rest : List Input) (s : State) : (acceptCommand now rest s).params = s.params := rfl
@[simp] theorem acceptCommand_localIp (now : Nat) (rest : List Input) (s : State) : (acceptCommand now rest s).localIp = s.localIp := rfl
@[simp] theorem acceptCommand_localMac (now : Nat) (rest : List Input) (s : State) : (acceptCommand now rest s).localMac = s.localMac := rfl
@[simp] theorem acceptCommand_fragId (now : Nat) (rest : List Input) (s : State) : (acceptCommand now rest s).fragId = s.fragId := rfl
@[simp] theorem acceptCommand_arp (now : Nat) (rest : List Input) (s : State) : (acceptCommand now rest s).arp = s.arp := rfl
@[simp] theorem acceptCommand_pend (now : Nat) (rest : List Input) (s : State) : (acceptCommand now rest s).pend = s.pend := rfl
@[simp] theorem acceptCommand_udp (now : Nat) (rest : List Input) (s : State) : (acceptCommand now rest s).udp = s.udp := rfl
@[simp] theorem acceptCommand_timeNow (now : Nat) (rest : List Input) (s : State) : (acceptCommand now rest s).timeNow = now := rfl
@[simp] theorem acceptCommand_inputs (now : Nat) (rest : List Input) (s : State) : (acceptCommand now rest s).inputs = rest := rfl
@[simp] theorem acceptCommand_events (now : Nat) (rest : List Input) (s : State) : (acceptCommand now rest s).events = s.events := rfl
@[simp] theorem acceptCommand_frames (now : Nat) (rest : List Input) (s : State) : (acceptCommand now rest s).frames = s.frames := rfl
@[simp] theorem acceptCommand_responses (now : Nat) (rest : List Input) (s : State) : (acceptCommand now rest s).responses = s.responses := rfl

/-! `applyReset`. -/

@[simp] theorem applyReset_params (s : State) : (applyReset s).params = s.params := rfl
@[simp] theorem applyReset_localIp (s : State) : (applyReset s).localIp = 0 := rfl
@[simp] theorem applyReset_localMac (s : State) : (applyReset s).localMac = 0 := rfl
@[simp] theorem applyReset_fragId (s : State) : (applyReset s).fragId = 0 := rfl
@[simp] theorem applyReset_arp (s : State) : (applyReset s).arp = List.replicate s.params.arpCapacity ArpEntry.empty := rfl
@[simp] theorem applyReset_pend (s : State) : (applyReset s).pend = Pend.empty := rfl
@[simp] theorem applyReset_udp (s : State) : (applyReset s).udp = List.replicate s.params.udpCapacity UdpSlot.empty := rfl
@[simp] theorem applyReset_timeNow (s : State) : (applyReset s).timeNow = s.timeNow := rfl
@[simp] theorem applyReset_inputs (s : State) : (applyReset s).inputs = s.inputs := rfl
@[simp] theorem applyReset_events (s : State) : (applyReset s).events = s.events := rfl
@[simp] theorem applyReset_frames (s : State) : (applyReset s).frames = s.frames := rfl
@[simp] theorem applyReset_responses (s : State) : (applyReset s).responses = s.responses := rfl

/-! `arpUpdate` and `arpRequest`. -/

@[simp] theorem arpUpdate_params (s : State) (ip : Ip) (hw : Hw) : (arpUpdate s ip hw).params = s.params := rfl
@[simp] theorem arpUpdate_localIp (s : State) (ip : Ip) (hw : Hw) : (arpUpdate s ip hw).localIp = s.localIp := rfl
@[simp] theorem arpUpdate_localMac (s : State) (ip : Ip) (hw : Hw) : (arpUpdate s ip hw).localMac = s.localMac := rfl
@[simp] theorem arpUpdate_fragId (s : State) (ip : Ip) (hw : Hw) : (arpUpdate s ip hw).fragId = s.fragId := rfl
theorem arpUpdate_arp (s : State) (ip : Ip) (hw : Hw) :
    (arpUpdate s ip hw).arp =
      (arpSweep s.params.arpTimeout s.timeNow s.arp).set
        (updateIndex (arpSweep s.params.arpTimeout s.timeNow s.arp)) ⟨.valid, ip, hw, s.timeNow⟩ := rfl
@[simp] theorem arpUpdate_pend (s : State) (ip : Ip) (hw : Hw) : (arpUpdate s ip hw).pend = s.pend := rfl
@[simp] theorem arpUpdate_udp (s : State) (ip : Ip) (hw : Hw) : (arpUpdate s ip hw).udp = s.udp := rfl
@[simp] theorem arpUpdate_timeNow (s : State) (ip : Ip) (hw : Hw) : (arpUpdate s ip hw).timeNow = s.timeNow := rfl
@[simp] theorem arpUpdate_inputs (s : State) (ip : Ip) (hw : Hw) : (arpUpdate s ip hw).inputs = s.inputs := rfl
@[simp] theorem arpUpdate_events (s : State) (ip : Ip) (hw : Hw) : (arpUpdate s ip hw).events = s.events := rfl
@[simp] theorem arpUpdate_frames (s : State) (ip : Ip) (hw : Hw) : (arpUpdate s ip hw).frames = s.frames := rfl
@[simp] theorem arpUpdate_responses (s : State) (ip : Ip) (hw : Hw) : (arpUpdate s ip hw).responses = s.responses := rfl
@[simp] theorem arpRequest_params (s : State) (ip : Ip) :
    (arpRequest s ip).params = s.params := rfl
@[simp] theorem arpRequest_localIp (s : State) (ip : Ip) :
    (arpRequest s ip).localIp = s.localIp := rfl
@[simp] theorem arpRequest_localMac (s : State) (ip : Ip) :
    (arpRequest s ip).localMac = s.localMac := rfl
@[simp] theorem arpRequest_fragId (s : State) (ip : Ip) :
    (arpRequest s ip).fragId = s.fragId := rfl
@[simp] theorem arpRequest_arp (s : State) (ip : Ip) :
    (arpRequest s ip).arp = s.arp := rfl
@[simp] theorem arpRequest_pend (s : State) (ip : Ip) :
    (arpRequest s ip).pend = s.pend := rfl
@[simp] theorem arpRequest_udp (s : State) (ip : Ip) :
    (arpRequest s ip).udp = s.udp := rfl
@[simp] theorem arpRequest_timeNow (s : State) (ip : Ip) :
    (arpRequest s ip).timeNow = s.timeNow := rfl
@[simp] theorem arpRequest_inputs (s : State) (ip : Ip) :
    (arpRequest s ip).inputs = s.inputs := rfl
@[simp] theorem arpRequest_events (s : State) (ip : Ip) :
    (arpRequest s ip).events = s.events ++ [.tx hwBroadcast ethTypeArp (arpMsg s arpOpRequest 0 ip)] := rfl
@[simp] theorem arpRequest_frames (s : State) (ip : Ip) :
    (arpRequest s ip).frames = s.frames ++ [linkFrame s.localMac hwBroadcast ethTypeArp (arpMsg s arpOpRequest 0 ip)] := rfl
@[simp] theorem arpRequest_responses (s : State) (ip : Ip) :
    (arpRequest s ip).responses = s.responses := rfl

/-! A response record. -/

@[simp] theorem mkResponse_status (st : Status) (r : BitVec 64) : (mkResponse st r).status = st := rfl

@[simp] theorem mkResponse_ok (r : BitVec 64) : mkResponse .ok r = ⟨.ok, r⟩ := rfl

/-- A result of zero is recorded with any status. -/
@[simp] theorem mkResponse_zero (st : Status) : mkResponse st 0 = ⟨st, 0⟩ := by cases st <;> rfl

/-- The result is zero whenever the status is not ST_OK (R54). -/
theorem mkResponse_result_of_ne_ok (st : Status) (r : BitVec 64) (h : st ≠ .ok) : (mkResponse st r).result = 0 := by
  simp [mkResponse, h]

/-! The outcomes. -/

/-- `raise` answers a next state that differs from the old one by one response record (R352). -/
@[simp] theorem raise_eq (st : Status) (s : State) : raise st s = .next (respond s st 0) := rfl

@[simp] theorem complete_ok (s : State) : complete (.ok s) = .next (respond s .ok 0) := rfl

@[simp] theorem complete_error (f : Fault) : complete (.error f) = .fault f := rfl

/-- A completed procedure answers its state with one more response record, ST_OK and result 0. -/
theorem complete_eq_next {r : Except Fault State} {t : State} (h : complete r = .next t) :
    ∃ u, r = .ok u ∧ t = respond u .ok 0 := by
  cases r with
  | ok u => exact ⟨u, rfl, by simpa using h.symm⟩
  | error f => simp at h

/-! The step. -/

/-- With nothing presented the block is idle (R362). -/
theorem step_idle (s : State) (h : s.inputs = []) : step s = .next s := by simp [step, h]

/-- A reset assertion (R380). -/
theorem step_reset (s : State) (rest : List Input) (h : s.inputs = .reset :: rest) :
    step s = .next (applyReset { s with inputs := rest }) := by simp [step, h]

/-- A command that decodes runs; one that does not is refused with its status. -/
theorem step_command (s : State) (c : Command) (now : Nat) (rest : List Input) (h : s.inputs = .command c now :: rest) :
    step s = match decode s.params c with
      | .ok i => exec i (acceptCommand now rest s)
      | .error e => raise (decodeStatus e) (acceptCommand now rest s) := by
  simp only [step, h]
  all_goals (cases decode s.params c <;> rfl)

end Sys2Proof.Laws
end

