-- ==== Sys2Proof/Laws/Arp.lean ====
section
/-! SUPPORT. The Address Resolution engine: what each shared operation can do. -/

namespace Sys2Proof.Laws

open Sys2Proof Sys2Proof.Machine

/-! The sweep (R180, step 1). -/

@[simp] theorem length_arpSweep (timeout now : Nat) (t : List ArpEntry) : (arpSweep timeout now t).length = t.length := by
  simp [arpSweep]

/-- The sweep changes an entry's state alone, and only to INVALID. -/
theorem sweepEntry_cases (timeout now : Nat) (e : ArpEntry) :
    (timeout + e.ts < now ∧ sweepEntry timeout now e = { e with state := .invalid }) ∨
      (now ≤ timeout + e.ts ∧ sweepEntry timeout now e = e) := by
  by_cases h : timeout + e.ts < now
  · exact .inl ⟨h, by simp only [sweepEntry, expired, decide_eq_true_eq]; rw [if_pos (by omega)]⟩
  · exact .inr ⟨by omega, by simp only [sweepEntry, expired, decide_eq_true_eq]; rw [if_neg (by omega)]⟩

@[simp] theorem sweepEntry_ts (timeout now : Nat) (e : ArpEntry) : (sweepEntry timeout now e).ts = e.ts := by
  rcases sweepEntry_cases timeout now e with ⟨_, h⟩ | ⟨_, h⟩ <;> simp [h]

@[simp] theorem sweepEntry_ip (timeout now : Nat) (e : ArpEntry) : (sweepEntry timeout now e).ip = e.ip := by
  rcases sweepEntry_cases timeout now e with ⟨_, h⟩ | ⟨_, h⟩ <;> simp [h]

@[simp] theorem sweepEntry_hw (timeout now : Nat) (e : ArpEntry) : (sweepEntry timeout now e).hw = e.hw := by
  rcases sweepEntry_cases timeout now e with ⟨_, h⟩ | ⟨_, h⟩ <;> simp [h]

/-! The slot an update takes (R180, steps 2 and 3). -/

/-- The smallest timestamp is a lower bound. -/
theorem minTs_le (t : List ArpEntry) (e : ArpEntry) (h : e ∈ t) : minTs t ≤ e.ts := by
  induction t using minTs.induct with
  | case1 => simp at h
  | case2 a => simp only [List.mem_singleton] at h; simp [minTs, h]
  | case3 a rest hr ih =>
    rcases List.mem_cons.1 h with rfl | h
    · cases rest with
      | nil => simp at hr
      | cons b l => simp [minTs]
    · have := ih h
      cases rest with
      | nil => simp at hr
      | cons b l => simp only [minTs] at this ⊢; omega

/-- Some entry of a non-empty cache has the smallest timestamp. -/
theorem exists_minTs (t : List ArpEntry) (h : t ≠ []) : ∃ e ∈ t, e.ts = minTs t := by
  induction t using minTs.induct with
  | case1 => exact absurd rfl h
  | case2 a => exact ⟨a, by simp, by simp [minTs]⟩
  | case3 a rest hr ih =>
    cases rest with
    | nil => simp at hr
    | cons b l =>
      obtain ⟨e, he, hm⟩ := ih (by simp)
      by_cases hle : a.ts ≤ minTs (b :: l)
      · exact ⟨a, by simp, by simp only [minTs] at hle ⊢; omega⟩
      · exact ⟨e, List.mem_cons_of_mem _ he, by simp only [minTs] at hm hle ⊢; omega⟩

/-- The oldest entry's index lies inside a non-empty cache. -/
theorem oldestIndex_lt (t : List ArpEntry) (h : t ≠ []) : oldestIndex t < t.length := by
  obtain ⟨e, he, hm⟩ := exists_minTs t h
  exact List.findIdx_lt_length_of_exists ⟨e, he, by simp [hm]⟩

/-- What the choice of a slot can be: the first INVALID entry, or, where there is none, the first of the smallest
timestamp. -/
theorem updateIndex_cases (t : List ArpEntry) :
    (t.findIdx? (fun e => e.state == .invalid) = some (updateIndex t)) ∨
      ((∀ e ∈ t, e.state ≠ .invalid) ∧ updateIndex t = oldestIndex t) := by
  unfold updateIndex
  cases h : t.findIdx? (fun e => e.state == .invalid) with
  | some i => exact .inl rfl
  | none =>
    refine .inr ⟨fun e he => ?_, rfl⟩
    rw [List.findIdx?_eq_none_iff] at h
    simpa using h e he

/-- An update overwrites a slot of a non-empty cache. -/
theorem updateIndex_lt (t : List ArpEntry) (h : t ≠ []) : updateIndex t < t.length := by
  rcases updateIndex_cases t with hi | ⟨_, hi⟩
  · exact (List.findIdx?_eq_some_iff_findIdx_eq.1 hi).1
  · exact hi ▸ oldestIndex_lt t h

@[simp] theorem length_arpUpdate (s : State) (ip : Ip) (hw : Hw) : (arpUpdate s ip hw).arp.length = s.arp.length := by
  simp [arpUpdate_arp]

/-- What an update leaves in each slot: the new entry in the slot it takes, the swept old one in every other. -/
theorem getElem?_arpUpdate (s : State) (ip : Ip) (hw : Hw) (k : Nat) :
    (arpUpdate s ip hw).arp[k]? =
      if updateIndex (arpSweep s.params.arpTimeout s.timeNow s.arp) = k then
        (if k < s.arp.length then some ⟨.valid, ip, hw, s.timeNow⟩ else none)
      else (s.arp[k]?).map (sweepEntry s.params.arpTimeout s.timeNow) := by
  rw [arpUpdate_arp, List.getElem?_set]
  split
  · simp only [length_arpSweep]
    subst_vars
    rfl
  · simp [arpSweep]

/-! The lookup (R182). -/

/-- A hit is an entry of the cache that is VALID and has the address. -/
theorem arpLookup_eq_some (t : List ArpEntry) (ip : Ip) (hw : Hw) (h : arpLookup t ip = some hw) :
    ∃ e ∈ t, e.state = .valid ∧ e.ip = ip ∧ e.hw = hw := by
  simp only [arpLookup, Option.map_eq_some_iff] at h
  obtain ⟨e, he, rfl⟩ := h
  have hp := List.find?_some he
  simp only [Bool.and_eq_true, beq_iff_eq] at hp
  exact ⟨e, List.mem_of_find?_eq_some he, hp.1, hp.2, rfl⟩

/-- A miss: no entry is VALID and has the address. -/
theorem arpLookup_eq_none (t : List ArpEntry) (ip : Ip) :
    arpLookup t ip = none ↔ ∀ e ∈ t, e.state = .valid → e.ip ≠ ip := by
  simp [arpLookup]

/-! The message (R184). -/

@[simp] theorem length_arpMsg (s : State) (op : Half) (tha : Hw) (tpa : Ip) : (arpMsg s op tha tpa).length = 28 := rfl

/-! What each procedure can do. -/

/-- R186: the packet goes out at once, or it is held and a request is broadcast. -/
theorem arpResolveSend_cases (s : State) (pkt : Bytes) (ip : Ip) (proto : Half) :
    (∃ hw, arpLookup s.arp ip = some hw ∧ arpResolveSend s pkt ip proto = emitTx s hw proto pkt) ∨
      (arpLookup s.arp ip = none ∧
        arpResolveSend s pkt ip proto = arpRequest { s with pend := ⟨true, ip, proto, pkt⟩ } ip) := by
  unfold arpResolveSend
  cases h : arpLookup s.arp ip with
  | some hw => exact .inl ⟨hw, rfl, rfl⟩
  | none => exact .inr ⟨rfl, rfl⟩

/-- R188, R189: what an inbound message can do. -/
theorem arpIn_cases (s : State) (m : Bytes) :
    (arpAccepts m = false ∧ arpIn s m = s) ∨
      (arpAccepts m = true ∧ be16 m 6 = 2 ∧ s.pend.valid = true ∧
        arpIn s m = { emitTx (arpUpdate s (be32 m 14) (be48 m 8)) (be48 m 8) s.pend.proto s.pend.pkt with pend := Pend.empty }) ∨
      (arpAccepts m = true ∧ be16 m 6 = 1 ∧ be32 m 24 = s.localIp ∧
        arpIn s m = emitTx (arpUpdate s (be32 m 14) (be48 m 8)) (be48 m 8) ethTypeArp
          (arpMsg s arpOpReply (be48 m 8) (be32 m 14))) ∨
      (arpAccepts m = true ∧ (be16 m 6 = 2 → s.pend.valid = false) ∧ (be16 m 6 = 1 → be32 m 24 ≠ s.localIp) ∧
        arpIn s m = arpUpdate s (be32 m 14) (be48 m 8)) := by
  unfold arpIn
  cases ha : arpAccepts m with
  | false => exact .inl ⟨rfl, rfl⟩
  | true =>
    refine .inr ?_
    rw [if_pos rfl]
    by_cases h2 : be16 m 6 = arpOpReply
    · simp only
      rw [if_pos h2, arpReply]
      by_cases hv : s.pend.valid = true
      · exact .inl ⟨trivial, h2, hv, by rw [if_pos (by simpa using hv)]; rfl⟩
      · refine .inr (.inr ⟨trivial, fun _ => by simpa using hv, fun h => ?_, by rw [if_neg (by simpa using hv)]⟩)
        exact absurd (h2.symm.trans h) (by decide)
    · simp only
      rw [if_neg h2]
      by_cases h1 : be16 m 6 = arpOpRequest
      · rw [if_pos h1, arpAnswer]
        by_cases ht : be32 m 24 = s.localIp
        · exact .inr (.inl ⟨trivial, h1, ht, by rw [if_pos (by simpa using ht)]; rfl⟩)
        · exact .inr (.inr ⟨trivial, fun h => absurd h h2, fun _ => ht, by rw [if_neg (by simpa using ht)]⟩)
      · rw [if_neg h1]
        exact .inr (.inr ⟨trivial, fun h => absurd h h2, fun h => absurd h h1, rfl⟩)

end Sys2Proof.Laws
end

