-- ==== Sys2Proof/Laws/Buffer.lean ====
section
/-! SUPPORT. The working buffer (20_memory.md R78 to R84): what each primitive does to the window and to the store's byte
at every offset from the window's start. -/

namespace Sys2Proof.Laws

open Sys2Proof Sys2Proof.Machine

theorem bufByte_ofNat (b : Buf) (n : Nat) : bufByte b (n : Int) = (b.win ++ b.back).getD n 0 := rfl

theorem bufByte_negSucc (b : Buf) (n : Nat) : bufByte b (Int.negSucc n) = b.front.getD n 0 := rfl

/-- R79: in front of a loaded packet the store reads 0x00. -/
@[simp] theorem bufByte_load_front (p : Bytes) (n : Nat) : bufByte (load p) (Int.negSucc n) = 0 := rfl

/-- R79: a loaded packet stands in the store as it is. -/
@[simp] theorem bufByte_load (p : Bytes) (n : Nat) : bufByte (load p) (n : Int) = byteAt p n := by
  simp [bufByte_ofNat, load, byteAt]

@[simp] theorem load_win (p : Bytes) : (load p).win = p := rfl
@[simp] theorem load_front (p : Bytes) : (load p).front = [] := rfl
@[simp] theorem load_back (p : Bytes) : (load p).back = [] := rfl
@[simp] theorem bufLen_load (p : Bytes) : bufLen (load p) = p.length := rfl

@[simp] theorem length_frontBytes (b : Buf) (n : Nat) : (frontBytes b n).length = n := by
  simp only [frontBytes, List.length_reverse, List.length_take, List.length_append, length_zeros]
  omega

/-- The bytes in front of the window, in store order: the k-th of n lies n - k offsets before the window. -/
theorem getD_frontBytes (b : Buf) (n k : Nat) (h : k < n) : (frontBytes b n).getD k 0 = b.front.getD (n - 1 - k) 0 := by
  have hl : ((b.front ++ zeros n).take n).length = n := by
    simp only [List.length_take, List.length_append, length_zeros]; omega
  simp only [frontBytes, List.getD_eq_getElem?_getD]
  rw [List.getElem?_reverse (by omega), hl, List.getElem?_take_of_lt (by omega)]
  by_cases hf : n - 1 - k < b.front.length
  · rw [List.getElem?_append_left hf]
  · rw [List.getElem?_append_right (by omega), List.getElem?_eq_none (l := b.front) (by omega)]
    simp only [zeros, List.getElem?_replicate, Option.getD_none]
    split <;> rfl

@[simp] theorem addHeader_win (b : Buf) (n : Nat) : (addHeader b n).win = frontBytes b n ++ b.win := rfl

/-- R80: add_header makes the window n bytes longer. -/
@[simp] theorem bufLen_addHeader (b : Buf) (n : Nat) : bufLen (addHeader b n) = n + bufLen b := by
  simp [bufLen]

/-- R80: add_header changes no byte of the store; the window's start moves n offsets to the front. -/
theorem bufByte_addHeader (b : Buf) (n : Nat) (k : Int) : bufByte (addHeader b n) k = bufByte b (k - n) := by
  cases k with
  | ofNat m =>
    by_cases h : m < n
    · have hk : (Int.ofNat m - (n : Int)) = Int.negSucc (n - 1 - m) := by
        rw [Int.ofNat_eq_natCast]; omega
      rw [hk, bufByte_negSucc, ← getD_frontBytes b n m h, bufByte]
      simp [addHeader, List.getD_eq_getElem?_getD, List.getElem?_append_left, h]
    · have hk : (Int.ofNat m - (n : Int)) = Int.ofNat (m - n) := by
        rw [Int.ofNat_eq_natCast, Int.ofNat_eq_natCast]; omega
      rw [hk]
      simp [bufByte, addHeader, List.getD_eq_getElem?_getD, List.getElem?_append_right, Nat.le_of_not_lt h]
  | negSucc m =>
    have hk : (Int.negSucc m - (n : Int)) = Int.negSucc (n + m) := by omega
    rw [hk]
    simp [bufByte, addHeader]

/-- R81: within its precondition remove_header shortens the window from the front. -/
theorem removeHeader_of_le (b : Buf) (n : Nat) (h : n ≤ bufLen b) :
    removeHeader b n = .ok ⟨(b.win.take n).reverse ++ b.front, b.win.drop n, b.back⟩ := by simp [removeHeader, h]

/-- What remove_header can do: it answers the shorter window, or its precondition failed. -/
theorem removeHeader_cases (b : Buf) (n : Nat) :
    (n ≤ bufLen b ∧ removeHeader b n = .ok ⟨(b.win.take n).reverse ++ b.front, b.win.drop n, b.back⟩) ∨
      (bufLen b < n ∧ removeHeader b n = .error .bufferUnderflow) := by
  by_cases h : n ≤ bufLen b
  · exact .inl ⟨h, removeHeader_of_le b n h⟩
  · exact .inr ⟨by omega, by simp [removeHeader, h]⟩

/-- R81: remove_header changes no byte of the store; the window's start moves n offsets on. -/
theorem bufByte_removeHeader (b c : Buf) (n : Nat) (h : removeHeader b n = .ok c) (k : Int) :
    bufByte c k = bufByte b (k + n) := by
  rcases removeHeader_cases b n with ⟨hn, hc⟩ | ⟨_, hc⟩
  · rw [hc] at h
    cases h
    simp only [bufLen] at hn
    have hl : (b.win.take n).length = n := by simp only [List.length_take]; omega
    cases k with
    | ofNat m =>
      rw [show Int.ofNat m + (n : Int) = Int.ofNat (n + m) by simp only [Int.ofNat_eq_natCast]; omega]
      simp only [bufByte, List.getD_eq_getElem?_getD]
      rw [show b.win.drop n ++ b.back = (b.win ++ b.back).drop n by rw [List.drop_append_of_le_length hn]]
      rw [List.getElem?_drop]
    | negSucc m =>
      by_cases hm : m < n
      · rw [show Int.negSucc m + (n : Int) = Int.ofNat (n - 1 - m) by
          rw [Int.ofNat_eq_natCast]; omega]
        simp only [bufByte, List.getD_eq_getElem?_getD]
        rw [List.getElem?_append_left (by simp only [List.length_reverse, hl]; exact hm),
          List.getElem?_reverse (by omega), hl, List.getElem?_take_of_lt (by omega),
          List.getElem?_append_left (by omega)]
      · rw [show Int.negSucc m + (n : Int) = Int.negSucc (m - n) by omega]
        simp only [bufByte, List.getD_eq_getElem?_getD]
        rw [List.getElem?_append_right (by simp only [List.length_reverse, hl]; omega)]
        simp only [List.length_reverse, hl]
  · rw [hc] at h
    cases h

/-- R82: within its precondition truncate cuts the window's end. -/
theorem truncate_of_le (b : Buf) (n : Nat) (h : n ≤ bufLen b) :
    truncate b n = .ok ⟨b.front, b.win.take n, b.win.drop n ++ b.back⟩ := by simp [truncate, h]

/-- R82: truncate changes no byte of the store and does not move the window's start. -/
theorem bufByte_truncate (b c : Buf) (n : Nat) (h : truncate b n = .ok c) (k : Int) : bufByte c k = bufByte b k := by
  simp only [truncate] at h
  split at h
  · cases h
    cases k <;> simp [bufByte, ← List.append_assoc]
  · cases h

@[simp] theorem memWrite_win (b : Buf) (o : Nat) (v : Bytes) : (memWrite b o v).win = putBytes b.win o v := rfl
@[simp] theorem memWrite_front (b : Buf) (o : Nat) (v : Bytes) : (memWrite b o v).front = b.front := rfl
@[simp] theorem memWrite_back (b : Buf) (o : Nat) (v : Bytes) : (memWrite b o v).back = b.back := rfl

/-- R80: a header all of whose bytes are written stands in front of the window. -/
@[simp] theorem pushHeader_win (b : Buf) (h : Bytes) : (pushHeader b h).win = h ++ b.win := by
  simp [pushHeader, putBytes_zero]

@[simp] theorem pushHeader_back (b : Buf) (h : Bytes) : (pushHeader b h).back = b.back := rfl
@[simp] theorem pushHeader_front (b : Buf) (h : Bytes) : (pushHeader b h).front = b.front.drop h.length := rfl

/-- Removing a prefix and re-attaching as many bytes shows the prefix again (R81: the removed bytes stay in the store). -/
theorem addHeader_removeHeader_win (b c : Buf) (n : Nat) (h : removeHeader b n = .ok c) :
    (addHeader c n).win = b.win := by
  rcases removeHeader_cases b n with ⟨hn, hc⟩ | ⟨_, hc⟩
  · rw [hc] at h
    cases h
    simp only [bufLen] at hn
    have hl : (b.win.take n).reverse.length = n := by simp only [List.length_reverse, List.length_take]; omega
    simp only [addHeader_win, frontBytes, List.append_assoc]
    rw [List.take_append_of_le_length (by omega), List.take_of_length_le (by omega), List.reverse_reverse,
      List.take_append_drop]
  · rw [hc] at h
    cases h

/-- The bytes in front of the window once the last `n` of them are written over with `v`. -/
def restoreFront (b : Buf) (v : Bytes) : Buf := { b with front := v.reverse ++ b.front.drop v.length }

/-- D22: putting a header in front of the window, removing it and writing back the bytes that stood there leaves the window
and every byte of the store as they were. So the value udp_pseudo_checksum works on is its caller's buffer unchanged
(44_udp.md R280, R288). -/
theorem bufByte_restoreFront (b c : Buf) (h : Bytes) (hc : removeHeader (pushHeader b h) h.length = .ok c) :
    (restoreFront c (frontBytes b h.length)).win = b.win ∧
      ∀ k, bufByte (restoreFront c (frontBytes b h.length)) k = bufByte b k := by
  rw [removeHeader_of_le _ _ (by simp [bufLen])] at hc
  cases hc
  have hr : ((frontBytes b h.length).reverse ++ (b.front.drop h.length)) =
      (b.front ++ zeros h.length).take h.length ++ b.front.drop h.length := by
    simp [frontBytes]
  constructor
  · simp [restoreFront]
  · intro k
    cases k with
    | ofNat m => simp [restoreFront, bufByte]
    | negSucc m =>
      simp only [restoreFront, bufByte, pushHeader_win, pushHeader_front, List.take_left', length_frontBytes]
      rw [show (h.reverse ++ b.front.drop h.length).drop h.length = b.front.drop h.length by
        rw [List.drop_append_of_le_length (by simp), List.drop_of_length_le (by simp), List.nil_append], hr]
      by_cases hf : h.length ≤ b.front.length
      · rw [List.take_append_of_le_length hf, List.take_append_drop]
      · rw [List.drop_of_length_le (by omega), List.append_nil]
        simp only [List.getD_eq_getElem?_getD, List.getElem?_take]
        split
        · by_cases hm : m < b.front.length
          · rw [List.getElem?_append_left hm]
          · rw [List.getElem?_append_right (by omega), List.getElem?_eq_none (l := b.front) (by omega)]
            simp only [zeros, List.getElem?_replicate]
            split <;> rfl
        · rw [List.getElem?_eq_none (l := b.front) (by omega)]

end Sys2Proof.Laws
end

