-- ==== Sys2Proof/Laws/Checksum.lean ====
section
/-! SUPPORT. The checksum's arithmetic: the sum of words over parts of a string, and the folding loop in closed form. -/

namespace Sys2Proof.Laws

open Sys2Proof Sys2Proof.Machine

@[simp] theorem wordSum_nil : wordSum [] = 0 := rfl
@[simp] theorem wordSum_single (a : Byte) : wordSum [a] = a.toNat * 256 := rfl
@[simp] theorem wordSum_cons_cons (a b : Byte) (l : Bytes) :
    wordSum (a :: b :: l) = (a.toNat * 256 + b.toNat) + wordSum l := rfl

/-- The sum over two strings, the first of even length. -/
theorem wordSum_append (a b : Bytes) (h : a.length % 2 = 0) : wordSum (a ++ b) = wordSum a + wordSum b := by
  induction a using wordSum.induct with
  | case1 => simp
  | case2 x => simp at h
  | case3 x y l ih =>
    have := ih (by simp only [List.length_cons] at h; omega)
    simp only [List.cons_append, wordSum_cons_cons, this]
    omega

/-- The sum of a value's two bytes on the wire is the value. -/
@[simp] theorem wordSum_bytes16 (v : Half) : wordSum (bytes16 v) = v.toNat := by
  have h := be16_toNat (bytes16 v) 0
  rw [be16_bytes16_nil] at h
  simpa [bytes16, byteAt] using h.symm

/-- Zero bytes add nothing. -/
@[simp] theorem wordSum_zeros (n : Nat) : wordSum (zeros n) = 0 := by
  induction n using Nat.strong_induction_on with
  | _ n ih =>
    match n with
    | 0 => rfl
    | 1 => rfl
    | m + 2 =>
      have := ih m (by omega)
      simpa [zeros, List.replicate_succ] using this

/-- The folding loop in closed form: with enough fuel it takes the sum to its representative in 1 to 0xFFFF modulo 0xFFFF, and 0
to 0. -/
theorem foldLoop_eq (fuel s : Nat) (h : s ≤ fuel + 0xFFFF) :
    foldLoop fuel s = if s = 0 then 0 else (s - 1) % 0xFFFF + 1 := by
  induction fuel generalizing s with
  | zero =>
    simp only [foldLoop]
    split
    · assumption
    · rw [Nat.mod_eq_of_lt (by omega)]
      omega
  | succ n ih =>
    simp only [foldLoop]
    by_cases hs : 0xFFFF < s
    · rw [if_pos hs, ih _ (by omega), if_neg (by omega), if_neg (by omega)]
      omega
    · rw [if_neg hs]
      split
      · assumption
      · rw [Nat.mod_eq_of_lt (by omega)]
        omega

/-- The folded sum (R160). -/
theorem foldSum_eq (s : Nat) : foldSum s = if s = 0 then 0 else (s - 1) % 0xFFFF + 1 := foldLoop_eq s s (by omega)

/-- The folded sum fits 16 bits. -/
theorem foldSum_le (s : Nat) : foldSum s ≤ 0xFFFF := by
  rw [foldSum_eq]
  split <;> omega

/-- The checksum as a number: the one's complement of the folded sum (R160). -/
theorem csum_toNat (b : Bytes) : (csum b).toNat = 0xFFFF - foldSum (wordSum b) := by
  have := foldSum_le (wordSum b)
  simp only [csum, BitVec.toNat_ofNat]
  omega

/-- Strings of equal sum have equal checksums. -/
theorem csum_congr (a b : Bytes) (h : wordSum a = wordSum b) : csum a = csum b := by simp [csum, h]

/-- R164: an inserted checksum is read back as the checksum of the string with the field zero. -/
theorem be16_put16_csum (b : Bytes) (o : Nat) (h : o + 2 ≤ b.length) (hz : put16 b o 0 = b) :
    be16 (put16 b o (csum b)) o = csum (putBytes (put16 b o (csum b)) o [0, 0]) := by
  rw [be16_put16 b o _ h]
  conv_lhs => rw [← hz]
  rw [put16, put16, putBytes_putBytes b (bytes16 (csum b)) [0, 0] o rfl (by simpa using h)]
  rfl

/-- CSUM answers a next state (R163). -/
@[simp] theorem execCsum_eq (pkt : Bytes) (s : State) :
    execCsum pkt s = .next (respond s .ok ((csum pkt).setWidth 64)) := rfl

end Sys2Proof.Laws
end

