-- ==== Sys2Proof/Laws/Encoding.lean ====
section
/-! SUPPORT. The fields of the encoder's words: what each format's W0 and each operand word holds (30_encoding.md R101 to
R105). -/

namespace Sys2Proof.Laws

open Sys2Proof

/-- The high part of a concatenation. -/
theorem extract_append_high {n m : Nat} (a : BitVec n) (b : BitVec m) : (a ++ b).extractLsb' m n = a := by
  apply BitVec.eq_of_getLsbD_eq
  intro i hi
  rw [BitVec.getLsbD_extractLsb', BitVec.getLsbD_append]
  simp [hi]

/-- The low part of a concatenation. -/
theorem extract_append_low {n m : Nat} (a : BitVec n) (b : BitVec m) : (a ++ b).extractLsb' 0 m = b := by
  apply BitVec.eq_of_getLsbD_eq
  intro i hi
  rw [BitVec.getLsbD_extractLsb', BitVec.getLsbD_append]
  simp [hi]

/-- A slice above the low part is a slice of the high part. -/
theorem extract_append_above {n m : Nat} (a : BitVec n) (b : BitVec m) (start len : Nat) :
    (a ++ b).extractLsb' (m + start) len = a.extractLsb' start len := by
  apply BitVec.eq_of_getLsbD_eq
  intro i hi
  rw [BitVec.getLsbD_extractLsb', BitVec.getLsbD_extractLsb', BitVec.getLsbD_append,
    if_neg (show ¬ m + start + i < m by omega), show m + start + i - m = start + i by omega]

/-- A concatenation is zero when both parts are. -/
theorem append_eq_zero {n m : Nat} (a : BitVec n) (b : BitVec m) (ha : a = 0) (hb : b = 0) : a ++ b = 0 := by
  subst ha hb
  exact BitVec.zero_append_zero

@[simp] theorem opcOf_w0N (o : BitVec 8) : opcOf (w0N o) = o := extract_append_high o (0 : BitVec 24)
@[simp] theorem opcOf_w0A16 (o : BitVec 8) (a : Half) : opcOf (w0A16 o a) = o :=
  (extract_append_above (o ++ (0 : BitVec 8)) a 8 8).trans (extract_append_high o (0 : BitVec 8))
@[simp] theorem opcOf_w0A8 (o a : BitVec 8) : opcOf (w0A8 o a) = o :=
  (extract_append_above (o ++ a) (0 : BitVec 16) 8 8).trans (extract_append_high o a)
@[simp] theorem opcOf_w0Frag (o a : BitVec 8) (mf : Bool) (off : BitVec 13) : opcOf (w0Frag o a mf off) = o :=
  (extract_append_above (o ++ a ++ BitVec.ofBool mf ++ (0 : BitVec 2)) off 11 8).trans
    ((extract_append_above (o ++ a ++ BitVec.ofBool mf) (0 : BitVec 2) 9 8).trans
      ((extract_append_above (o ++ a) (BitVec.ofBool mf) 8 8).trans (extract_append_high o a)))

@[simp] theorem a16Of_w0A16 (o : BitVec 8) (a : Half) : a16Of (w0A16 o a) = a :=
  extract_append_low (o ++ (0 : BitVec 8)) a
@[simp] theorem a8Of_w0A8 (o a : BitVec 8) : a8Of (w0A8 o a) = a :=
  (extract_append_above (o ++ a) (0 : BitVec 16) 0 8).trans (extract_append_low o a)
@[simp] theorem a8Of_w0Frag (o a : BitVec 8) (mf : Bool) (off : BitVec 13) : a8Of (w0Frag o a mf off) = a :=
  (extract_append_above (o ++ a ++ BitVec.ofBool mf ++ (0 : BitVec 2)) off 3 8).trans
    ((extract_append_above (o ++ a ++ BitVec.ofBool mf) (0 : BitVec 2) 1 8).trans
      ((extract_append_above (o ++ a) (BitVec.ofBool mf) 0 8).trans (extract_append_low o a)))
@[simp] theorem offOf_w0Frag (o a : BitVec 8) (mf : Bool) (off : BitVec 13) : offOf (w0Frag o a mf off) = off :=
  extract_append_low (o ++ a ++ BitVec.ofBool mf ++ (0 : BitVec 2)) off
@[simp] theorem mfOf_w0Frag (o a : BitVec 8) (mf : Bool) (off : BitVec 13) : mfOf (w0Frag o a mf off) = mf := by
  rw [mfOf, w0Frag, BitVec.getLsbD_append, if_neg (by decide), BitVec.getLsbD_append, if_neg (by decide),
    BitVec.getLsbD_append, if_pos (by decide)]
  cases mf <;> rfl

@[simp] theorem lowHalf_wordOfLow (v : Half) : lowHalf (wordOfLow v) = v := extract_append_low (0 : BitVec 16) v

@[simp] theorem hwOf_hwWords (hw : Hw) : hwOf (hwWord2 hw) (hwWord3 hw) = hw := by
  unfold hwOf hwWord2 hwWord3
  rw [extract_append_high]
  apply BitVec.eq_of_getLsbD_eq
  intro i hi
  rw [BitVec.getLsbD_append]
  split
  · simp [*]
  · rw [BitVec.getLsbD_extractLsb']
    simp only [show i - 16 < 32 by omega, decide_true, Bool.true_and]
    congr 1
    omega

/-! The bits that must be zero are zero. -/

theorem w0N_mustBeZero (o : BitVec 8) : w0N o &&& Format.n.mustBeZero = 0 := by
  rw [w0N, show Format.n.mustBeZero = (0 : BitVec 8) ++ (0xFFFFFF : BitVec 24) by decide, BitVec.and_append]
  exact append_eq_zero _ _ (by simp) (by simp)

theorem w0A16_mustBeZero (o : BitVec 8) (a : Half) : w0A16 o a &&& Format.a16.mustBeZero = 0 := by
  rw [w0A16, show Format.a16.mustBeZero = (0 : BitVec 8) ++ (0xFF : BitVec 8) ++ (0 : BitVec 16) by decide,
    BitVec.and_append, BitVec.and_append]
  exact append_eq_zero _ _ (append_eq_zero _ _ (by simp) (by simp)) (by simp)

theorem w0A8_mustBeZero (o a : BitVec 8) : w0A8 o a &&& Format.a8.mustBeZero = 0 := by
  rw [w0A8, show Format.a8.mustBeZero = (0 : BitVec 8) ++ (0 : BitVec 8) ++ (0xFFFF : BitVec 16) by decide,
    BitVec.and_append, BitVec.and_append]
  exact append_eq_zero _ _ (append_eq_zero _ _ (by simp) (by simp)) (by simp)

theorem w0Frag_mustBeZero (o a : BitVec 8) (mf : Bool) (off : BitVec 13) :
    w0Frag o a mf off &&& Format.frag.mustBeZero = 0 := by
  rw [w0Frag, show Format.frag.mustBeZero =
      (0 : BitVec 8) ++ (0 : BitVec 8) ++ (0 : BitVec 1) ++ (3 : BitVec 2) ++ (0 : BitVec 13) by decide,
    BitVec.and_append, BitVec.and_append, BitVec.and_append, BitVec.and_append]
  exact append_eq_zero _ _ (append_eq_zero _ _ (append_eq_zero _ _ (append_eq_zero _ _ (by simp) (by simp))
    (by simp)) (by simp)) (by simp)

theorem wordOfLow_highZero (v : Half) : wordOfLow v &&& highZero = 0 := by
  rw [wordOfLow, show highZero = (0xFFFF : BitVec 16) ++ (0 : BitVec 16) by decide, BitVec.and_append]
  exact append_eq_zero _ _ (by simp) (by simp)

theorem hwWord3_lowZero (hw : Hw) : hwWord3 hw &&& lowZero = 0 := by
  rw [hwWord3, show lowZero = (0 : BitVec 16) ++ (0xFFFF : BitVec 16) by decide, BitVec.and_append]
  exact append_eq_zero _ _ (by simp) (by simp)

@[simp] theorem and_noneZero (v : Word) : v &&& noneZero = 0 := by simp [noneZero]

@[simp] theorem zero_and_allZero : (0 : Word) &&& allZero = 0 := by decide

end Sys2Proof.Laws
end

