-- ==== Sys2Proof/Laws/PerInstr.lean ====
section
/-! SUPPORT. The laws stated once for each command, as one lemma per constructor. -/

namespace Sys2Proof.Laws.EncodesItsRow

open Sys2Proof Sys2Proof.Laws

/-- The name of a command's row (R107). -/
def rowName : Instr → Op
  | .nop => .nop
  | .csum _ => .csum
  | .arpInit => .arpInit
  | .arpUpdate _ _ => .arpUpdate
  | .arpLookup _ => .arpLookup
  | .arpRequest _ => .arpRequest
  | .arpResolve _ _ _ => .arpResolve
  | .arpIn _ => .arpIn
  | .ipIn _ => .ipIn
  | .ipFrag _ _ _ _ _ _ => .ipFrag
  | .ipSend _ _ _ => .ipSend
  | .icmpIn _ _ => .icmpIn
  | .icmpUnreach _ _ _ => .icmpUnreach
  | .udpIn _ _ => .udpIn
  | .udpSend _ _ _ _ => .udpSend
  | .udpOpen _ _ => .udpOpen
  | .udpClose _ => .udpClose
  | .udpPcsum _ _ _ => .udpPcsum
  | .ethRx _ => .ethRx
  | .regRd _ => .regRd
  | .regWr _ _ => .regWr

/-- The encoder's descriptor is one its row of the opcode map admits: the row's opcode, and 0 in every bit the row requires to
be 0 (R103, R107). -/
def Statement (i : Instr) : Prop :=
  ∃ r, findRow (opcOf (encode i).w0) = some r ∧ r.op = rowName i ∧ (encode i).w0 &&& r.format.mustBeZero = 0 ∧
    (encode i).w1 &&& r.w1Zero = 0 ∧ (encode i).w2 &&& r.w2Zero = 0 ∧ (encode i).w3 &&& r.w3Zero = 0 ∧
    (r.pkt = false → (encode i).pkt = [])

/-- A row of format N admits what the encoder writes. -/
theorem of_n (i : Instr) (r : Row) (o : BitVec 8) (hw0 : (encode i).w0 = w0N o) (hr : findRow o = some r)
    (hf : r.format = .n) (hn : r.op = rowName i)
    (h1 : (encode i).w1 &&& r.w1Zero = 0) (h2 : (encode i).w2 &&& r.w2Zero = 0) (h3 : (encode i).w3 &&& r.w3Zero = 0)
    (hp : r.pkt = false → (encode i).pkt = []) : Statement i :=
  ⟨r, by rw [hw0, opcOf_w0N, hr], hn, by rw [hw0, hf]; exact w0N_mustBeZero o, h1, h2, h3, hp⟩

/-- A row of format A16 admits what the encoder writes. -/
theorem of_a16 (i : Instr) (r : Row) (o : BitVec 8) (a : Half) (hw0 : (encode i).w0 = w0A16 o a)
    (hr : findRow o = some r) (hf : r.format = .a16) (hn : r.op = rowName i)
    (h1 : (encode i).w1 &&& r.w1Zero = 0) (h2 : (encode i).w2 &&& r.w2Zero = 0) (h3 : (encode i).w3 &&& r.w3Zero = 0)
    (hp : r.pkt = false → (encode i).pkt = []) : Statement i :=
  ⟨r, by rw [hw0, opcOf_w0A16, hr], hn, by rw [hw0, hf]; exact w0A16_mustBeZero o a, h1, h2, h3, hp⟩

/-- A row of format A8 admits what the encoder writes. -/
theorem of_a8 (i : Instr) (r : Row) (o a : BitVec 8) (hw0 : (encode i).w0 = w0A8 o a)
    (hr : findRow o = some r) (hf : r.format = .a8) (hn : r.op = rowName i)
    (h1 : (encode i).w1 &&& r.w1Zero = 0) (h2 : (encode i).w2 &&& r.w2Zero = 0) (h3 : (encode i).w3 &&& r.w3Zero = 0)
    (hp : r.pkt = false → (encode i).pkt = []) : Statement i :=
  ⟨r, by rw [hw0, opcOf_w0A8, hr], hn, by rw [hw0, hf]; exact w0A8_mustBeZero o a, h1, h2, h3, hp⟩

/-- A row of format FRAG admits what the encoder writes. -/
theorem of_frag (i : Instr) (r : Row) (o a : BitVec 8) (mf : Bool) (off : BitVec 13)
    (hw0 : (encode i).w0 = w0Frag o a mf off) (hr : findRow o = some r) (hf : r.format = .frag) (hn : r.op = rowName i)
    (h1 : (encode i).w1 &&& r.w1Zero = 0) (h2 : (encode i).w2 &&& r.w2Zero = 0) (h3 : (encode i).w3 &&& r.w3Zero = 0)
    (hp : r.pkt = false → (encode i).pkt = []) : Statement i :=
  ⟨r, by rw [hw0, opcOf_w0Frag, hr], hn, by rw [hw0, hf]; exact w0Frag_mustBeZero o a mf off, h1, h2, h3, hp⟩

theorem nop : Statement .nop :=
  of_n _ _ 0x00 rfl rfl rfl rfl zero_and_allZero zero_and_allZero zero_and_allZero (fun _ => rfl)
theorem csum (p : Bytes) : Statement (.csum p) :=
  of_n _ _ 0x10 rfl rfl rfl rfl zero_and_allZero zero_and_allZero zero_and_allZero (by simp)
theorem arpInit : Statement .arpInit :=
  of_n _ _ 0x20 rfl rfl rfl rfl zero_and_allZero zero_and_allZero zero_and_allZero (fun _ => rfl)
theorem arpUpdate (ip : Ip) (hw : Hw) : Statement (.arpUpdate ip hw) :=
  of_n _ _ 0x21 rfl rfl rfl rfl (and_noneZero _) (and_noneZero _) (hwWord3_lowZero hw) (fun _ => rfl)
theorem arpLookup (ip : Ip) : Statement (.arpLookup ip) :=
  of_n _ _ 0x22 rfl rfl rfl rfl (and_noneZero _) zero_and_allZero zero_and_allZero (fun _ => rfl)
theorem arpRequest (ip : Ip) : Statement (.arpRequest ip) :=
  of_n _ _ 0x23 rfl rfl rfl rfl (and_noneZero _) zero_and_allZero zero_and_allZero (fun _ => rfl)
theorem arpResolve (ip : Ip) (proto : Half) (p : Bytes) : Statement (.arpResolve ip proto p) :=
  of_a16 _ _ 0x24 proto rfl rfl rfl rfl (and_noneZero _) zero_and_allZero zero_and_allZero (by simp)
theorem arpIn (p : Bytes) : Statement (.arpIn p) :=
  of_n _ _ 0x25 rfl rfl rfl rfl zero_and_allZero zero_and_allZero zero_and_allZero (by simp)
theorem ipIn (p : Bytes) : Statement (.ipIn p) :=
  of_n _ _ 0x30 rfl rfl rfl rfl zero_and_allZero zero_and_allZero zero_and_allZero (by simp)
theorem ipFrag (dst : Ip) (proto : BitVec 8) (id : Half) (off : BitVec 13) (mf : Bool) (p : Bytes) :
    Statement (.ipFrag dst proto id off mf p) :=
  of_frag _ _ 0x31 proto mf off rfl rfl rfl rfl (and_noneZero _) (wordOfLow_highZero id) zero_and_allZero (by simp)
theorem ipSend (dst : Ip) (proto : BitVec 8) (p : Bytes) : Statement (.ipSend dst proto p) :=
  of_a8 _ _ 0x32 proto rfl rfl rfl rfl (and_noneZero _) zero_and_allZero zero_and_allZero (by simp)
theorem icmpIn (src : Ip) (p : Bytes) : Statement (.icmpIn src p) :=
  of_n _ _ 0x40 rfl rfl rfl rfl (and_noneZero _) zero_and_allZero zero_and_allZero (by simp)
theorem icmpUnreach (dst : Ip) (code : BitVec 8) (p : Bytes) : Statement (.icmpUnreach dst code p) :=
  of_a8 _ _ 0x41 code rfl rfl rfl rfl (and_noneZero _) zero_and_allZero zero_and_allZero (by simp)
theorem udpIn (src : Ip) (p : Bytes) : Statement (.udpIn src p) :=
  of_n _ _ 0x50 rfl rfl rfl rfl (and_noneZero _) zero_and_allZero zero_and_allZero (by simp)
theorem udpSend (sport : Half) (dst : Ip) (dport : Half) (p : Bytes) : Statement (.udpSend sport dst dport p) :=
  of_a16 _ _ 0x51 sport rfl rfl rfl rfl (and_noneZero _) (wordOfLow_highZero dport) zero_and_allZero (by simp)
theorem udpOpen (port : Half) (handler : Word) : Statement (.udpOpen port handler) :=
  of_a16 _ _ 0x52 port rfl rfl rfl rfl (and_noneZero _) zero_and_allZero zero_and_allZero (fun _ => rfl)
theorem udpClose (port : Half) : Statement (.udpClose port) :=
  of_a16 _ _ 0x53 port rfl rfl rfl rfl zero_and_allZero zero_and_allZero zero_and_allZero (fun _ => rfl)
theorem udpPcsum (src dst : Ip) (p : Bytes) : Statement (.udpPcsum src dst p) :=
  of_n _ _ 0x54 rfl rfl rfl rfl (and_noneZero _) (and_noneZero _) zero_and_allZero (by simp)
theorem ethRx (p : Bytes) : Statement (.ethRx p) :=
  of_n _ _ 0x60 rfl rfl rfl rfl zero_and_allZero zero_and_allZero zero_and_allZero (by simp)
theorem regRd (reg : Half) : Statement (.regRd reg) :=
  of_a16 _ _ 0x70 reg rfl rfl rfl rfl zero_and_allZero zero_and_allZero zero_and_allZero (fun _ => rfl)
theorem regWr (reg : Half) (value : Word) : Statement (.regWr reg value) :=
  of_a16 _ _ 0x71 reg rfl rfl rfl rfl (and_noneZero _) zero_and_allZero zero_and_allZero (fun _ => rfl)

end Sys2Proof.Laws.EncodesItsRow
end

