-- ==== Sys2Proof/Laws/Send.lean ====
section
/-! SUPPORT. The output path, from a payload to the TX port: what it leaves unchanged and what it may change. -/

namespace Sys2Proof.Laws

open Sys2Proof Sys2Proof.Machine

/-- What every procedure of the output path keeps. It may change FRAG_ID and the pending slot, and it appends events and
frames; `n` bounds the length of a packet it leaves in the slot. -/
structure OutputFrame (n : Nat) (s t : State) : Prop where
  params : t.params = s.params
  localIp : t.localIp = s.localIp
  localMac : t.localMac = s.localMac
  arp : t.arp = s.arp
  udp : t.udp = s.udp
  timeNow : t.timeNow = s.timeNow
  inputs : t.inputs = s.inputs
  responses : t.responses = s.responses
  held : t.pend.pkt.length ≤ max s.pend.pkt.length n
  events : s.events <+: t.events
  frames : s.frames <+: t.frames

theorem OutputFrame.refl (n : Nat) (s : State) : OutputFrame n s s :=
  ⟨rfl, rfl, rfl, rfl, rfl, rfl, rfl, rfl, Nat.le_max_left _ _, List.prefix_rfl, List.prefix_rfl⟩

theorem OutputFrame.trans {n : Nat} {s t u : State} (h : OutputFrame n s t) (k : OutputFrame n t u) :
    OutputFrame n s u :=
  ⟨k.params.trans h.params, k.localIp.trans h.localIp, k.localMac.trans h.localMac, k.arp.trans h.arp,
    k.udp.trans h.udp, k.timeNow.trans h.timeNow, k.inputs.trans h.inputs, k.responses.trans h.responses,
    by have := h.held; have := k.held; omega, h.events.trans k.events, h.frames.trans k.frames⟩

/-- A change of FRAG_ID is within the output path's frame. -/
theorem OutputFrame.setFragId (n : Nat) (s : State) (v : Half) : OutputFrame n s { s with fragId := v } :=
  ⟨rfl, rfl, rfl, rfl, rfl, rfl, rfl, rfl, Nat.le_max_left _ _, List.prefix_rfl, List.prefix_rfl⟩

theorem OutputFrame.emitDeliver (n : Nat) (s : State) (h : Word) (src : Ip) (sp : Half) (p : Bytes) :
    OutputFrame n s (emitDeliver s h src sp p) :=
  ⟨rfl, rfl, rfl, rfl, rfl, rfl, rfl, rfl, Nat.le_max_left _ _, ⟨_, rfl⟩, List.prefix_rfl⟩

/-- The frame of R186, and FRAG_ID is kept. -/
theorem arpResolveSend_frame (s : State) (pkt : Bytes) (ip : Ip) (proto : Half) :
    OutputFrame pkt.length s (arpResolveSend s pkt ip proto) ∧ (arpResolveSend s pkt ip proto).fragId = s.fragId := by
  rcases arpResolveSend_cases s pkt ip proto with ⟨hw, _, h⟩ | ⟨_, h⟩ <;> rw [h]
  · exact ⟨⟨rfl, rfl, rfl, rfl, rfl, rfl, rfl, rfl, Nat.le_max_left _ _, ⟨_, rfl⟩, ⟨_, rfl⟩⟩, rfl⟩
  · exact ⟨⟨rfl, rfl, rfl, rfl, rfl, rfl, rfl, rfl, Nat.le_max_right _ _, ⟨_, rfl⟩, ⟨_, rfl⟩⟩, rfl⟩

/-! The header (R223). -/

@[simp] theorem length_ipHeaderZero (s : State) (total : Half) (dst : Ip) (proto : BitVec 8) (id : Half)
    (off : BitVec 13) (mf : Bool) : (ipHeaderZero s total dst proto id off mf).length = 20 := rfl

@[simp] theorem length_ipHeader (s : State) (total : Half) (dst : Ip) (proto : BitVec 8) (id : Half)
    (off : BitVec 13) (mf : Bool) : (ipHeader s total dst proto id off mf).length = 20 := rfl

/-- R164, R223: the header's checksum field holds the checksum of the header with that field zero, as computed. -/
theorem ipHeader_checksum (s : State) (total : Half) (dst : Ip) (proto : BitVec 8) (id : Half) (off : BitVec 13)
    (mf : Bool) :
    be16 (ipHeader s total dst proto id off mf) 10 =
      csum (putBytes (ipHeader s total dst proto id off mf) 10 [0, 0]) :=
  be16_put16_csum (ipHeaderZero s total dst proto id off mf) 10 (by rw [length_ipHeaderZero]; omega) rfl

/-- The datagram is the header followed by the buffer's window (R223). -/
theorem ipDatagram_win (s : State) (b : Buf) (dst : Ip) (proto : BitVec 8) (id : Half) (off : BitVec 13) (mf : Bool) :
    (ipDatagram s b dst proto id off mf).win =
      ipHeader s (BitVec.ofNat 16 (20 + bufLen b)) dst proto id off mf ++ b.win := by
  simp [ipDatagram, ipHdrLen]

theorem length_ipDatagram (s : State) (b : Buf) (dst : Ip) (proto : BitVec 8) (id : Half) (off : BitVec 13) (mf : Bool) :
    (ipDatagram s b dst proto id off mf).win.length = 20 + bufLen b := by
  rw [ipDatagram_win, List.length_append, length_ipHeader, bufLen]

/-! What the output path can do. -/

/-- The frame of R223, and FRAG_ID is kept. -/
theorem ipSendFragment_frame (s : State) (b : Buf) (dst : Ip) (proto : BitVec 8) (id : Half) (off : BitVec 13)
    (mf : Bool) :
    OutputFrame (20 + bufLen b) s (ipSendFragment s b dst proto id off mf) ∧
      (ipSendFragment s b dst proto id off mf).fragId = s.fragId := by
  have h := arpResolveSend_frame s (ipDatagram s b dst proto id off mf).win dst ethTypeIpv4
  rwa [length_ipDatagram] at h

theorem OutputFrame.mono {n m : Nat} {s t : State} (h : OutputFrame n s t) (hnm : n ≤ m) : OutputFrame m s t :=
  { h with held := by have := h.held; omega }

/-- The loop of R225: every datagram it sends is at most 1500 bytes long. -/
theorem ipSendLoop_frame (fuel : Nat) (s : State) (rest : Bytes) (o : Nat) (dst : Ip) (proto : BitVec 8) (id : Half) :
    OutputFrame 1500 s (ipSendLoop fuel s rest o dst proto id) ∧
      (ipSendLoop fuel s rest o dst proto id).fragId = s.fragId := by
  induction fuel generalizing s rest o with
  | zero => exact ⟨OutputFrame.refl _ _, rfl⟩
  | succ n ih =>
    simp only [ipSendLoop]
    split
    · have h1 := ipSendFragment_frame s (load (rest.take ipFragPayload)) dst proto id (BitVec.ofNat 13 (o / 8)) true
      have h2 := ih (ipSendFragment s (load (rest.take ipFragPayload)) dst proto id (BitVec.ofNat 13 (o / 8)) true)
        (rest.drop ipFragPayload) (o + ipFragPayload)
      exact ⟨(h1.1.mono (by simp only [bufLen_load, List.length_take, ipFragPayload]; omega)).trans h2.1,
        h2.2.trans h1.2⟩
    · have h1 := ipSendFragment_frame s (load rest) dst proto id (BitVec.ofNat 13 (o / 8)) false
      exact ⟨h1.1.mono (by simp only [bufLen_load, ipFragPayload] at *; omega), h1.2⟩

/-- R225: the identifier is drawn once for the whole datagram, and no datagram is longer than 1500 bytes. -/
theorem ipSend_frame (s : State) (b : Buf) (dst : Ip) (proto : BitVec 8) :
    OutputFrame 1500 s (ipSend s b dst proto) ∧ (ipSend s b dst proto).fragId = s.fragId + 1 := by
  simp only [ipSend]
  split
  · have h := ipSendLoop_frame (bufLen b) { s with fragId := s.fragId + 1 } b.win 0 dst proto s.fragId
    exact ⟨(OutputFrame.setFragId 1500 s _).trans h.1, h.2⟩
  · have h := ipSendFragment_frame { s with fragId := s.fragId + 1 } b dst proto s.fragId 0 false
    exact ⟨(OutputFrame.setFragId 1500 s _).trans (h.1.mono (by simp only [ipFragPayload] at *; omega)), h.2⟩

/-- R262: an error message always goes out, as one datagram. -/
theorem icmpUnreachable_frame (s : State) (d : Bytes) (dst : Ip) (code : BitVec 8) :
    OutputFrame 1500 s (icmpUnreachable s d dst code) ∧ (icmpUnreachable s d dst code).fragId = s.fragId + 1 :=
  ipSend_frame s _ dst ipProtoIcmp

/-- The error message is always 36 bytes long (R262). -/
@[simp] theorem length_unreachMsg (d : Bytes) (code : BitVec 8) : (unreachMsg d code).length = 36 := by
  have h : ([icmpDestUnreach, code, 0, 0, 0, 0, 0, 0] ++
      (d.take (min icmpEmbedLen d.length) ++ zeros (icmpEmbedLen - min icmpEmbedLen d.length))).length = 36 := by
    simp only [List.length_append, List.length_cons, List.length_nil, List.length_take, length_zeros, icmpEmbedLen]
    omega
  simp only [unreachMsg]
  rw [length_put16 _ _ _ (by omega), h]

/-- The reply is as long as the request (R260). -/
@[simp] theorem length_echoReply (m : Bytes) (h : 8 ≤ m.length) : (echoReply m).length = m.length := by
  have h1 : (putBytes m 0 [icmpEchoReply, 0]).length = m.length :=
    length_putBytes m _ 0 (by simp only [List.length_cons, List.length_nil]; omega)
  have h2 : (putBytes (putBytes m 0 [icmpEchoReply, 0]) 2 (bytes16 0)).length = m.length := by
    rw [length_putBytes _ _ _ (by rw [length_bytes16, h1]; omega), h1]
  simp only [echoReply]
  rw [length_put16 _ _ _ (by omega), h2]

/-- R164, R262: the error's checksum field holds the checksum of the message with that field zero, as computed. -/
theorem unreachMsg_checksum (d : Bytes) (code : BitVec 8) :
    be16 (unreachMsg d code) 2 = csum (putBytes (unreachMsg d code) 2 [0, 0]) :=
  be16_put16_csum _ 2 (by simp only [List.length_append, List.length_cons]; omega) (by simp [put16, putBytes, bytes16])

/-- R164, R260: the reply's checksum field holds the checksum of the reply with that field zero, as computed. -/
theorem echoReply_checksum (m : Bytes) (h : 8 ≤ m.length) :
    be16 (echoReply m) 2 = csum (putBytes (echoReply m) 2 [0, 0]) := by
  have h1 : (putBytes m 0 [icmpEchoReply, 0]).length = m.length :=
    length_putBytes m _ 0 (by simp only [List.length_cons, List.length_nil]; omega)
  have h2 : 2 + (bytes16 0).length ≤ (putBytes m 0 [icmpEchoReply, 0]).length := by rw [h1, length_bytes16]; omega
  refine be16_put16_csum _ 2 ?_ (putBytes_putBytes _ _ _ 2 rfl h2)
  rw [length_putBytes _ _ _ h2, h1]
  omega

/-- R260: a message is answered, or nothing happens. -/
theorem icmpIn_cases (s : State) (m : Bytes) (src : Ip) :
    (8 ≤ m.length ∧ byteAt m 0 = 8 ∧ byteAt m 1 = 0 ∧ icmpIn s m src = ipSend s (load (echoReply m)) src 1) ∨
      (¬(8 ≤ m.length ∧ byteAt m 0 = 8 ∧ byteAt m 1 = 0) ∧ icmpIn s m src = s) := by
  simp only [icmpIn, icmpHdrLen, icmpEchoRequest, ipProtoIcmp]
  by_cases h : m.length < 8
  · exact .inr ⟨by omega, by rw [if_pos h]⟩
  · rw [if_neg h]
    by_cases h8 : byteAt m 0 = 8 ∧ byteAt m 1 = 0
    · exact .inl ⟨by omega, h8.1, h8.2, by rw [if_pos h8]⟩
    · exact .inr ⟨fun hc => h8 hc.2, by rw [if_neg h8]⟩

theorem icmpIn_frame (s : State) (m : Bytes) (src : Ip) : OutputFrame 1500 s (icmpIn s m src) := by
  rcases icmpIn_cases s m src with ⟨_, _, _, h⟩ | ⟨_, h⟩ <;> rw [h]
  · exact (ipSend_frame s _ src 1).1
  · exact OutputFrame.refl _ _

end Sys2Proof.Laws
end

