-- ==== Sys2Proof/Laws/Receive.lean ====
section
/-! SUPPORT. The receive path: no command reaches the buffer fault, and what UDP and IP input may change. -/

namespace Sys2Proof.Laws

open Sys2Proof Sys2Proof.Machine

/-- R280: the checksum covers the pseudo-header and then the window. -/
theorem udpPseudoChecksum_eq (b : Buf) (src dst : Ip) :
    udpPseudoChecksum b src dst = csum (pseudoHeader src dst (be16 b.win 4) ++ b.win) := by
  simp [udpPseudoChecksum]

/-- R164, R284: the segment's checksum field holds the checksum of the pseudo-header and the segment with that field zero, as
computed. -/
theorem udpSegment_checksum (s : State) (b : Buf) (sport : Half) (dst : Ip) (dport : Half) :
    be16 (udpSegment s b sport dst dport).win 6 =
      csum (pseudoHeader s.localIp dst (be16 (udpSegment s b sport dst dport).win 4) ++
        putBytes (udpSegment s b sport dst dport).win 6 [0, 0]) := by
  simp only [udpSegment, memWrite_win, udpPseudoChecksum_eq, pushHeader_win]
  generalize hw : udpHeaderZero sport dport (BitVec.ofNat 16 (udpHdrLen + bufLen b)) ++ b.win = w
  have hl : 8 ≤ w.length := by
    rw [← hw, List.length_append, show (udpHeaderZero sport dport (BitVec.ofNat 16 (udpHdrLen + bufLen b))).length = 8 from rfl]
    omega
  have hz : putBytes w 6 [0, 0] = w := by
    rw [← hw]
    rfl
  have h4 : ∀ c : Half, be16 (putBytes w 6 (bytes16 c)) 4 = be16 w 4 := fun c => by
    have hc : 6 + (bytes16 c).length ≤ w.length := by rw [length_bytes16]; omega
    rw [be16, be16, byteAt_putBytes _ _ _ _ hc, byteAt_putBytes _ _ _ _ hc, if_neg (by omega), if_neg (by omega)]
  rw [h4, putBytes_putBytes w (bytes16 _) [0, 0] 6 rfl (by rw [length_bytes16]; omega), hz]
  exact be16_put16 w 6 _ hl

/-- R282: the trimming never fails, and what is left still holds a UDP header. -/
theorem udpTrim_ok (b : Buf) (ulen : Nat) (hb : 8 ≤ bufLen b) (hu : 8 ≤ ulen) :
    ∃ c, udpTrim b ulen = .ok c ∧ 8 ≤ bufLen c ∧
      c.win = (if ulen < 18 then b.win.take ulen else b.win) ∧ c.front = b.front := by
  simp only [bufLen] at hb
  simp only [udpTrim, udpTruncBelow]
  by_cases h : ulen < 18 ∧ ulen < bufLen b
  · rw [if_pos h, truncate_of_le b ulen (by omega)]
    simp only [bufLen] at h
    refine ⟨_, rfl, ?_, by rw [if_pos h.1], rfl⟩
    simp only [bufLen, List.length_take]
    omega
  · rw [if_neg h]
    refine ⟨b, rfl, hb, ?_, rfl⟩
    split
    · rw [List.take_of_length_le (by simp only [bufLen] at h; omega)]
    · rfl

/-- R282: a segment with a header is delivered to its port's handler, or answered with Port-Unreachable. -/
theorem udpDispatch_cases (s : State) (b : Buf) (src : Ip) (hb : 8 ≤ bufLen b) :
    (∃ j, udpFind s.udp (be16 b.win 2) = some j ∧
      udpDispatch s b src =
        .ok (emitDeliver s (s.udp.getD j UdpSlot.empty).handler src (be16 b.win 0) (b.win.drop 8))) ∨
      (udpFind s.udp (be16 b.win 2) = none ∧
        udpDispatch s b src = .ok (icmpUnreachable s (addHeader b 20).win src 3)) := by
  unfold udpDispatch
  cases h : udpFind s.udp (be16 b.win 2) with
  | some j => exact .inl ⟨j, rfl, by simp [removeHeader_of_le b udpHdrLen hb, udpHdrLen]⟩
  | none => exact .inr ⟨rfl, rfl⟩

/-- R282: UDP input runs to its end on every buffer, and keeps what the output path keeps. -/
theorem udpIn_ok (s : State) (b : Buf) (src : Ip) : ∃ t, udpIn s b src = .ok t ∧ OutputFrame 1500 s t := by
  simp only [udpIn, udpHdrLen]
  by_cases h1 : bufLen b < 8
  · exact ⟨s, by rw [if_pos h1], OutputFrame.refl _ _⟩
  by_cases h2 : (be16 b.win 4).toNat < 8
  · exact ⟨s, by rw [if_neg h1, if_pos h2], OutputFrame.refl _ _⟩
  rw [if_neg h1, if_neg h2]
  obtain ⟨c, hc, hl, _, _⟩ := udpTrim_ok b (be16 b.win 4).toNat (by omega) (by omega)
  simp only [hc]
  split
  · exact ⟨s, rfl, OutputFrame.refl _ _⟩
  · have hlen : 8 ≤ bufLen (memWrite (memWrite c 6 (bytes16 0)) 6 (bytes16 (be16 c.win 6))) := by
      simp only [bufLen, memWrite_win] at hl ⊢
      rw [length_putBytes _ _ _ (by rw [length_putBytes _ _ _ (by rw [length_bytes16]; omega), length_bytes16]; omega),
        length_putBytes _ _ _ (by rw [length_bytes16]; omega)]
      exact hl
    rcases udpDispatch_cases s _ src hlen with ⟨j, _, h⟩ | ⟨_, h⟩ <;> rw [h]
    · exact ⟨_, rfl, OutputFrame.emitDeliver _ _ _ _ _ _⟩
    · exact ⟨_, rfl, (icmpUnreachable_frame s _ src 3).1⟩

/-- R220: an accepted datagram holds its whole header, which is at least 20 bytes. -/
theorem ipAccepts_header (localIp : Ip) (w : Bytes) (h : ipAccepts localIp w = true) :
    20 ≤ ipHdrBytes w ∧ ipHdrBytes w ≤ w.length := by
  simp only [ipAccepts, Bool.and_eq_true, decide_eq_true_eq, ipHdrLen] at h
  omega

/-- R221: trimming never fails on an accepted datagram, and what is left still holds the header. -/
theorem ipTrim_ok (s : State) (b : Buf) (h : ipHdrBytes b.win ≤ bufLen b) (h20 : 20 ≤ ipHdrBytes b.win) :
    ∃ c, ipTrim s b = .ok c ∧ ipHdrBytes c.win = ipHdrBytes b.win ∧ ipHdrBytes c.win ≤ bufLen c ∧
      c.front = b.front ∧
      c.win = (if s.params.ipTrimPadding ∧ ipTotalLen b.win < bufLen b ∧ ipHdrBytes b.win ≤ ipTotalLen b.win then
        b.win.take (ipTotalLen b.win) else b.win) := by
  simp only [ipTrim]
  by_cases hc : s.params.ipTrimPadding ∧ ipTotalLen b.win < bufLen b ∧ ipHdrBytes b.win ≤ ipTotalLen b.win
  · have hb : ipHdrBytes (b.win.take (ipTotalLen b.win)) = ipHdrBytes b.win := by
      simp only [ipHdrBytes]
      rw [byteAt_take _ _ _ (by omega)]
    rw [if_pos hc, if_pos hc, truncate_of_le b _ (by omega)]
    refine ⟨_, rfl, hb, ?_, rfl, rfl⟩
    simp only [bufLen, List.length_take, hb] at *
    omega
  · rw [if_neg hc, if_neg hc]
    exact ⟨b, rfl, rfl, h, rfl, rfl⟩

/-- R220, R221: IP input runs to its end on every buffer, and keeps what the output path keeps. -/
theorem ipIn_ok (s : State) (b : Buf) : ∃ t, ipIn s b = .ok t ∧ OutputFrame 1500 s t := by
  unfold ipIn
  cases ha : ipAccepts s.localIp b.win with
  | false => exact ⟨s, rfl, OutputFrame.refl _ _⟩
  | true =>
    obtain ⟨h20, hl⟩ := ipAccepts_header _ _ ha
    obtain ⟨c, hc, _, hlc, _, _⟩ := ipTrim_ok s b hl h20
    simp only [if_true, hc, ipDispatch, removeHeader_of_le c _ hlc]
    split
    · exact ⟨_, rfl, icmpIn_frame s _ _⟩
    · split
      · exact udpIn_ok s _ _
      · exact ⟨_, rfl, (icmpUnreachable_frame s _ _ _).1⟩

/-- R311: the receive dispatch runs to its end on every frame. It keeps everything but the cache, the pending slot,
FRAG_ID and the outputs. -/
theorem ethRx_ok (s : State) (f : Bytes) : ∃ t, ethRx s f = .ok t := by
  unfold ethRx
  by_cases h : f.length < linkHdrLen
  · exact ⟨s, by rw [if_pos h]⟩
  · rw [if_neg h, removeHeader_of_le _ _ (by simpa using h)]
    simp only
    split
    · exact ⟨_, rfl⟩
    · split
      · obtain ⟨t, ht, _⟩ := ipIn_ok (if ipHdrLen ≤ bufLen ⟨((load f).win.take linkHdrLen).reverse ++ (load f).front,
            (load f).win.drop linkHdrLen, (load f).back⟩ then
            arpUpdate s (be32 ((load f).win.drop linkHdrLen) 12) (be48 f 6) else s)
            ⟨((load f).win.take linkHdrLen).reverse ++ (load f).front, (load f).win.drop linkHdrLen, (load f).back⟩
        exact ⟨t, ht⟩
      · exact ⟨s, rfl⟩

end Sys2Proof.Laws
end

