-- ==== Sys2Proof/Tests/Slice0.lean ====
section
/-! SUPPORT. Tests of the model, each on one command, and a witness for the hypotheses of each statement. Expected values come
from the spec: the encodings of 30_encoding.md, the examples of the command rules, and 95_test_vectors.md (named V-…). -/

namespace Sys2Proof.Tests

open Sys2Proof Sys2Proof.Machine Sys2Proof.Safety

set_option Elab.async false

/-! Helpers. -/

/-- A small instance: two cache entries, two handler slots. -/
def smallParams : Params := ⟨2, 300, 2, 64, 65535, false⟩

/-- The peer's addresses and the block's own, as in 95_test_vectors.md. -/
def peerIp : Ip := 0xC0A80101
def peerHw : Hw := 0x0200000000AA
def localIp : Ip := 0xC0A80102
def localMac : Hw := 0x020000000001

/-- The block after boot (S_BOOT) on the small instance. -/
def booted : State := { State.resetWith smallParams with localIp := localIp, localMac := localMac }

/-- The block that has the peer cached (S_PEER). -/
def peered : State := { booted with arp := [⟨.valid, peerIp, peerHw, 0⟩, ⟨.invalid, 0, 0, 0⟩] }

/-- The block with port 7 open. -/
def opened : State := { peered with udp := [⟨true, 7, 0x77⟩, ⟨false, 0, 0⟩] }

/-- The state an outcome goes on with; the old one where it stops. -/
def after (s : State) (o : Host.Outcome State Fault Refusal) : State :=
  match o with
  | .next t => t
  | _ => s

/-- What a command emits from a state. -/
def eventsOf (i : Instr) (s : State) : List Event := (after s (exec i s)).events

/-- What a command answers. -/
def answerOf (i : Instr) (s : State) : List Response := (after s (exec i s)).responses

/-- ECHO of 95_test_vectors.md. -/
def echo : Bytes :=
  [0x08, 0x00, 0x80, 0x63, 0x00, 0x01, 0x00, 0x02, 0xAA, 0xBB, 0xCC, 0xDD]

/-- DG of 95_test_vectors.md. -/
def datagram : Bytes :=
  [0x45, 0x00, 0x00, 0x20, 0x1C, 0x46, 0x00, 0x00, 0x40, 0x01, 0xDB, 0x43, 0xC0, 0xA8, 0x01, 0x01, 0xC0, 0xA8, 0x01, 0x02, 0x08, 0x00, 0x80, 0x63, 0x00, 0x01, 0x00, 0x02, 0xAA, 0xBB, 0xCC, 0xDD]

/-- REPLY_DG of 95_test_vectors.md. -/
def replyDatagram : Bytes :=
  [0x45, 0x00, 0x00, 0x20, 0x00, 0x00, 0x00, 0x00, 0x40, 0x01, 0xF7, 0x89, 0xC0, 0xA8, 0x01, 0x02, 0xC0, 0xA8, 0x01, 0x01, 0x00, 0x00, 0x88, 0x63, 0x00, 0x01, 0x00, 0x02, 0xAA, 0xBB, 0xCC, 0xDD]

/-- ARP_REP of 95_test_vectors.md. -/
def arpReplyMsg : Bytes :=
  [0x00, 0x01, 0x08, 0x00, 0x06, 0x04, 0x00, 0x02, 0x02, 0x00, 0x00, 0x00, 0x00, 0xAA, 0xC0, 0xA8, 0x01, 0x01, 0x02, 0x00, 0x00, 0x00, 0x00, 0x01, 0xC0, 0xA8, 0x01, 0x02]

/-- ARP_REQ of 95_test_vectors.md. -/
def arpRequestMsg : Bytes :=
  [0x00, 0x01, 0x08, 0x00, 0x06, 0x04, 0x00, 0x01, 0x02, 0x00, 0x00, 0x00, 0x00, 0xAA, 0xC0, 0xA8, 0x01, 0x01, 0x00, 0x00, 0x00, 0x00, 0x00, 0x00, 0xC0, 0xA8, 0x01, 0x02]

/-- ARP_ANS of 95_test_vectors.md. -/
def arpAnswerMsg : Bytes :=
  [0x00, 0x01, 0x08, 0x00, 0x06, 0x04, 0x00, 0x02, 0x02, 0x00, 0x00, 0x00, 0x00, 0x01, 0xC0, 0xA8, 0x01, 0x02, 0x02, 0x00, 0x00, 0x00, 0x00, 0xAA, 0xC0, 0xA8, 0x01, 0x01]

/-- SEG7 of 95_test_vectors.md. -/
def seg7 : Bytes :=
  [0x03, 0xE8, 0x00, 0x07, 0x00, 0x0A, 0x10, 0x2E, 0x68, 0x69]

/-- SEG9 of 95_test_vectors.md. -/
def seg9 : Bytes :=
  [0x03, 0xE8, 0x00, 0x09, 0x00, 0x0A, 0x10, 0x2C, 0x68, 0x69]

/-- The request the block broadcasts for the peer's address (41_arp.md R185, example). -/
def peerRequest : Bytes :=
  [0x00, 0x01, 0x08, 0x00, 0x06, 0x04, 0x00, 0x01, 0x02, 0x00, 0x00, 0x00, 0x00, 0x01, 0xC0, 0xA8, 0x01, 0x02, 0x00, 0x00, 0x00, 0x00, 0x00, 0x00, 0xC0, 0xA8, 0x01, 0x01]

/-! Decoding: for every command a descriptor written out from R101 to R107. -/

/-- What the decoder answers for four words and a packet. -/
def decodes (w0 w1 w2 w3 : Word) (pkt : Bytes) : Option Instr :=
  (decode Params.vectors ⟨w0, w1, w2, w3, pkt⟩).toOption

theorem test_decode_nop : decodes 0x00000000 0 0 0 [] = some (.nop) := by decide
theorem test_decode_csum : decodes 0x10000000 0 0 0 [0xAB] = some (.csum [0xAB]) := by decide
theorem test_decode_arp_init : decodes 0x20000000 0 0 0 [] = some (.arpInit) := by decide
theorem test_decode_arp_update : decodes 0x21000000 0xC0A80101 0x02000000 0x00AA0000 [] = some (.arpUpdate 0xC0A80101 0x0200000000AA) := by decide
theorem test_decode_arp_lookup : decodes 0x22000000 0xC0A80101 0 0 [] = some (.arpLookup 0xC0A80101) := by decide
theorem test_decode_arp_request : decodes 0x23000000 0xC0A80101 0 0 [] = some (.arpRequest 0xC0A80101) := by decide
theorem test_decode_arp_resolve : decodes 0x24000800 0xC0A80101 0 0 [0xAB] = some (.arpResolve 0xC0A80101 0x0800 [0xAB]) := by decide
theorem test_decode_arp_in : decodes 0x25000000 0 0 0 [0x00] = some (.arpIn [0x00]) := by decide
theorem test_decode_ip_in : decodes 0x30000000 0 0 0 [0x45] = some (.ipIn [0x45]) := by decide
theorem test_decode_ip_frag : decodes 0x311180B9 0xC0A80101 0x00001234 0 [0xDE] = some (.ipFrag 0xC0A80101 17 0x1234 185 true [0xDE]) := by decide
theorem test_decode_ip_send : decodes 0x32630000 0xC0A80101 0 0 [] = some (.ipSend 0xC0A80101 99 []) := by decide
theorem test_decode_icmp_in : decodes 0x40000000 0xC0A80101 0 0 [0x08] = some (.icmpIn 0xC0A80101 [0x08]) := by decide
theorem test_decode_icmp_unreach : decodes 0x41030000 0xC0A80101 0 0 [0x45] = some (.icmpUnreach 0xC0A80101 3 [0x45]) := by decide
theorem test_decode_udp_in : decodes 0x50000000 0xC0A80101 0 0 [0x03] = some (.udpIn 0xC0A80101 [0x03]) := by decide
theorem test_decode_udp_send : decodes 0x510003E8 0xC0A80101 0x00000007 0 [0x68] = some (.udpSend 1000 0xC0A80101 7 [0x68]) := by decide
theorem test_decode_udp_open : decodes 0x52000007 0x00000077 0 0 [] = some (.udpOpen 7 0x77) := by decide
theorem test_decode_udp_close : decodes 0x53000007 0 0 0 [] = some (.udpClose 7) := by decide
theorem test_decode_udp_pcsum : decodes 0x54000000 0xC0A80101 0xC0A80102 0 [0x03] = some (.udpPcsum 0xC0A80101 0xC0A80102 [0x03]) := by decide
theorem test_decode_eth_rx : decodes 0x60000000 0 0 0 [0xFF] = some (.ethRx [0xFF]) := by decide
theorem test_decode_reg_rd : decodes 0x70000015 0 0 0 [] = some (.regRd 0x0015) := by decide
theorem test_decode_reg_wr : decodes 0x71000002 0x00010000 0 0 [] = some (.regWr 0x0002 0x00010000) := by decide

/-! Rejections (R108), in its order, and the boundary of MAX_PKT (R106). -/

theorem test_reject_reserved_opcode :
    decode Params.vectors ⟨0x01000001, 1, 0, 0, [0]⟩ = .error .reservedOpcode := by rfl
theorem test_reject_w0_bit : decode Params.vectors ⟨0x53010007, 1, 0, 0, [0]⟩ = .error .reservedW0Bit := by rfl
theorem test_reject_frag_bit : decode Params.vectors ⟨0x31112000, 1, 0, 0, []⟩ = .error .reservedW0Bit := by rfl
theorem test_reject_operand_bit : decode Params.vectors ⟨0x53000007, 0, 0, 1, [0]⟩ = .error .reservedOperandBit := by rfl
theorem test_reject_packet : decode Params.vectors ⟨0x53000007, 0, 0, 0, [0]⟩ = .error .packetNotTaken := by rfl
/-- V-CS-12: a packet one byte above MAX_PKT, on an instance with MAX_PKT = 3000. -/
theorem test_reject_long_packet :
    decode { Params.vectors with maxPkt := 3000 } ⟨0x10000000, 0, 0, 0, zeros 3001⟩ = .error .packetTooLong := by
  decide +kernel

/-! WellFormed: its one check refuses a packet one byte too long and admits the longest one. -/

theorem test_wf_refuses_long_packet : (Instr.csum (zeros 3001)).wf { Params.vectors with maxPkt := 3000 } = false := by
  rw [Instr.wf, Instr.packet, Laws.length_zeros]
  decide
theorem test_wf_admits_longest_packet : (Instr.csum (zeros 3000)).wf { Params.vectors with maxPkt := 3000 } = true := by
  rw [Instr.wf, Instr.packet, Laws.length_zeros]
  decide

/-! The numbering of the opcode table's bits, and the first step from reset. -/

/-- V-REG-01's REG_RD 0x010 as the first instruction after reset: ARP_CAPACITY. -/
theorem test_first_step_reg_rd :
    (after State.reset (step (State.reset.withFetchWord 128 0x70000010))).responses = [⟨.ok, 8⟩] := by decide
theorem test_table_word_arp_update :
    decodeTableWord 128 0x00AA000002000000C0A8010121000000 = some (.arpUpdate 0xC0A80101 0x0200000000AA) := by decide

/-! Meanings. -/


/-- R330, example. -/
theorem test_nop :
    answerOf .nop peered = [⟨.ok, 0⟩] := by decide +kernel
/-- V-CS-01. -/
theorem test_csum_rfc1071 :
    answerOf (.csum [0x00, 0x01, 0xF2, 0x03, 0xF4, 0xF5, 0xF6, 0xF7]) peered = [⟨.ok, 0x220D⟩] := by decide +kernel
/-- V-CS-06: an odd length. -/
theorem test_csum_odd :
    answerOf (.csum [0x00, 0x01, 0xF2, 0x03, 0xF4, 0xF5, 0xF6]) peered = [⟨.ok, 0x2304⟩] := by decide +kernel
/-- R193, example. -/
theorem test_arp_init :
    eventsOf .arpInit peered =
      [.tx 0xFFFFFFFFFFFF 0x0806 [0x00, 0x01, 0x08, 0x00, 0x06, 0x04, 0x00, 0x01, 0x02, 0x00, 0x00, 0x00, 0x00, 0x01, 0xC0, 0xA8, 0x01, 0x02, 0x00, 0x00, 0x00, 0x00, 0x00, 0x00, 0xC0, 0xA8, 0x01, 0x02]] := by decide +kernel
/-- R181, example: an empty cache at time 5. -/
theorem test_arp_update :
    (after booted (exec (.arpUpdate peerIp peerHw) { booted with timeNow := 5 })).arp =
      [⟨.valid, 0xC0A80101, 0x0200000000AA, 5⟩, ⟨.invalid, 0, 0, 0⟩] := by decide +kernel
/-- R180: a full cache; the entry of age 301 expires, the one of age 300 stays, though it is the older slot. -/
theorem test_arp_update_expiry :
    (after booted (exec (.arpUpdate 3 3) { booted with timeNow := 301, arp := [⟨.valid, 1, 1, 1⟩, ⟨.valid, 2, 2, 0⟩] })).arp =
      [⟨.valid, 1, 1, 1⟩, ⟨.valid, 3, 3, 301⟩] := by decide +kernel
/-- R183, example. -/
theorem test_arp_lookup :
    answerOf (.arpLookup peerIp) peered = [⟨.ok, 0x00010200000000AA⟩] := by decide +kernel
/-- R185, example. -/
theorem test_arp_request :
    eventsOf (.arpRequest peerIp) peered = [.tx 0xFFFFFFFFFFFF 0x0806 peerRequest] := by decide +kernel
/-- R187, example: a miss. -/
theorem test_arp_resolve_miss :
    (after booted (exec (.arpResolve peerIp 0x0800 [0xAB]) booted)).pend = ⟨true, 0xC0A80101, 0x0800, [0xAB]⟩ := by decide +kernel
/-- V-ARP-06: a hit. -/
theorem test_arp_resolve_hit :
    eventsOf (.arpResolve peerIp 0x0800 [0xCD]) peered = [.tx 0x0200000000AA 0x0800 [0xCD]] := by decide +kernel
/-- V-ARP-06: a reply drains the slot. -/
theorem test_arp_in_reply :
    eventsOf (.arpIn arpReplyMsg) { booted with pend := ⟨true, 1, 0x0800, [0xAB]⟩ } =
      [.tx 0x0200000000AA 0x0800 [0xAB]] := by decide +kernel
/-- V-ARP-07: a request for the block. -/
theorem test_arp_in_request :
    eventsOf (.arpIn arpRequestMsg) booted = [.tx 0x0200000000AA 0x0806 arpAnswerMsg] := by decide +kernel
/-- V-IP-01. -/
theorem test_ip_in_echo :
    eventsOf (.ipIn datagram) peered = [.tx 0x0200000000AA 0x0800 replyDatagram] := by decide +kernel
/-- V-IP-02: a bad header checksum. -/
theorem test_ip_in_bad_checksum :
    after peered (exec (.ipIn (datagram.set 11 0x42)) peered) = answered peered .ok 0 := by decide +kernel
/-- V-IP-05. -/
theorem test_ip_frag :
    eventsOf (.ipFrag peerIp 17 0x1234 185 true [0xDE, 0xAD, 0xBE, 0xEF]) peered =
      [.tx 0x0200000000AA 0x0800
        [0x45, 0x00, 0x00, 0x18, 0x12, 0x34, 0x20, 0xB9, 0x40, 0x11, 0xC4, 0x94, 0xC0, 0xA8, 0x01, 0x02, 0xC0, 0xA8, 0x01, 0x01, 0xDE, 0xAD, 0xBE, 0xEF]] := by decide +kernel
/-- V-IP-07: the identifier 0xFFFF and an empty payload. -/
theorem test_ip_send_empty :
    eventsOf (.ipSend peerIp 99 []) { peered with fragId := 0xFFFF } =
      [.tx 0x0200000000AA 0x0800 [0x45, 0x00, 0x00, 0x14, 0xFF, 0xFF, 0x00, 0x00, 0x40, 0x63, 0xF7, 0x33, 0xC0, 0xA8, 0x01, 0x02, 0xC0, 0xA8, 0x01, 0x01]] := by decide +kernel
/-- V-IP-08: 1481 bytes give two datagrams. -/
theorem test_ip_send_two :
    (eventsOf (.ipSend peerIp 17 (zeros 1481)) peered).length = 2 := by decide +kernel
/-- V-ICMP-01. -/
theorem test_icmp_in_echo :
    eventsOf (.icmpIn peerIp echo) peered = [.tx 0x0200000000AA 0x0800 replyDatagram] := by decide +kernel
/-- V-ICMP-02: shorter than 8 bytes. -/
theorem test_icmp_in_short :
    after peered (exec (.icmpIn peerIp (echo.take 7)) peered) = answered peered .ok 0 := by decide +kernel
/-- V-ICMP-07a: a short datagram is zero-filled. -/
theorem test_icmp_unreach :
    eventsOf (.icmpUnreach peerIp 2 [0x45, 0x00, 0x00, 0x14]) peered =
      [.tx 0x0200000000AA 0x0800
        ([0x45, 0x00, 0x00, 0x38, 0x00, 0x00, 0x00, 0x00, 0x40, 0x01, 0xF7, 0x71, 0xC0, 0xA8, 0x01, 0x02, 0xC0, 0xA8, 0x01, 0x01] ++
          [0x03, 0x02, 0xB7, 0xE9, 0x00, 0x00, 0x00, 0x00, 0x45, 0x00, 0x00, 0x14] ++ zeros 24)] := by decide +kernel
/-- V-UDP-02. -/
theorem test_udp_in_deliver :
    eventsOf (.udpIn peerIp seg7) opened = [.deliver 0x77 0xC0A80101 1000 [0x68, 0x69]] := by decide +kernel
/-- V-UDP-04: a closed port; the header bytes in front are zero. -/
theorem test_udp_in_closed :
    eventsOf (.udpIn peerIp seg9) opened =
      [.tx 0x0200000000AA 0x0800
        ([0x45, 0x00, 0x00, 0x38, 0x00, 0x00, 0x00, 0x00, 0x40, 0x01, 0xF7, 0x71, 0xC0, 0xA8, 0x01, 0x02, 0xC0, 0xA8, 0x01, 0x01] ++
          [0x03, 0x03, 0xE8, 0xD5, 0x00, 0x00, 0x00, 0x00] ++ zeros 20 ++ [0x03, 0xE8, 0x00, 0x09, 0x00, 0x0A, 0x10, 0x2C])] := by decide +kernel
/-- V-UDP-09a. -/
theorem test_udp_send :
    eventsOf (.udpSend 1000 peerIp 7 [0x68, 0x69]) peered =
      [.tx 0x0200000000AA 0x0800
        ([0x45, 0x00, 0x00, 0x1E, 0x00, 0x00, 0x00, 0x00, 0x40, 0x11, 0xF7, 0x7B, 0xC0, 0xA8, 0x01, 0x02, 0xC0, 0xA8, 0x01, 0x01] ++
          [0x03, 0xE8, 0x00, 0x07, 0x00, 0x0A, 0x10, 0x2E, 0x68, 0x69])] := by decide +kernel
/-- V-UDP-07: a full table takes no new port. -/
theorem test_udp_open_full :
    answerOf (.udpOpen 3 1) { peered with udp := [⟨true, 1, 0⟩, ⟨true, 2, 0⟩] } = [⟨.fail, 0⟩] := by decide +kernel
/-- R286: the lowest free slot. -/
theorem test_udp_open :
    (after peered (exec (.udpOpen 7 0x77) peered)).udp = [⟨true, 7, 0x77⟩, ⟨false, 0, 0⟩] := by decide +kernel
/-- R287, example. -/
theorem test_udp_close :
    (after opened (exec (.udpClose 7) opened)).udp = [⟨false, 0, 0⟩, ⟨false, 0, 0⟩] := by decide +kernel
/-- V-UDP-01b. -/
theorem test_udp_pcsum :
    answerOf (.udpPcsum peerIp localIp [0x03, 0xE8, 0x00, 0x07, 0x00, 0x0A, 0x00, 0x00, 0x68, 0x69]) peered = [⟨.ok, 0x102E⟩] := by decide +kernel
/-- V-UDP-01c. -/
theorem test_udp_pcsum_short :
    answerOf (.udpPcsum peerIp localIp (seg7.take 7)) peered = [⟨.length, 0⟩] := by decide +kernel
/-- V-ETH-01: the source is learned before the reply is routed. -/
theorem test_eth_rx_echo :
    eventsOf (.ethRx (bytes48 localMac ++ bytes48 peerHw ++ [0x08, 0x00] ++ datagram)) booted =
      [.tx 0x0200000000AA 0x0800 replyDatagram] := by decide +kernel
/-- V-ETH-04: a datagram that is dropped has still taught the cache its source. -/
theorem test_eth_rx_learns :
    (after booted (exec (.ethRx (bytes48 localMac ++ bytes48 peerHw ++ [0x08, 0x00] ++ datagram.set 11 0x42))
      { booted with timeNow := 9 })).arp =
      [⟨.valid, 0xC0A80101, 0x0200000000AA, 9⟩, ⟨.invalid, 0, 0, 0⟩] := by decide +kernel
/-- V-REG-02: a reserved register. -/
theorem test_reg_rd_reserved :
    answerOf (.regRd 0x005) peered = [⟨.illegal, 0⟩] := by decide +kernel
/-- R36. -/
theorem test_reg_rd_local_mac_1 :
    answerOf (.regRd 0x002) peered = [⟨.ok, 0x00010000⟩] := by decide +kernel
/-- V-REG-03: bits [15:0] of LOCAL_MAC_1 ignore the write. -/
theorem test_reg_wr_local_mac_1 :
    regRead (after peered (exec (.regWr 0x002 0xFFFFFFFF) peered)) 0x002 = some 0xFFFF0000 := by decide +kernel
/-- V-REG-02: ENGINE_STATUS is read-only. -/
theorem test_reg_wr_read_only :
    answerOf (.regWr 0x004 1) peered = [⟨.illegal, 0⟩] := by decide +kernel

/-! The assembler (R114 to R118). -/

/-- R118's first example, in small letters and with a comment. -/
theorem test_assemble_arp_update :
    assemble "arp_update 192.168.1.1, 02:00:00:00:00:aa ; learn".toList =
      some [.command ⟨0x21000000, 0xC0A80101, 0x02000000, 0x00AA0000, []⟩ 0] := by decide +kernel
/-- R116, R117: a time directive and a pseudo-instruction. -/
theorem test_assemble_set_mac :
    assemble ".time 5\nSET_MAC 02:00:00:00:00:01".toList =
      some [.command ⟨0x71000001, 0x02000000, 0, 0, []⟩ 5, .command ⟨0x71000002, 0x00010000, 0, 0, []⟩ 5] := by
  decide +kernel

/-! Witnesses: for every statement with hypotheses, values that meet them together; for one with several clauses, values for
each, at the boundaries. -/

/-- The block with one command presented at time 5. -/
def presenting (c : Command) : State := { peered with inputs := [.command c 5] }

/-- A descriptor with only W0 set, and no packet. -/
def onlyW0 (w0 : Word) : Command := ⟨w0, 0, 0, 0, []⟩

theorem test_witness_decode_of_encode :
    (Instr.ipFrag 0xFFFFFFFF 0xFF 0xFFFF 0x1FFF true [0xFF]).wf Params.vectors = true := by decide
theorem test_witness_encode_of_decode :
    decode Params.vectors ⟨0x311180B9, 0xC0A80101, 0x00001234, 0, [0xDE]⟩ =
      .ok (.ipFrag 0xC0A80101 17 0x1234 185 true [0xDE]) := by rfl
theorem test_witness_reserved_opcodes :
    (∀ n ∈ [0x01, 0x0F, 0x11, 0x1F, 0x26, 0x2F, 0x33, 0x3F, 0x42, 0x4F, 0x55, 0x5F, 0x61, 0x6F, 0x72, 0xFF], reservedOpc n) ∧
      (presenting (onlyW0 0xFF000000)).inputs = .command (onlyW0 0xFF000000) 5 :: [] ∧
      reservedOpc ((onlyW0 0xFF000000).w0.toNat / 2 ^ 24) := by decide

/-- The row of UDP_CLOSE and the row of CSUM. -/
def closeRow : Row := ⟨0x53, .udpClose, .a16, allZero, allZero, allZero, false⟩
def csumRow : Row := ⟨0x10, .csum, .n, allZero, allZero, allZero, true⟩

theorem test_witness_rejected_rows :
    closeRow ∈ opcodeMap ∧ closeRow.opc = opcOf 0x53010007 ∧ csumRow ∈ opcodeMap ∧ csumRow.opc = opcOf 0x10000000 := by
  decide
theorem test_witness_rejected_w0 : (0x53010007 : Word) &&& closeRow.format.mustBeZero ≠ 0 := by decide
theorem test_witness_rejected_operand :
    (0x53000007 : Word) &&& closeRow.format.mustBeZero = 0 ∧ (1 : Word) &&& closeRow.w3Zero ≠ 0 := by decide
theorem test_witness_rejected_packet :
    (0x53000007 : Word) &&& closeRow.format.mustBeZero = 0 ∧ (0 : Word) &&& closeRow.w1Zero = 0 ∧
      (0 : Word) &&& closeRow.w2Zero = 0 ∧ (0 : Word) &&& closeRow.w3Zero = 0 ∧ closeRow.pkt = false ∧
      ([0] : Bytes) ≠ [] := by decide
/-- MAX_PKT and one byte more. -/
theorem test_witness_rejected_length :
    (0x10000000 : Word) &&& csumRow.format.mustBeZero = 0 ∧ (0 : Word) &&& csumRow.w1Zero = 0 ∧
      (0 : Word) &&& csumRow.w2Zero = 0 ∧ (0 : Word) &&& csumRow.w3Zero = 0 ∧ csumRow.pkt = true ∧
      peered.params.maxPkt < (zeros 65536).length ∧ (zeros 65535).length ≤ peered.params.maxPkt := by
  simp only [Laws.length_zeros]
  decide

theorem test_witness_step_runs :
    (presenting (onlyW0 0x52000007)).inputs = .command (onlyW0 0x52000007) 5 :: [] ∧
      decode (presenting (onlyW0 0x52000007)).params (onlyW0 0x52000007) = .ok (.udpOpen 7 0) := ⟨rfl, rfl⟩
theorem test_witness_reset_input : ({ peered with inputs := [.reset] } : State).inputs = .reset :: [] := rfl
theorem test_witness_idle : State.reset.inputs = [] := rfl

/-- Valid instances at the ends of R5's ranges, and a state of one from which a command runs. -/
theorem test_witness_invariants :
    (⟨1, 0, 1, 0, 3000, true⟩ : Params).Valid ∧ (⟨2 ^ 32 - 1, 0, 2 ^ 32 - 1, 255, 65535, false⟩ : Params).Valid ∧
      (presenting (onlyW0 0x52000007)).params.Valid ∧ Inv (presenting (onlyW0 0x52000007)) ∧ Inv opened ∧
      step (presenting (onlyW0 0x52000007)) =
        .next (answered { peered with timeNow := 5, udp := [⟨true, 7, 0⟩, ⟨false, 0, 0⟩] } .ok 0) :=
  ⟨by decide, by decide, by decide, by decide, by decide, rfl⟩
theorem test_witness_error_status :
    step (presenting (onlyW0 0xFF000000)) = .next (answered { peered with timeNow := 5 } .illegal 0) ∧
      (answered { peered with timeNow := 5 } .illegal 0).responses = peered.responses ++ [⟨.illegal, 0⟩] ∧
      Status.illegal ≠ .ok := ⟨rfl, rfl, by decide⟩

/-- One command of each shape that a frame statement speaks of completes, and some command is outside every class. -/
theorem test_witness_frames :
    exec .nop peered = .next (answered peered .ok 0) ∧ writesAddress .nop = false ∧ writesCache .nop = false ∧
      writesTable .nop = false ∧ writesFragId .nop = false ∧ writesPend .nop = false ∧ emitsEvents .nop = false ∧
      readsTime .nop = false := ⟨rfl, rfl, rfl, rfl, rfl, rfl, rfl, rfl⟩
theorem test_witness_tx_event :
    exec (.arpResolve peerIp 0x0800 [0xAB]) peered =
      .next (answered (emitted peered [.tx peerHw 0x0800 [0xAB]]) .ok 0) := by rfl
theorem test_witness_frag_id :
    (∃ t, exec (.ipSend peerIp 17 []) peered = .next t) ∧ (∃ t, exec (.icmpUnreach peerIp 3 []) peered = .next t) ∧
      (∃ t, exec (.udpSend 1 peerIp 2 (zeros 65527)) peered = .next t) ∧ (zeros 65527).length ≤ 65527 := by
  refine ⟨⟨_, by rw [exec, execIpSend, Laws.complete_ok]⟩, ⟨_, by rw [exec, execIcmpUnreach, Laws.complete_ok]⟩,
    ⟨respond (udpSend peered (load (zeros 65527)) 1 peerIp 2) .ok 0, ?_⟩, by simp⟩
  rw [exec, execUdpSend, Laws.length_zeros, if_neg (by decide), Laws.complete_ok]
theorem test_witness_unique_ports : uniquePorts opened.udp ∧ step opened = .next opened := ⟨by decide, rfl⟩

theorem test_witness_odd_string : ([] : Bytes).length % 2 = 0 ∧ ([1, 2] : Bytes).length % 2 = 0 := by decide
theorem test_witness_checksum_properties :
    0 % 2 = 0 ∧ 0 + 2 ≤ ([1, 2] : Bytes).length ∧ ([1, 2] : List Half).Perm [2, 1] := by decide
theorem test_witness_register_reads :
    peered.params.Valid ∧
      (0x005 : Half) ∉
        ([0x000, 0x001, 0x002, 0x003, 0x004, 0x010, 0x011, 0x012, 0x013, 0x014, 0x015] : List Half) ∧
      (0x016 : Half) ∉
        ([0x000, 0x001, 0x002, 0x003, 0x004, 0x010, 0x011, 0x012, 0x013, 0x014, 0x015] : List Half) := by decide
theorem test_witness_register_writes :
    ((0x003, 0x0000FFFF) : Half × Word) ∈
        ([(0x000, 0xFFFFFFFF), (0x001, 0xFFFFFFFF), (0x002, 0xFFFF0000), (0x003, 0x0000FFFF)] : List (Half × Word)) ∧
      (0x004 : Half) ∉ ([0x000, 0x001, 0x002, 0x003] : List Half) := by decide

/-- A hit in the first slot, and no entry with the address. -/
theorem test_witness_lookup :
    peered.arp[0]? = some ⟨.valid, peerIp, peerHw, 0⟩ ∧
      (∀ e ∈ peered.arp, ¬(e.state = .valid ∧ e.ip = 3)) := by decide
theorem test_witness_update : booted.arp ≠ [] ∧ ∀ e ∈ booted.arp, ¬(e.state = .valid ∧ e.ip = peerIp) := by decide
/-- At time 301 an entry of time 0 has expired and one of time 1 has not. -/
theorem test_witness_expiry :
    (localIp ≠ peerIp ∧ ∀ e ∈ ({ peered with timeNow := 301 } : State).arp, e.ip = peerIp →
        ({ peered with timeNow := 301 } : State).params.arpTimeout + e.ts < 301) ∧
      ({ peered with timeNow := 300 } : State).arp[0]? = some ⟨.valid, peerIp, peerHw, 0⟩ ∧ 300 ≤ 300 + 0 ∧
      peered.arp ≠ [] ∧ updateIndex (arpSweep peered.params.arpTimeout 300 peered.arp) = 1 := by decide

/-- Each clause of ARP_IN: a message one byte short, a reply with the slot occupied, a request for the block, one for another
host. -/
theorem test_witness_arp_in :
    ¬arpProfile (arpReplyMsg.take 27) ∧
      (arpProfile arpReplyMsg ∧ be16 arpReplyMsg 6 = 2 ∧
        ({ booted with pend := ⟨true, 1, 0x0800, [0xAB]⟩ } : State).pend.valid = true) ∧
      (arpProfile arpRequestMsg ∧ be16 arpRequestMsg 6 = 1 ∧ be32 arpRequestMsg 24 = booted.localIp) ∧
      (arpProfile (arpRequestMsg.set 27 9) ∧ be16 (arpRequestMsg.set 27 9) 6 = 1 ∧
        be32 (arpRequestMsg.set 27 9) 24 ≠ booted.localIp) := by decide
theorem test_witness_second_miss :
    arpLookup booted.arp 0x0A000001 = none ∧ arpLookup booted.arp 0x0A000002 = none ∧ arpProfile arpReplyMsg ∧
      be16 arpReplyMsg 6 = 2 := by decide

theorem test_witness_ip_frag : 65515 < (zeros 65516).length ∧ (zeros 65515).length ≤ 65515 := by
  simp only [Laws.length_zeros]
  decide
theorem test_witness_ip_send : (zeros 65535).length ≤ 65535 ∧ arpLookup peered.arp peerIp = some peerHw := by
  simp only [Laws.length_zeros]
  decide
theorem test_witness_ip_send_miss : (zeros 1481).length ≤ 65535 ∧ arpLookup booted.arp peerIp = none := by
  simp only [Laws.length_zeros]
  decide

/-- Protocol-Unreachable's datagram of V-IP-04, and a UDP datagram to port 7 around SEG7. -/
def tcpDatagram : Bytes :=
  [0x45, 0x00, 0x00, 0x1C, 0x00, 0x07, 0x00, 0x00, 0x40, 0x06, 0xF7, 0x81, 0xC0, 0xA8, 0x01, 0x01, 0xC0, 0xA8, 0x01, 0x02,
    0x01, 0x02, 0x03, 0x04, 0x05, 0x06, 0x07, 0x08]
def udpDatagram : Bytes :=
  put16 [0x45, 0x00, 0x00, 0x1E, 0x00, 0x00, 0x00, 0x00, 0x40, 0x11, 0x00, 0x00, 0xC0, 0xA8, 0x01, 0x01, 0xC0, 0xA8, 0x01,
    0x02] 10 0xF77B ++ seg7
/-- V-IP-02's variants with total lengths 1500 and 1501, their checksums recomputed. -/
def total1500 : Bytes := put16 (put16 datagram 2 1500) 10 0xD587
def total1501 : Bytes := put16 (put16 datagram 2 1501) 10 0xD586

/-- One rejected datagram for each check of R220, and accepted ones at the other side of a boundary. -/
theorem test_witness_ip_rejects :
    (∀ w ∈ [datagram.take 19, datagram.set 0 0x65, datagram.set 0 0x44, (datagram.set 0 0x46).take 23, datagram.set 1 0x01,
      total1501, datagram.set 11 0x42], ipRejects localIp w) ∧ ipRejects peerIp datagram := by decide +kernel
theorem test_witness_ip_accepts : ¬ipRejects localIp total1500 ∧ ¬ipRejects localIp datagram := by decide +kernel
theorem test_witness_ip_dispatch :
    (¬ipRejects peered.localIp datagram ∧ byteAt datagram 9 = 1) ∧
      (¬ipRejects opened.localIp udpDatagram ∧ byteAt udpDatagram 9 = 17 ∧
        ∃ u ∈ opened.udp, u.valid = true ∧ u.port = be16 ((trimmed opened.params udpDatagram).drop (headerLen udpDatagram)) 2) ∧
      (¬ipRejects peered.localIp tcpDatagram ∧ byteAt tcpDatagram 9 ≠ 1 ∧ byteAt tcpDatagram 9 ≠ 17) := by decide +kernel
/-- The same UDP datagram on a block with no port open, as it is and with its last byte changed. -/
theorem test_witness_closed_port :
    ¬ipRejects peered.localIp udpDatagram ∧ byteAt udpDatagram 9 = 17 ∧
      (∀ u ∈ peered.udp, u.valid = true → u.port ≠ be16 ((trimmed peered.params udpDatagram).drop (headerLen udpDatagram)) 2) ∧
      udpVerifies peered.localIp (be32 udpDatagram 12) ((trimmed peered.params udpDatagram).drop (headerLen udpDatagram)) ∧
      headerLen udpDatagram = 20 ∧ ¬ipRejects peered.localIp (udpDatagram.set 29 0) ∧
      ¬udpVerifies peered.localIp (be32 (udpDatagram.set 29 0) 12)
        ((trimmed peered.params (udpDatagram.set 29 0)).drop (headerLen (udpDatagram.set 29 0))) := by decide +kernel

theorem test_witness_echo :
    (8 ≤ (echo.take 8).length ∧ byteAt (echo.take 8) 0 = 8 ∧ byteAt (echo.take 8) 1 = 0) ∧
      ¬(8 ≤ (echo.take 7).length ∧ byteAt (echo.take 7) 0 = 8 ∧ byteAt (echo.take 7) 1 = 0) := by decide
theorem test_witness_pcsum : (seg7.take 7).length < 8 ∧ 8 ≤ (seg7.take 8).length := by decide
theorem test_witness_udp_send : 65527 < (zeros 65528).length ∧ (zeros 65527).length ≤ 65527 := by
  simp only [Laws.length_zeros]
  decide
/-- A segment with a wrong checksum, one for an open port, one for a closed port. -/
theorem test_witness_udp_in :
    ¬udpVerifies opened.localIp peerIp (seg7.set 7 0x2F) ∧ udpVerifies opened.localIp peerIp seg7 ∧
      uniquePorts opened.udp ∧ (⟨true, 7, 0x77⟩ : UdpSlot) ∈ opened.udp ∧ be16 seg7 2 = 7 ∧
      udpVerifies opened.localIp peerIp seg9 ∧ ∀ u ∈ opened.udp, u.valid = true → u.port ≠ be16 seg9 2 := by decide +kernel

/-- A full table, as its list. -/
def fullTable : List UdpSlot := [⟨true, 1, 0⟩, ⟨true, 2, 0⟩]

/-- A registered port; a new port with the lowest free slot behind a used one; a new port and a full table. -/
theorem test_witness_udp_open :
    (uniquePorts opened.udp ∧ opened.udp[0]? = some ⟨true, 7, 0x77⟩) ∧
      ((∀ u ∈ opened.udp, u.valid = true → u.port ≠ 9) ∧ opened.udp[1]? = some ⟨false, 0, 0⟩) ∧
      ((∀ u ∈ fullTable, u.valid = true → u.port ≠ 9) ∧ ∀ u ∈ fullTable, u.valid = true) := by decide
/-- Nothing stands before the first slot; a used slot stands before the second. -/
theorem test_witness_udp_open_lowest :
    (∀ (k : Nat) (v : UdpSlot), k < 1 → opened.udp[k]? = some v → v.valid = true) ∧
      ∀ (j : Nat) (d : ArpEntry), j < 0 → peered.arp[j]? = some d → ¬(d.state = .valid ∧ d.ip = peerIp) := by
  refine ⟨fun k v hk hv => ?_, fun j d hj => absurd hj (Nat.not_lt_zero j)⟩
  obtain rfl : k = 0 := by omega
  cases hv
  rfl
theorem test_witness_udp_close :
    (uniquePorts opened.udp ∧ opened.udp[0]? = some ⟨true, 7, 0x77⟩) ∧
      ∀ u ∈ opened.udp, u.valid = true → u.port ≠ 9 := by decide
/-- The longest payload, a cached destination, and a block that has the port open. -/
theorem test_witness_sent_payload :
    (zeros 1472).length ≤ 1472 ∧ arpLookup peered.arp peerIp = some peerHw ∧
      ({ opened with localIp := peerIp } : State).localIp = peerIp ∧ uniquePorts opened.udp ∧
      (⟨true, 7, 0x77⟩ : UdpSlot) ∈ opened.udp := by
  simp only [Laws.length_zeros]
  decide

/-- A link header of the given type. -/
def linkHeader (ty : Half) : Bytes := bytes48 localMac ++ bytes48 peerHw ++ bytes16 ty

/-- A frame one byte short, one of another type, an ARP frame, and IPv4 frames with 19 and 20 bytes of payload. -/
theorem test_witness_eth_rx :
    ((linkHeader 0x0800).take 13).length < 14 ∧
      (be16 (linkHeader 0x86DD) 12 ≠ 0x0806 ∧ be16 (linkHeader 0x86DD) 12 ≠ 0x0800) ∧
      (14 ≤ (linkHeader 0x0806).length ∧ be16 (linkHeader 0x0806) 12 = 0x0806) ∧
      (be16 (linkHeader 0x0800 ++ datagram.take 19) 12 = 0x0800 ∧ (linkHeader 0x0800 ++ datagram.take 19).length < 34) ∧
      (be16 (linkHeader 0x0800 ++ datagram.take 20) 12 = 0x0800 ∧ 34 ≤ (linkHeader 0x0800 ++ datagram.take 20).length) := by
  decide

end Sys2Proof.Tests
end

section
/-! PROOFS. What the output path emits, and what inbound UDP and IP packets make the block do. -/

namespace Sys2Proof.Proofs

open Sys2Proof Sys2Proof.Machine Sys2Proof.Safety Sys2Proof.Laws

/-! The frames of the emitted events (45_link.md R310). -/

/-- From `s` to `t` events are appended, and beside each TX event the frame built from it. -/
def Emits (s t : State) : Prop :=
  ∃ es, t.events = s.events ++ es ∧ t.frames = s.frames ++ es.filterMap (frameOf s.localMac)

theorem Emits.of_outputs_eq {s t : State} (he : t.events = s.events) (hf : t.frames = s.frames) : Emits s t :=
  ⟨[], by simp [he], by simp [hf]⟩

theorem Emits.refl (s : State) : Emits s s := .of_outputs_eq rfl rfl

theorem Emits.emitTx (s : State) (dst : Hw) (type : Half) (p : Bytes) : Emits s (emitTx s dst type p) :=
  ⟨[.tx dst type p], rfl, rfl⟩

theorem Emits.emitDeliver (s : State) (h : Word) (src : Ip) (sport : Half) (p : Bytes) :
    Emits s (emitDeliver s h src sport p) :=
  ⟨[.deliver h src sport p], rfl, by simp [frameOf]⟩

theorem Emits.trans {s t u : State} (hmac : t.localMac = s.localMac) (h : Emits s t) (k : Emits t u) : Emits s u := by
  obtain ⟨es, he, hf⟩ := h
  obtain ⟨fs, ke, kf⟩ := k
  exact ⟨es ++ fs, by rw [ke, he, List.append_assoc], by
    rw [kf, hf, hmac, List.filterMap_append, List.append_assoc]⟩

theorem arpResolveSend_emits (s : State) (pkt : Bytes) (ip : Ip) (proto : Half) :
    Emits s (arpResolveSend s pkt ip proto) := by
  rcases arpResolveSend_cases s pkt ip proto with ⟨hw, _, h⟩ | ⟨_, h⟩ <;> rw [h]
  · exact .emitTx s hw proto pkt
  · exact .emitTx { s with pend := ⟨true, ip, proto, pkt⟩ } _ _ _

theorem ipSendLoop_emits (fuel : Nat) (s : State) (rest : Bytes) (o : Nat) (dst : Ip) (proto : BitVec 8) (id : Half) :
    Emits s (ipSendLoop fuel s rest o dst proto id) := by
  induction fuel generalizing s rest o with
  | zero => exact .refl s
  | succ n ih =>
    simp only [ipSendLoop]
    split
    · exact (arpResolveSend_emits s _ _ _).trans (ipSendFragment_frame s _ _ _ _ _ _).1.localMac (ih _ _ _)
    · exact arpResolveSend_emits s _ _ _

theorem ipSend_emits (s : State) (b : Buf) (dst : Ip) (proto : BitVec 8) : Emits s (ipSend s b dst proto) := by
  simp only [ipSend]
  split
  · exact ipSendLoop_emits (bufLen b) { s with fragId := s.fragId + 1 } b.win 0 dst proto s.fragId
  · exact arpResolveSend_emits { s with fragId := s.fragId + 1 } _ _ _

/-! The receive path, as a choice of one action. -/

/-- What an inbound packet makes the block do: nothing, one delivery, or one datagram sent. -/
inductive InputAction where
  | drop
  | deliver (handler : Word) (src : Ip) (sport : Half) (payload : Bytes)
  | send (b : Buf) (dst : Ip) (proto : BitVec 8)

/-- The action, on the state it is taken in. -/
def InputAction.run (s : State) : InputAction → State
  | .drop => s
  | .deliver h src sport p => emitDeliver s h src sport p
  | .send b dst proto => ipSend s b dst proto

theorem InputAction.run_frame (s : State) (a : InputAction) : OutputFrame 1500 s (a.run s) := by
  cases a with
  | drop => exact .refl _ s
  | deliver h src sport p => exact .emitDeliver _ s h src sport p
  | send b dst proto => exact (ipSend_frame s b dst proto).1

theorem InputAction.run_emits (s : State) (a : InputAction) : Emits s (a.run s) := by
  cases a with
  | drop => exact .refl s
  | deliver h src sport p => exact .emitDeliver s h src sport p
  | send b dst proto => exact ipSend_emits s b dst proto

/-- One action draws at most one identifier (R225). -/
theorem InputAction.run_fragId (s : State) (a : InputAction) :
    (a.run s).fragId = s.fragId ∨ (a.run s).fragId = s.fragId + 1 := by
  cases a with
  | drop => exact .inl rfl
  | deliver h src sport p => exact .inl rfl
  | send b dst proto => exact .inr (ipSend_frame s b dst proto).2

/-- `t` agrees with `s` on everything the receive path looks at: the parameters, LOCAL_IP and the handler table. -/
structure SameReceiver (s t : State) : Prop where
  params : t.params = s.params
  localIp : t.localIp = s.localIp
  udp : t.udp = s.udp

theorem SameReceiver.refl (s : State) : SameReceiver s s := ⟨rfl, rfl, rfl⟩

/-- R260: the action of ICMP input depends on the message alone. -/
theorem icmpIn_action (m : Bytes) (src : Ip) : ∃ a : InputAction, ∀ s, icmpIn s m src = a.run s := by
  by_cases h : 8 ≤ m.length ∧ byteAt m 0 = 8 ∧ byteAt m 1 = 0
  · refine ⟨.send (load (echoReply m)) src 1, fun s => ?_⟩
    rcases icmpIn_cases s m src with ⟨_, _, _, hs⟩ | ⟨hn, _⟩
    · exact hs
    · exact absurd h hn
  · refine ⟨.drop, fun s => ?_⟩
    rcases icmpIn_cases s m src with ⟨h1, h2, h3, _⟩ | ⟨_, hs⟩
    · exact absurd ⟨h1, h2, h3⟩ h
    · exact hs

/-- R282: the action of the dispatch depends on the handler table alone. -/
theorem udpDispatch_action (s : State) (b : Buf) (src : Ip) (hb : 8 ≤ bufLen b) :
    ∃ a : InputAction, ∀ t, SameReceiver s t → udpDispatch t b src = .ok (a.run t) := by
  cases hf : udpFind s.udp (be16 b.win 2) with
  | some j =>
    refine ⟨.deliver (s.udp.getD j UdpSlot.empty).handler src (be16 b.win 0) (b.win.drop 8), fun t ht => ?_⟩
    rcases udpDispatch_cases t b src hb with ⟨k, hk, h⟩ | ⟨hk, _⟩
    · rw [ht.udp, hf, Option.some.injEq] at hk
      rw [h, ht.udp, ← hk]
      rfl
    · rw [ht.udp, hf] at hk
      cases hk
  | none =>
    refine ⟨.send (load (unreachMsg (addHeader b 20).win 3)) src ipProtoIcmp, fun t ht => ?_⟩
    rcases udpDispatch_cases t b src hb with ⟨k, hk, _⟩ | ⟨_, h⟩
    · rw [ht.udp, hf] at hk
      cases hk
    · exact h

theorem bufLen_memWrite (b : Buf) (o : Nat) (v : Bytes) (h : o + v.length ≤ bufLen b) :
    bufLen (memWrite b o v) = bufLen b :=
  length_putBytes b.win v o h

/-- R282: UDP input takes one action on every buffer, chosen from what SameReceiver names. -/
theorem udpIn_action (s : State) (b : Buf) (src : Ip) :
    ∃ a : InputAction, ∀ t, SameReceiver s t → udpIn t b src = .ok (a.run t) := by
  by_cases h1 : bufLen b < udpHdrLen
  · exact ⟨.drop, fun t _ => by rw [udpIn, if_pos h1]; rfl⟩
  by_cases h2 : (be16 b.win 4).toNat < udpHdrLen
  · exact ⟨.drop, fun t _ => by rw [udpIn, if_neg h1, if_pos h2]; rfl⟩
  obtain ⟨c, hc, hl, -, -⟩ := udpTrim_ok b (be16 b.win 4).toNat (Nat.le_of_not_lt h1) (Nat.le_of_not_lt h2)
  have hsum : ∀ t, SameReceiver s t → udpInChecksum t c src = udpInChecksum s c src := fun t ht => by
    rw [udpInChecksum, ht.localIp, ← udpInChecksum]
  by_cases hne : udpInChecksum s c src ≠ be16 c.win 6
  · exact ⟨.drop, fun t ht => by simp only [udpIn, if_neg h1, if_neg h2, hc, hsum t ht, if_pos hne]; rfl⟩
  have hfix : ∀ (d : Buf) (v : Half), 8 ≤ bufLen d → bufLen (memWrite d 6 (bytes16 v)) = bufLen d :=
    fun d v hd => bufLen_memWrite d 6 (bytes16 v) (by rw [length_bytes16]; omega)
  obtain ⟨a, ha⟩ := udpDispatch_action s (memWrite (memWrite c 6 (bytes16 0)) 6 (bytes16 (be16 c.win 6))) src
    (by rw [hfix _ _ (by rwa [hfix c 0 hl]), hfix c 0 hl]; exact hl)
  exact ⟨a, fun t ht => by simp only [udpIn, if_neg h1, if_neg h2, hc, hsum t ht, if_neg hne]; exact ha t ht⟩

/-- R221: the dispatch of a buffer that holds its header takes one action. -/
theorem ipDispatch_action (s : State) (b : Buf) (hb : ipHdrBytes b.win ≤ bufLen b) :
    ∃ a : InputAction, ∀ t, SameReceiver s t → ipDispatch t b = .ok (a.run t) := by
  by_cases h1 : byteAt b.win 9 = ipProtoIcmp
  · obtain ⟨a, ha⟩ := icmpIn_action (b.win.drop (ipHdrBytes b.win)) (be32 b.win 12)
    exact ⟨a, fun t _ => by simp only [ipDispatch, if_pos h1, removeHeader_of_le b _ hb, ha]⟩
  by_cases h2 : byteAt b.win 9 = ipProtoUdp
  · obtain ⟨a, ha⟩ := udpIn_action s _ (be32 b.win 12)
    exact ⟨a, fun t ht => by
      simp only [ipDispatch, if_neg h1, if_pos h2, removeHeader_of_le b _ hb]; exact ha t ht⟩
  · exact ⟨.send (load (unreachMsg b.win icmpCodeProtoUnreach)) (be32 b.win 12) ipProtoIcmp, fun t _ => by
      simp only [ipDispatch, if_neg h1, if_neg h2]; rfl⟩

/-- R220, R221: IP input takes one action on every buffer, chosen from what SameReceiver names. -/
theorem ipIn_action (s : State) (b : Buf) :
    ∃ a : InputAction, ∀ t, SameReceiver s t → ipIn t b = .ok (a.run t) := by
  cases hacc : ipAccepts s.localIp b.win with
  | false => exact ⟨.drop, fun t ht => by simp only [ipIn, ht.localIp, hacc]; rfl⟩
  | true =>
    obtain ⟨h20, hhdr⟩ := ipAccepts_header _ _ hacc
    obtain ⟨c, hc, -, hlc, -, -⟩ := ipTrim_ok s b hhdr h20
    have htrim : ∀ t, SameReceiver s t → ipTrim t b = .ok c := fun t ht => by rw [ipTrim, ht.params, ← ipTrim, hc]
    obtain ⟨a, ha⟩ := ipDispatch_action s c hlc
    exact ⟨a, fun t ht => by simp only [ipIn, ht.localIp, hacc, if_true, htrim t ht]; exact ha t ht⟩

end Sys2Proof.Proofs
end

section
/-! PROOFS. The commands over the registers and the handler table: an equation per case, and the register table. -/

namespace Sys2Proof.Proofs

open Sys2Proof Sys2Proof.Machine Sys2Proof.Safety Sys2Proof.Laws

/-! UDP_OPEN and UDP_CLOSE (R286, R287). -/

theorem exec_udpOpen_registered {s : State} {port : Half} {j : Nat} (handler : Word)
    (h : udpFind s.udp port = some j) :
    exec (.udpOpen port handler) s =
      complete (.ok { s with udp := s.udp.modify j (fun u => { u with handler := handler }) }) := by
  simp only [exec, execUdpOpen, h]

theorem exec_udpOpen_new {s : State} {port : Half} {j : Nat} (handler : Word) (h : udpFind s.udp port = none)
    (hfree : udpFree s.udp = some j) :
    exec (.udpOpen port handler) s = complete (.ok { s with udp := s.udp.set j ⟨true, port, handler⟩ }) := by
  simp only [exec, execUdpOpen, h, hfree]

theorem exec_udpOpen_full {s : State} {port : Half} (handler : Word) (h : udpFind s.udp port = none)
    (hfree : udpFree s.udp = none) : exec (.udpOpen port handler) s = .next (respond s .fail 0) := by
  simp only [exec, execUdpOpen, h, hfree, raise_eq]

theorem exec_udpClose_registered {s : State} {port : Half} {j : Nat} (h : udpFind s.udp port = some j) :
    exec (.udpClose port) s = complete (.ok { s with udp := s.udp.set j UdpSlot.empty }) := by
  simp only [exec, execUdpClose, h]

theorem exec_udpClose_unregistered {s : State} {port : Half} (h : udpFind s.udp port = none) :
    exec (.udpClose port) s = complete (.ok s) := by
  simp only [exec, execUdpClose, h]

/-! REG_RD and REG_WR (R331, R332). -/

/-- The response of `answered` is the one `respond` records, for ST_OK. -/
theorem respond_ok (s : State) (r : BitVec 64) : respond s .ok r = answered s .ok r := rfl

theorem respond_zero (s : State) (st : Status) : respond s st 0 = answered s st 0 := by
  rw [respond, mkResponse_zero, answered]

theorem exec_regRd_of_some {s : State} {r : Half} {v : Word} (h : regRead s r = some v) :
    exec (.regRd r) s = .next (answered s .ok (v.setWidth 64)) := by
  simp only [exec, execRegRd, h, respond_ok]

/-- REG_RD of an assigned register, its value zero-extended to `w`. -/
theorem exec_regRd_value {s : State} {r : Half} {v : Word} {w : BitVec 64} (h : regRead s r = some v)
    (hw : v.setWidth 64 = w) : exec (.regRd r) s = .next (answered s .ok w) :=
  hw ▸ exec_regRd_of_some h

theorem exec_regRd_of_none {s : State} {r : Half} (h : regRead s r = none) :
    exec (.regRd r) s = .next (answered s .illegal 0) := by
  simp only [exec, execRegRd, h, raise_eq, respond_zero]

theorem exec_regWr_of_some {s u : State} {r : Half} {v : Word} (h : regWrite s r v = some u) :
    exec (.regWr r v) s = .next (answered u .ok 0) := by
  simp only [exec, execRegWr, h, complete_ok, respond_ok]

theorem exec_regWr_of_none {s : State} {r : Half} {v : Word} (h : regWrite s r v = none) :
    exec (.regWr r v) s = .next (answered s .illegal 0) := by
  simp only [exec, execRegWr, h, raise_eq, respond_zero]

/-! The register table (R33 to R40). -/

theorem regRead_localIp (s : State) : regRead s 0x000 = some s.localIp := rfl
theorem regRead_localMac0 (s : State) : regRead s 0x001 = some (localMac0 s.localMac) := rfl
theorem regRead_localMac1 (s : State) : regRead s 0x002 = some (localMac1 s.localMac) := rfl
theorem regRead_fragId (s : State) : regRead s 0x003 = some (s.fragId.setWidth 32) := rfl
theorem regRead_engineStatus (s : State) : regRead s 0x004 = some (if s.pend.valid then 1 else 0) := rfl
theorem regRead_arpCapacity (s : State) : regRead s 0x010 = some (BitVec.ofNat 32 s.params.arpCapacity) := rfl
theorem regRead_arpTimeout (s : State) : regRead s 0x011 = some (BitVec.ofNat 32 s.params.arpTimeout) := rfl
theorem regRead_udpCapacity (s : State) : regRead s 0x012 = some (BitVec.ofNat 32 s.params.udpCapacity) := rfl
theorem regRead_ipTtl (s : State) : regRead s 0x013 = some (s.params.ipTtl.setWidth 32) := rfl
theorem regRead_maxPkt (s : State) : regRead s 0x014 = some (BitVec.ofNat 32 s.params.maxPkt) := rfl
theorem regRead_flags (s : State) :
    regRead s 0x015 = some (if s.params.ipTrimPadding then 1 else 0) := rfl

/-- Where LOCAL_IP, LOCAL_MAC, FRAG_ID and the pending slot are cleared, their registers and ENGINE_STATUS read 0 (R58). -/
theorem regRead_eq_zero_of_cleared {s : State} (hip : s.localIp = 0) (hmac : s.localMac = 0) (hid : s.fragId = 0)
    (hpend : s.pend = Pend.empty) :
    ∀ r ∈ ([0x000, 0x001, 0x002, 0x003, 0x004] : List Half), regRead s r = some 0 := by
  intro r hr
  simp only [List.mem_cons, List.not_mem_nil, or_false] at hr
  rcases hr with rfl | rfl | rfl | rfl | rfl
  · rw [regRead_localIp, hip]
  · rw [regRead_localMac0, hmac]; rfl
  · rw [regRead_localMac1, hmac]; rfl
  · rw [regRead_fragId, hid]; rfl
  · rw [regRead_engineStatus, hpend]; rfl

/-- The readback registers show the parameters and nothing else (R40). -/
theorem regRead_eq_of_params_eq {s t : State} (h : t.params = s.params) :
    ∀ r ∈ ([0x010, 0x011, 0x012, 0x013, 0x014, 0x015] : List Half), regRead t r = regRead s r := by
  intro r hr
  simp only [List.mem_cons, List.not_mem_nil, or_false] at hr
  rcases hr with rfl | rfl | rfl | rfl | rfl | rfl
  · rw [regRead_arpCapacity, regRead_arpCapacity, h]
  · rw [regRead_arpTimeout, regRead_arpTimeout, h]
  · rw [regRead_udpCapacity, regRead_udpCapacity, h]
  · rw [regRead_ipTtl, regRead_ipTtl, h]
  · rw [regRead_maxPkt, regRead_maxPkt, h]
  · rw [regRead_flags, regRead_flags, h]

/-- The assigned register numbers (R33). -/
def assignedRegs : List Half :=
  [0x000, 0x001, 0x002, 0x003, 0x004, 0x010, 0x011, 0x012, 0x013, 0x014, 0x015]

/-- R39: a register number outside the table reads nothing. -/
theorem regRead_unassigned (s : State) {r : Half} (h : r ∉ assignedRegs) : regRead s r = none := by
  simp only [assignedRegs, List.mem_cons, List.not_mem_nil, or_false, not_or] at h
  simp only [regRead, h, if_false]

/-- R38, R39, R332: only the registers 0x000 to 0x003 are written. -/
theorem regWrite_refused (s : State) {r : Half} (v : Word) (h : r ∉ ([0x000, 0x001, 0x002, 0x003] : List Half)) :
    regWrite s r v = none := by
  simp only [List.mem_cons, List.not_mem_nil, or_false, not_or] at h
  simp only [regWrite, h, if_false]

theorem regWrite_localIp (s : State) (v : Word) : regWrite s 0x000 v = some { s with localIp := v } := rfl
theorem regWrite_localMac0 (s : State) (v : Word) :
    regWrite s 0x001 v = some { s with localMac := v ++ (s.localMac.extractLsb' 0 16 : Half) } := rfl
theorem regWrite_localMac1 (s : State) (v : Word) :
    regWrite s 0x002 v = some { s with localMac := localMac0 s.localMac ++ (v.extractLsb' 16 16 : Half) } := rfl
theorem regWrite_fragId (s : State) (v : Word) :
    regWrite s 0x003 v = some { s with fragId := v.extractLsb' 0 16 } := rfl

/-- LOCAL_MAC_0 reads the four bytes in front (R35). -/
theorem localMac0_append (v : Word) (w : Half) : localMac0 (v ++ w) = v := extract_append_high v w

/-- LOCAL_MAC_1 reads the two bytes at the end, in its high half (R36). -/
theorem localMac1_append (v : Word) (w : Half) : localMac1 (v ++ w) = w ++ (0 : BitVec 16) :=
  congrArg (· ++ (0 : BitVec 16)) (extract_append_low v w)

/-- A register that reads the low 32 bits of a natural, as the response shows it. -/
theorem setWidth_ofNat_word (n : Nat) : (BitVec.ofNat 32 n).setWidth 64 = BitVec.ofNat 64 (n % 2 ^ 32) := by
  apply BitVec.eq_of_toNat_eq
  simp only [BitVec.toNat_setWidth, BitVec.toNat_ofNat]

theorem setWidth_ofNat_word_of_lt {n : Nat} (h : n < 2 ^ 32) : (BitVec.ofNat 32 n).setWidth 64 = BitVec.ofNat 64 n := by
  rw [setWidth_ofNat_word, Nat.mod_eq_of_lt h]

/-- LOCAL_MAC_0 as the response shows it (R35). -/
theorem setWidth_localMac0 (mac : Hw) : (localMac0 mac).setWidth 64 = (mac >>> 16).setWidth 64 := by
  apply BitVec.eq_of_toNat_eq
  simp only [localMac0, BitVec.toNat_setWidth, BitVec.extractLsb'_toNat, BitVec.toNat_ushiftRight]
  have hmac := mac.isLt
  rw [Nat.shiftRight_eq_div_pow]
  omega

/-- LOCAL_MAC_1 as the response shows it (R36). -/
theorem setWidth_localMac1 (mac : Hw) :
    (localMac1 mac).setWidth 64 = BitVec.ofNat 64 (mac.toNat % 2 ^ 16 * 2 ^ 16) := by
  apply BitVec.eq_of_toNat_eq
  simp only [localMac1, BitVec.toNat_setWidth, BitVec.toNat_append, BitVec.extractLsb'_toNat, BitVec.toNat_ofNat,
    Nat.shiftRight_zero, Nat.shiftLeft_eq, BitVec.ofNat_eq_ofNat, Nat.zero_mod, Nat.or_zero]

/-- A register write changes no more than LOCAL_IP, LOCAL_MAC and FRAG_ID (R332). -/
theorem regWrite_writes {s u : State} {r : Half} {v : Word} (h : regWrite s r v = some u) :
    u = { s with localIp := u.localIp, localMac := u.localMac, fragId := u.fragId } := by
  by_cases hr : r ∈ ([0x000, 0x001, 0x002, 0x003] : List Half)
  · simp only [List.mem_cons, List.not_mem_nil, or_false] at hr
    rcases hr with rfl | rfl | rfl | rfl <;> cases h <;> rfl
  · rw [regWrite_refused s v hr] at h
    cases h

/-- A word is its two halves. -/
theorem word_halves (v : Word) : v = (v.extractLsb' 16 16 : Half) ++ (v.extractLsb' 0 16 : Half) :=
  BitVec.eq_of_getLsbD_eq fun i hi => by
    rw [BitVec.getLsbD_append, BitVec.getLsbD_extractLsb', BitVec.getLsbD_extractLsb']
    split
    · simp [*]
    · simp [show 16 + (i - 16) = i by omega, show i - 16 < 16 by omega]

/-- The bits LOCAL_MAC_1 keeps of a written word (R36). -/
theorem and_highMask (v : Word) : v &&& 0xFFFF0000 = (v.extractLsb' 16 16 : Half) ++ (0 : BitVec 16) := by
  conv_lhs => rw [word_halves v, show (0xFFFF0000 : Word) = BitVec.allOnes 16 ++ 0#16 by decide]
  rw [BitVec.and_append, BitVec.and_allOnes, BitVec.and_zero]
  rfl

/-- The bits FRAG_ID keeps of a written word (R37). -/
theorem and_lowMask (v : Word) : v &&& 0x0000FFFF = (v.extractLsb' 0 16 : Half).setWidth 32 := by
  conv_lhs => rw [word_halves v, show (0x0000FFFF : Word) = 0#16 ++ BitVec.allOnes 16 by decide]
  rw [BitVec.and_append, BitVec.and_allOnes, BitVec.and_zero]
  exact (BitVec.setWidth_eq_append (by omega)).symm

/-- The read-write registers, each with the bits that a write keeps (R34 to R37). -/
def writableRegs : List (Half × Word) :=
  [(0x000, 0xFFFFFFFF), (0x001, 0xFFFFFFFF), (0x002, 0xFFFF0000), (0x003, 0x0000FFFF)]

/-- A write of a read-write register is read back under its mask, and every other register reads as before. -/
theorem regWrite_readBack (s : State) {r : Half} {mask : Word} (v : Word) (h : (r, mask) ∈ writableRegs) :
    ∃ u, regWrite s r v = some u ∧ regRead u r = some (v &&& mask) ∧ ∀ q : Half, q ≠ r → regRead u q = regRead s q := by
  simp only [writableRegs, List.mem_cons, List.not_mem_nil, or_false, Prod.mk.injEq] at h
  rcases h with ⟨rfl, rfl⟩ | ⟨rfl, rfl⟩ | ⟨rfl, rfl⟩ | ⟨rfl, rfl⟩
  · refine ⟨_, regWrite_localIp s v, ?_, fun q hq => ?_⟩
    · rw [regRead_localIp, show (0xFFFFFFFF : Word) = BitVec.allOnes 32 from rfl, BitVec.and_allOnes]
    · simp only [regRead, hq, if_false]
  · refine ⟨_, regWrite_localMac0 s v, ?_, fun q hq => ?_⟩
    · rw [regRead_localMac0, localMac0_append, show (0xFFFFFFFF : Word) = BitVec.allOnes 32 from rfl, BitVec.and_allOnes]
    · have hlow : localMac1 (v ++ (s.localMac.extractLsb' 0 16 : Half)) = localMac1 s.localMac := localMac1_append v _
      simp only [regRead, hq, if_false, hlow]
  · refine ⟨_, regWrite_localMac1 s v, ?_, fun q hq => ?_⟩
    · rw [regRead_localMac1, localMac1_append, and_highMask]
    · simp only [regRead, hq, if_false, localMac0_append]
  · refine ⟨_, regWrite_fragId s v, ?_, fun q hq => ?_⟩
    · rw [regRead_fragId, and_lowMask]
    · simp only [regRead, hq, if_false]

end Sys2Proof.Proofs
end

section
/-! PROOFS. What each command may change, said once for all 21 commands. -/

namespace Sys2Proof.Proofs

open Sys2Proof Sys2Proof.Machine Sys2Proof.Safety Sys2Proof.Laws

/-! The cache and the handler table as lists. -/

/-- From `a` to `b` the cache keeps its capacity (R41), and gets no PENDING entry (R42). -/
structure CacheKept (a b : List ArpEntry) : Prop where
  length : b.length = a.length
  noPending : noPendingEntry a → noPendingEntry b

theorem CacheKept.refl (a : List ArpEntry) : CacheKept a a := ⟨rfl, id⟩

theorem CacheKept.trans {a b c : List ArpEntry} (h : CacheKept a b) (k : CacheKept b c) : CacheKept a c :=
  ⟨k.length.trans h.length, k.noPending ∘ h.noPending⟩

theorem CacheKept.clear (a : List ArpEntry) : CacheKept a (List.replicate a.length ArpEntry.empty) :=
  ⟨List.length_replicate, fun _ e he => by rw [List.eq_of_mem_replicate he]; decide⟩

theorem sweepEntry_state_ne_pending (timeout now : Nat) (e : ArpEntry) (h : e.state ≠ .pending) :
    (sweepEntry timeout now e).state ≠ .pending := by
  rcases sweepEntry_cases timeout now e with ⟨_, hs⟩ | ⟨_, hs⟩ <;> rw [hs]
  · exact nofun
  · exact h

theorem CacheKept.learn (s : State) (ip : Ip) (hw : Hw) : CacheKept s.arp (arpUpdate s ip hw).arp where
  length := length_arpUpdate s ip hw
  noPending h e he := by
    rw [arpUpdate_arp] at he
    rcases List.mem_or_eq_of_mem_set he with he | rfl
    · obtain ⟨d, hd, rfl⟩ := List.mem_map.1 he
      exact sweepEntry_state_ne_pending _ _ d (h d hd)
    · exact nofun

/-- From `a` to `b` the handler table keeps its capacity (R45), and no two valid slots get one port (R46). -/
structure TableKept (a b : List UdpSlot) : Prop where
  length : b.length = a.length
  ports : uniquePorts a → uniquePorts b

theorem TableKept.refl (a : List UdpSlot) : TableKept a a := ⟨rfl, id⟩

/-- R46: in a slot may stand what is free or holds a port that no valid slot holds. -/
theorem TableKept.set (a : List UdpSlot) (j : Nat) (u : UdpSlot)
    (hu : u.valid = true → ∀ v ∈ a, v.valid = true → v.port ≠ u.port) : TableKept a (a.set j u) where
  length := List.length_set
  ports h := by
    rw [uniquePorts, List.pairwise_iff_getElem] at h ⊢
    intro i k hi hk hik
    rw [List.length_set] at hi hk
    rw [List.getElem_set, List.getElem_set]
    split <;> split
    · omega
    · exact fun hv hw => (hu hv _ (List.getElem_mem hk) hw).symm
    · exact fun hv hw => hu hw _ (List.getElem_mem hi) hv
    · exact h i k hi hk hik

/-- R286: another handler in a slot moves no port. -/
theorem TableKept.setHandler (a : List UdpSlot) (j : Nat) (handler : Word) :
    TableKept a (a.modify j (fun u => { u with handler := handler })) where
  length := List.length_modify ..
  ports h := by
    rw [uniquePorts, List.pairwise_iff_getElem] at h ⊢
    intro i k hi hk hik
    rw [List.length_modify] at hi hk
    have hslot := h i k hi hk hik
    rw [List.getElem_modify, List.getElem_modify]
    split <;> split <;> exact hslot

/-- A port that is not found is held by no valid slot. -/
theorem port_ne_of_udpFind_eq_none {a : List UdpSlot} {port : Half} (h : udpFind a port = none) :
    ∀ v ∈ a, v.valid = true → v.port ≠ port := by
  intro v hv hvalid hport
  have hfind := List.findIdx?_eq_none_iff.1 h v hv
  simp [hvalid, hport] at hfind

/-! The frame of a command. -/

/-- What the command `i` may do to the state before its response is recorded: the classes of Safety say which field it may
write, and whatever it writes keeps the invariants of the field. A field's default says that the command leaves it alone. -/
structure CommandFrame (i : Instr) (s u : State) : Prop where
  params : u.params = s.params := by rfl
  timeNow : u.timeNow = s.timeNow := by rfl
  inputs : u.inputs = s.inputs := by rfl
  responses : u.responses = s.responses := by rfl
  address : writesAddress i = false → u.localIp = s.localIp ∧ u.localMac = s.localMac := by exact fun _ => ⟨rfl, rfl⟩
  cache : writesCache i = false → u.arp = s.arp := by exact fun _ => rfl
  cacheKept : CacheKept s.arp u.arp := by exact .refl _
  table : writesTable i = false → u.udp = s.udp := by exact fun _ => rfl
  tableKept : TableKept s.udp u.udp := by exact .refl _
  fragId : writesFragId i = false → u.fragId = s.fragId := by exact fun _ => rfl
  fragIdNext : writesAddress i = false → u.fragId = s.fragId ∨ u.fragId = s.fragId + 1 := by exact fun _ => .inl rfl
  pend : writesPend i = false → u.pend = s.pend := by exact fun _ => rfl
  held : u.pend.pkt.length ≤ max s.pend.pkt.length (max 65535 i.packet.length) := by exact Nat.le_max_left _ _
  outputs : emitsEvents i = false → u.events = s.events ∧ u.frames = s.frames := by exact fun _ => ⟨rfl, rfl⟩
  emits : Emits s u := by exact .of_outputs_eq rfl rfl

theorem CommandFrame.refl (i : Instr) (s : State) : CommandFrame i s s := {}

/-- A command that writes the pending slot emits events. -/
theorem emitsEvents_of_writesPend {i : Instr} (h : writesPend i = true) : emitsEvents i = true := by
  simp only [emitsEvents]
  split
  · rfl
  · rfl
  · exact h

/-- A command that does no more than the output path does. -/
theorem CommandFrame.of_output {i : Instr} {n : Nat} {s u : State} (h : OutputFrame n s u) (hemits : Emits s u)
    (hpend : writesPend i = true) (hid : u.fragId = s.fragId ∨ writesFragId i = true ∧ u.fragId = s.fragId + 1)
    (hn : n ≤ max 65535 i.packet.length) : CommandFrame i s u where
  params := h.params
  timeNow := h.timeNow
  inputs := h.inputs
  responses := h.responses
  address _ := ⟨h.localIp, h.localMac⟩
  cache _ := h.arp
  cacheKept := h.arp ▸ .refl _
  table _ := h.udp
  tableKept := h.udp ▸ .refl _
  fragId hi := hid.elim id fun hk => absurd hk.1 (by simp [hi])
  fragIdNext _ := hid.imp id And.right
  pend hi := absurd hpend (by simp [hi])
  held := by have := h.held; omega
  outputs hi := absurd (emitsEvents_of_writesPend hpend) (by simp [hi])
  emits := hemits

/-- A command of the receive path. -/
theorem CommandFrame.of_action {i : Instr} (s : State) (a : InputAction) (hpend : writesPend i = true)
    (hid : writesFragId i = true) : CommandFrame i s (a.run s) :=
  .of_output (a.run_frame s) (a.run_emits s) hpend ((a.run_fragId s).imp id (⟨hid, ·⟩)) (by omega)

/-- A command that hands a buffer to IP output (R225). -/
theorem CommandFrame.of_ipSend {i : Instr} (s : State) (b : Buf) (dst : Ip) (proto : BitVec 8)
    (hpend : writesPend i = true) (hid : writesFragId i = true) : CommandFrame i s (ipSend s b dst proto) :=
  .of_action s (.send b dst proto) hpend hid

/-- A command that learns an address first (R188, R311). -/
theorem CommandFrame.after_arpUpdate {i : Instr} {s u : State} {ip : Ip} {hw : Hw} (hcache : writesCache i = true)
    (h : CommandFrame i (arpUpdate s ip hw) u) : CommandFrame i s u :=
  { h with
    cache := fun hi => absurd hcache (by simp [hi])
    cacheKept := (CacheKept.learn s ip hw).trans h.cacheKept }

theorem CommandFrame.of_arpRequest {i : Instr} (s : State) (ip : Ip) (hemits : emitsEvents i = true) :
    CommandFrame i s (arpRequest s ip) where
  outputs hi := absurd hemits (by simp [hi])
  emits := .emitTx s _ _ _

theorem arpInit_frame (s : State) :
    CommandFrame .arpInit s (arpRequest { s with arp := List.replicate s.arp.length ArpEntry.empty } s.localIp) where
  cache := nofun
  cacheKept := .clear s.arp
  outputs := nofun
  emits := .emitTx { s with arp := List.replicate s.arp.length ArpEntry.empty } _ _ _

/-- R188, R189: what a command that receives an ARP message may do. -/
theorem arpIn_frame {i : Instr} (s : State) (m : Bytes) (hcache : writesCache i = true) (hpend : writesPend i = true) :
    CommandFrame i s (arpIn s m) := by
  have hout : emitsEvents i ≠ false := by simp [emitsEvents_of_writesPend hpend]
  rcases arpIn_cases s m with ⟨_, h⟩ | ⟨_, _, _, h⟩ | ⟨_, _, _, h⟩ | ⟨_, _, _, h⟩ <;> rw [h]
  · exact .refl i s
  · exact .after_arpUpdate (ip := be32 m 14) (hw := be48 m 8) hcache
      { pend := fun hi => absurd hpend (by simp [hi])
        held := Nat.zero_le _
        outputs := fun hi => absurd hi hout
        emits := .emitTx (arpUpdate s _ _) _ _ _ }
  · exact .after_arpUpdate (ip := be32 m 14) (hw := be48 m 8) hcache
      { outputs := fun hi => absurd hi hout
        emits := .emitTx (arpUpdate s _ _) _ _ _ }
  · exact .after_arpUpdate hcache (.refl i _)

/-- R311: the receive dispatch runs to its end on every frame. -/
theorem ethRx_frame (s : State) (f : Bytes) : ∃ u, ethRx s f = .ok u ∧ CommandFrame (.ethRx f) s u := by
  by_cases hlen : f.length < linkHdrLen
  · exact ⟨s, by rw [ethRx, if_pos hlen], .refl _ s⟩
  rw [ethRx, if_neg hlen, removeHeader_of_le _ _ (Nat.le_of_not_lt hlen)]
  by_cases harp : be16 f 12 = ethTypeArp
  · simp only [if_pos harp]
    exact ⟨_, rfl, arpIn_frame s _ rfl rfl⟩
  by_cases hip : be16 f 12 = ethTypeIpv4
  · simp only [if_neg harp, if_pos hip, ethIpv4]
    split
    · obtain ⟨a, ha⟩ := ipIn_action (arpUpdate s _ _) _
      exact ⟨_, ha _ (.refl _), .after_arpUpdate rfl (.of_action _ a rfl rfl)⟩
    · obtain ⟨a, ha⟩ := ipIn_action s _
      exact ⟨_, ha s (.refl s), .of_action s a rfl rfl⟩
  · simp only [if_neg harp, if_neg hip]
    exact ⟨s, rfl, .refl _ s⟩

/-- R332: a register write leaves everything but the addresses and FRAG_ID. -/
theorem regWrite_frame {s u : State} {r : Half} {v : Word} (h : regWrite s r v = some u) :
    CommandFrame (.regWr r v) s u := by
  rw [regWrite_writes h]
  exact { address := nofun, fragId := nofun, fragIdNext := nofun }

/-- The command `i` in the state `s` ends with a response, after doing what its frame allows. -/
def Responds (i : Instr) (s : State) : Prop :=
  ∃ u st r, exec i s = .next (respond u st r) ∧ CommandFrame i s u

theorem Responds.of_complete {i : Instr} {s u : State} (h : exec i s = complete (.ok u)) (hu : CommandFrame i s u) :
    Responds i s :=
  ⟨u, .ok, 0, h, hu⟩

theorem Responds.of_respond {i : Instr} {s : State} {st : Status} {r : BitVec 64}
    (h : exec i s = .next (respond s st r)) : Responds i s :=
  ⟨s, st, r, h, .refl i s⟩

theorem udpOpen_responds (port : Half) (handler : Word) (s : State) : Responds (.udpOpen port handler) s := by
  cases hfind : udpFind s.udp port with
  | some j =>
    exact .of_complete (exec_udpOpen_registered handler hfind)
      { table := nofun, tableKept := .setHandler s.udp j handler }
  | none =>
    cases hfree : udpFree s.udp with
    | some j =>
      exact .of_complete (exec_udpOpen_new handler hfind hfree)
        { table := nofun, tableKept := .set s.udp j _ fun _ => port_ne_of_udpFind_eq_none hfind }
    | none => exact .of_respond (exec_udpOpen_full handler hfind hfree)

theorem udpClose_responds (port : Half) (s : State) : Responds (.udpClose port) s := by
  cases hfind : udpFind s.udp port with
  | some j =>
    exact .of_complete (exec_udpClose_registered hfind)
      { table := nofun, tableKept := .set s.udp j UdpSlot.empty (absurd · Bool.false_ne_true) }
  | none => exact .of_complete (exec_udpClose_unregistered hfind) (.refl _ s)

/-- Every command ends with a response, within its frame. -/
theorem exec_responds (i : Instr) (s : State) : Responds i s := by
  cases i with
  | nop => exact .of_complete rfl (.refl _ s)
  | csum pkt => exact .of_respond rfl
  | arpInit => exact .of_complete rfl (arpInit_frame s)
  | arpUpdate ip hw => exact .of_complete rfl (.after_arpUpdate rfl (.refl _ _))
  | arpLookup ip => exact .of_respond rfl
  | arpRequest ip => exact .of_complete rfl (.of_arpRequest s ip rfl)
  | arpResolve ip proto pkt =>
    obtain ⟨h, hid⟩ := arpResolveSend_frame s pkt ip proto
    exact .of_complete rfl (.of_output h (arpResolveSend_emits s pkt ip proto) rfl (.inl hid) (Nat.le_max_right _ _))
  | arpIn pkt => exact .of_complete rfl (arpIn_frame s pkt rfl rfl)
  | ipIn pkt =>
    obtain ⟨a, ha⟩ := ipIn_action s (load pkt)
    exact .of_complete (congrArg complete (ha s (.refl s))) (.of_action s a rfl rfl)
  | ipFrag dst proto id off mf pkt =>
    by_cases hlen : 65515 < pkt.length
    · exact .of_respond (if_pos hlen)
    · obtain ⟨h, hid⟩ := ipSendFragment_frame s (load pkt) dst proto id off mf
      exact .of_complete (if_neg hlen) (.of_output h (arpResolveSend_emits s _ _ _) rfl (.inl hid)
        (by rw [bufLen_load]; omega))
  | ipSend dst proto pkt => exact .of_complete rfl (.of_ipSend s _ _ _ rfl rfl)
  | icmpIn src pkt =>
    obtain ⟨a, ha⟩ := icmpIn_action pkt src
    exact .of_complete (congrArg (fun u => complete (.ok u)) (ha s)) (.of_action s a rfl rfl)
  | icmpUnreach dst code pkt => exact .of_complete rfl (.of_ipSend s _ _ _ rfl rfl)
  | udpIn src pkt =>
    obtain ⟨a, ha⟩ := udpIn_action s (load pkt) src
    exact .of_complete (congrArg complete (ha s (.refl s))) (.of_action s a rfl rfl)
  | udpSend sport dst dport pkt =>
    by_cases hlen : 65527 < pkt.length
    · exact .of_respond (if_pos hlen)
    · exact .of_complete (if_neg hlen) (.of_ipSend s _ _ _ rfl rfl)
  | udpOpen port handler => exact udpOpen_responds port handler s
  | udpClose port => exact udpClose_responds port s
  | udpPcsum src dst pkt =>
    by_cases hlen : pkt.length < udpHdrLen
    · exact .of_respond (if_pos hlen)
    · exact .of_respond (if_neg hlen)
  | ethRx pkt =>
    obtain ⟨u, hu, hframe⟩ := ethRx_frame s pkt
    exact .of_complete (congrArg complete hu) hframe
  | regRd reg =>
    cases hr : regRead s reg with
    | some v => exact .of_respond (st := .ok) (exec_regRd_of_some hr)
    | none => exact .of_respond (st := .illegal) (r := 0) (exec_regRd_of_none hr)
  | regWr reg value =>
    cases hw : regWrite s reg value with
    | some u => exact .of_complete (exec_regWr_of_some hw) (regWrite_frame hw)
    | none => exact .of_respond (st := .illegal) (r := 0) (exec_regWr_of_none hw)

end Sys2Proof.Proofs
end

section
/-! PROOFS. TIME_NOW (10_state.md R51): the commands that do not learn an address run the same at any time. -/

namespace Sys2Proof.Proofs

open Sys2Proof Sys2Proof.Machine Sys2Proof.Safety Sys2Proof.Laws

/-- `s` with another value on the TIME_NOW port. -/
def atTime (n : Nat) (s : State) : State := { s with timeNow := n }

theorem sameReceiver_atTime (n : Nat) (s : State) : SameReceiver s (atTime n s) := ⟨rfl, rfl, rfl⟩

theorem arpResolveSend_atTime (n : Nat) (s : State) (pkt : Bytes) (ip : Ip) (proto : Half) :
    arpResolveSend (atTime n s) pkt ip proto = atTime n (arpResolveSend s pkt ip proto) := by
  have harp : (atTime n s).arp = s.arp := rfl
  simp only [arpResolveSend, harp]
  cases arpLookup s.arp ip <;> rfl

theorem ipSendFragment_atTime (n : Nat) (s : State) (b : Buf) (dst : Ip) (proto : BitVec 8) (id : Half)
    (off : BitVec 13) (mf : Bool) :
    ipSendFragment (atTime n s) b dst proto id off mf = atTime n (ipSendFragment s b dst proto id off mf) :=
  arpResolveSend_atTime n s (ipDatagram s b dst proto id off mf).win dst ethTypeIpv4

theorem ipSendLoop_atTime (n fuel : Nat) (s : State) (rest : Bytes) (o : Nat) (dst : Ip) (proto : BitVec 8)
    (id : Half) :
    ipSendLoop fuel (atTime n s) rest o dst proto id = atTime n (ipSendLoop fuel s rest o dst proto id) := by
  induction fuel generalizing s rest o with
  | zero => rfl
  | succ k ih =>
    simp only [ipSendLoop, ipSendFragment_atTime, ih]
    split <;> rfl

theorem ipSend_atTime (n : Nat) (s : State) (b : Buf) (dst : Ip) (proto : BitVec 8) :
    ipSend (atTime n s) b dst proto = atTime n (ipSend s b dst proto) := by
  simp only [ipSend]
  split
  · exact ipSendLoop_atTime n (bufLen b) { s with fragId := s.fragId + 1 } b.win 0 dst proto s.fragId
  · exact ipSendFragment_atTime n { s with fragId := s.fragId + 1 } b dst proto s.fragId 0 false

theorem InputAction.run_atTime (n : Nat) (s : State) (a : InputAction) : a.run (atTime n s) = atTime n (a.run s) := by
  cases a with
  | drop => rfl
  | deliver h src sport p => rfl
  | send b dst proto => exact ipSend_atTime n s b dst proto

theorem regWrite_atTime (n : Nat) (s : State) (r : Half) (v : Word) :
    regWrite (atTime n s) r v = (regWrite s r v).map (atTime n) := by
  simp only [regWrite, apply_ite (Option.map (atTime n))]
  rfl

/-- The command `i` runs from `s` as it does at time `n`, but for TIME_NOW itself. -/
def TimeFree (n : Nat) (i : Instr) (s : State) : Prop :=
  ∃ t, exec i s = .next t ∧ exec i (atTime n s) = .next (atTime n t)

theorem TimeFree.of_complete {n : Nat} {i : Instr} {s u : State} (h : exec i s = complete (.ok u))
    (hn : exec i (atTime n s) = complete (.ok (atTime n u))) : TimeFree n i s :=
  ⟨respond u .ok 0, h, hn⟩

theorem TimeFree.of_respond {n : Nat} {i : Instr} {s : State} (st : Status) (r : BitVec 64)
    (h : exec i s = .next (respond s st r)) (hn : exec i (atTime n s) = .next (respond (atTime n s) st r)) :
    TimeFree n i s :=
  ⟨respond s st r, h, hn⟩

theorem udpOpen_timeFree (n : Nat) (port : Half) (handler : Word) (s : State) :
    TimeFree n (.udpOpen port handler) s := by
  cases hfind : udpFind s.udp port with
  | some j => exact .of_complete (exec_udpOpen_registered handler hfind) (exec_udpOpen_registered handler hfind)
  | none =>
    cases hfree : udpFree s.udp with
    | some j => exact .of_complete (exec_udpOpen_new handler hfind hfree) (exec_udpOpen_new handler hfind hfree)
    | none => exact .of_respond .fail 0 (exec_udpOpen_full handler hfind hfree) (exec_udpOpen_full handler hfind hfree)

theorem udpClose_timeFree (n : Nat) (port : Half) (s : State) : TimeFree n (.udpClose port) s := by
  cases hfind : udpFind s.udp port with
  | some j => exact .of_complete (exec_udpClose_registered hfind) (exec_udpClose_registered hfind)
  | none => exact .of_complete (exec_udpClose_unregistered hfind) (exec_udpClose_unregistered hfind)

theorem regRd_timeFree (n : Nat) (reg : Half) (s : State) : TimeFree n (.regRd reg) s := by
  cases hr : regRead s reg with
  | some v => exact .of_respond .ok _ (exec_regRd_of_some hr) (exec_regRd_of_some hr)
  | none => exact .of_respond .illegal 0 (exec_regRd_of_none hr) (exec_regRd_of_none hr)

theorem regWr_timeFree (n : Nat) (reg : Half) (value : Word) (s : State) : TimeFree n (.regWr reg value) s := by
  cases hw : regWrite s reg value with
  | some u =>
    exact .of_complete (exec_regWr_of_some hw) (exec_regWr_of_some (by rw [regWrite_atTime, hw]; rfl))
  | none =>
    exact .of_respond .illegal 0 (exec_regWr_of_none hw) (exec_regWr_of_none (by rw [regWrite_atTime, hw]; rfl))

/-- R51: every command that does not learn an address. -/
theorem exec_timeFree (n : Nat) (i : Instr) (s : State) (hi : readsTime i = false) : TimeFree n i s := by
  have hsend : ∀ b dst proto, complete (.ok (ipSend (atTime n s) b dst proto)) =
      complete (.ok (atTime n (ipSend s b dst proto))) := fun b dst proto => by rw [ipSend_atTime]
  cases i with
  | nop => exact .of_complete rfl rfl
  | csum pkt => exact .of_respond .ok _ rfl rfl
  | arpInit => exact .of_complete rfl rfl
  | arpUpdate ip hw => cases hi
  | arpLookup ip => exact .of_respond .ok _ rfl rfl
  | arpRequest ip => exact .of_complete rfl rfl
  | arpResolve ip proto pkt =>
    exact .of_complete rfl (congrArg (fun u => complete (.ok u)) (arpResolveSend_atTime n s pkt ip proto))
  | arpIn pkt => cases hi
  | ipIn pkt =>
    obtain ⟨a, ha⟩ := ipIn_action s (load pkt)
    exact .of_complete (congrArg complete (ha s (.refl s)))
      (congrArg complete ((ha _ (sameReceiver_atTime n s)).trans (congrArg _ (a.run_atTime n s))))
  | ipFrag dst proto id off mf pkt =>
    by_cases hlen : 65515 < pkt.length
    · exact .of_respond .length 0 (if_pos hlen) (if_pos hlen)
    · exact .of_complete (if_neg hlen)
        ((if_neg hlen).trans (congrArg (fun u => complete (.ok u)) (ipSendFragment_atTime n s _ dst proto id off mf)))
  | ipSend dst proto pkt => exact .of_complete rfl (hsend _ _ _)
  | icmpIn src pkt =>
    obtain ⟨a, ha⟩ := icmpIn_action pkt src
    exact .of_complete (congrArg (fun u => complete (.ok u)) (ha s))
      (congrArg (fun u => complete (.ok u)) ((ha _).trans (a.run_atTime n s)))
  | icmpUnreach dst code pkt => exact .of_complete rfl (hsend _ _ _)
  | udpIn src pkt =>
    obtain ⟨a, ha⟩ := udpIn_action s (load pkt) src
    exact .of_complete (congrArg complete (ha s (.refl s)))
      (congrArg complete ((ha _ (sameReceiver_atTime n s)).trans (congrArg _ (a.run_atTime n s))))
  | udpSend sport dst dport pkt =>
    by_cases hlen : 65527 < pkt.length
    · exact .of_respond .length 0 (if_pos hlen) (if_pos hlen)
    · exact .of_complete (if_neg hlen) ((if_neg hlen).trans (hsend _ _ _))
  | udpOpen port handler => exact udpOpen_timeFree n port handler s
  | udpClose port => exact udpClose_timeFree n port s
  | udpPcsum src dst pkt =>
    by_cases hlen : pkt.length < udpHdrLen
    · exact .of_respond .length 0 (if_pos hlen) (if_pos hlen)
    · exact .of_respond .ok _ (if_neg hlen) (if_neg hlen)
  | ethRx pkt => cases hi
  | regRd reg => exact regRd_timeFree n reg s
  | regWr reg value => exact regWr_timeFree n reg value s

end Sys2Proof.Proofs
end

section
/-! PROOFS. The statements about the state: what every command and every step keeps, the registers, and reset. -/

namespace Sys2Proof.Proofs

open Sys2Proof Sys2Proof.Machine Sys2Proof.Safety Sys2Proof.Laws

/-! The step. -/

/-- What decodes carries no packet above MAX_PKT (R106, R108). -/
theorem packet_length_le_of_decode {p : Params} {c : Command} {i : Instr} (h : decode p c = .ok i) :
    i.packet.length ≤ p.maxPkt := by
  have hbuild : ∀ op, (buildInstr op c).packet.length ≤ c.pkt.length := fun op => by
    cases op <;> simp [buildInstr, Instr.packet]
  simp only [decode] at h
  split at h
  · cases h
  next r _ =>
    split_ifs at h with _ _ hnone hlong
    cases h
    have hop := hbuild r.op
    cases hp : r.pkt with
    | false =>
      have hz : c.pkt.length = 0 := by simpa [hp] using hnone
      omega
    | true =>
      have hle : c.pkt.length ≤ p.maxPkt := by simpa [hp] using hlong
      omega

/-- A command's step ends with a response, within the frame of some command whose packet MAX_PKT admits: a descriptor that does
not decode does no more than NOP. -/
theorem step_command_responds {s : State} {c : Command} {now : Nat} {rest : List Input}
    (h : s.inputs = .command c now :: rest) :
    ∃ i u st r, step s = .next (respond u st r) ∧ i.packet.length ≤ s.params.maxPkt ∧
      CommandFrame i (acceptCommand now rest s) u := by
  rw [step_command s c now rest h]
  cases hd : decode s.params c with
  | ok i =>
    obtain ⟨u, st, r, hu, hframe⟩ := exec_responds i (acceptCommand now rest s)
    exact ⟨i, u, st, r, hu, packet_length_le_of_decode hd, hframe⟩
  | error e => exact ⟨.nop, _, decodeStatus e, 0, rfl, Nat.zero_le _, .refl _ _⟩

theorem uniquePorts_replicate_empty (n : Nat) : uniquePorts (List.replicate n UdpSlot.empty) :=
  List.pairwise_replicate.2 (.inr nofun)

/-- The tables after reset meet the invariants (R58). -/
theorem inv_of_cleared {t : State} (harp : t.arp = List.replicate t.params.arpCapacity ArpEntry.empty)
    (hudp : t.udp = List.replicate t.params.udpCapacity UdpSlot.empty) (hpend : t.pend = Pend.empty) : Inv t := by
  refine ⟨by rw [harp, List.length_replicate], by rw [hudp, List.length_replicate], ?_, ?_, by rw [hpend]; decide⟩
  · rw [harp]
    exact fun e he => by rw [List.eq_of_mem_replicate he]; decide
  · exact hudp ▸ uniquePorts_replicate_empty _

/-- Each input, and what the step does with it. -/
theorem inputs_cases (s : State) :
    s.inputs = [] ∨ (∃ rest, s.inputs = .reset :: rest) ∨ ∃ c now rest, s.inputs = .command c now :: rest := by
  rcases h : s.inputs with _ | ⟨⟨c, now⟩ | _, rest⟩
  · exact .inl rfl
  · exact .inr (.inr ⟨c, now, rest, rfl⟩)
  · exact .inr (.inl ⟨rest, rfl⟩)

/-- Settles O10: the frame of every command keeps each table's invariant, and reset makes the tables empty. -/
theorem everyStepKeepsTheInvariants : Obligations.EveryStepKeepsTheInvariants := by
  intro s t hvalid hinv hstep
  rcases inputs_cases s with h | ⟨rest, h⟩ | ⟨c, now, rest, h⟩
  · rw [step_idle s h] at hstep
    cases hstep
    exact ⟨hinv, rfl⟩
  · rw [step_reset s rest h] at hstep
    cases hstep
    exact ⟨inv_of_cleared rfl rfl rfl, rfl⟩
  · obtain ⟨i, u, st, r, hu, hpkt, f⟩ := step_command_responds h
    rw [hu] at hstep
    cases hstep
    obtain ⟨harp, hudp, hpending, hports, hheld⟩ := hinv
    obtain ⟨-, -, -, -, -, hmax⟩ := hvalid
    have hparams : u.params = s.params := f.params
    have hheld' : u.pend.pkt.length ≤ max s.pend.pkt.length (max 65535 i.packet.length) := f.held
    refine ⟨⟨?_, ?_, f.cacheKept.noPending hpending, f.tableKept.ports hports, ?_⟩, hparams⟩
    · exact f.cacheKept.length.trans (harp.trans (by rw [respond_params, hparams]))
    · exact f.tableKept.length.trans (hudp.trans (by rw [respond_params, hparams]))
    · rw [respond_pend]
      omega

/-- Settles O11: every command ends with a response (`exec_responds`), and so does a rejected descriptor. -/
theorem everyStepGoesOn : Obligations.EveryStepGoesOn := by
  intro s
  rcases inputs_cases s with h | ⟨rest, h⟩ | ⟨c, now, rest, h⟩
  · exact ⟨s, step_idle s h, fun c now rest hc => by simp [h] at hc, fun rest hr => by simp [h] at hr⟩
  · refine ⟨_, step_reset s rest h, fun c now rest hc => by simp [h] at hc, fun rest' hr => ?_⟩
    obtain rfl : rest = rest' := by simpa [h] using hr
    exact ⟨rfl, rfl⟩
  · obtain ⟨i, u, st, r, hu, -, f⟩ := step_command_responds h
    refine ⟨_, hu, fun c' now' rest' hc => ?_, fun rest hr => by simp [h] at hr⟩
    obtain ⟨⟨rfl, rfl⟩, rfl⟩ : (c = c' ∧ now = now') ∧ rest = rest' := by simpa [h] using hc
    refine ⟨f.inputs, f.timeNow, mkResponse st r, ?_, mkResponse_result_of_ne_ok st r⟩
    rw [respond_responses, f.responses, acceptCommand_responses]

/-! Statements about every command. -/

/-- What a command answers is a response after a state within its frame. -/
theorem exec_next_cases {i : Instr} {s t : State} (h : exec i s = .next t) :
    ∃ u st r, t = respond u st r ∧ CommandFrame i s u := by
  obtain ⟨u, st, r, hu, f⟩ := exec_responds i s
  rw [h] at hu
  cases hu
  exact ⟨u, st, r, rfl, f⟩

/-- Settles O14: the frame of every command appends each TX event with its link frame. -/
theorem eachTxEventGivesItsFrame : Obligations.EachTxEventGivesItsFrame := by
  intro i s t h
  obtain ⟨u, st, r, rfl, f⟩ := exec_next_cases h
  exact f.emits

/-- Settles O15: the classes of Safety are fields of the frame. -/
theorem onlyTheNamedCommandsWrite : Obligations.OnlyTheNamedCommandsWrite := by
  intro i s t h
  obtain ⟨u, st, r, rfl, f⟩ := exec_next_cases h
  exact ⟨f.params, f.timeNow, f.inputs, f.address, f.cache, f.table, f.fragId, f.pend, f.outputs⟩

/-- Settles O16: a command that learns no address runs the same at any time (`exec_timeFree`). -/
theorem timeIsReadOnlyByCacheUpdates : Obligations.TimeIsReadOnlyByCacheUpdates := by
  intro i s t n hi h
  obtain ⟨u, hu, hn⟩ := exec_timeFree n i s hi
  rw [h] at hu
  cases hu
  exact hn

theorem toNat_succ (v : Half) : (v + 1).toNat = (v.toNat + 1) % 2 ^ 16 := by
  rw [BitVec.toNat_add]
  rfl

/-- Settles O18: the frame of every command, and `ipSend_frame` for the three commands that always send. -/
theorem fragIdAdvancesByAtMostOne : Obligations.FragIdAdvancesByAtMostOne := by
  intro i s t h
  have hsend : ∀ b dst proto, exec i s = complete (.ok (ipSend s b dst proto)) →
      t.fragId.toNat = (s.fragId.toNat + 1) % 2 ^ 16 := fun b dst proto he => by
    rw [h, complete_ok] at he
    cases he
    rw [respond_fragId, (ipSend_frame s b dst proto).2, toNat_succ]
  refine ⟨fun hi => ?_, ?_, ?_, ?_⟩
  · obtain ⟨u, st, r, rfl, f⟩ := exec_next_cases h
    exact (f.fragIdNext hi).imp id fun hnext => (congrArg BitVec.toNat hnext).trans (toNat_succ s.fragId)
  · rintro dst proto p rfl
    exact hsend _ _ _ rfl
  · rintro dst code p rfl
    exact hsend _ _ _ rfl
  · rintro sport dst dport p rfl hlen
    exact hsend _ _ _ (if_neg (Nat.not_lt.2 hlen))

/-- Settles O19: the frame of every command keeps the handler table's ports apart, and reset frees every slot. -/
theorem noTwoSlotsHoldOnePort : Obligations.NoTwoSlotsHoldOnePort := by
  refine ⟨fun p => uniquePorts_replicate_empty _, fun s t hports hstep => ?_⟩
  rcases inputs_cases s with h | ⟨rest, h⟩ | ⟨c, now, rest, h⟩
  · rw [step_idle s h] at hstep
    cases hstep
    exact hports
  · rw [step_reset s rest h] at hstep
    cases hstep
    exact uniquePorts_replicate_empty _
  · obtain ⟨i, u, st, r, hu, -, f⟩ := step_command_responds h
    rw [hu] at hstep
    cases hstep
    exact f.tableKept.ports hports

/-! The registers. -/

/-- Settles O26, from the register table's read-back lemma. -/
theorem registerWritesReadBack : Obligations.RegisterWritesReadBack := by
  refine fun s r v mask => ⟨fun h => ?_, fun h => exec_regWr_of_none (regWrite_refused s v h)⟩
  obtain ⟨u, hw, hread, hother⟩ := regWrite_readBack s v h
  refine ⟨answered u .ok 0, exec_regWr_of_some hw, exec_regRd_of_some hread, hother, ?_⟩
  rw [regWrite_writes hw]
  rfl

/-- Settles O6, by the step's equation for a command. -/
theorem stepRunsTheDecodedCommand : Obligations.StepRunsTheDecodedCommand := by
  intro s c now rest i h hd
  rw [step_command s c now rest h, hd]
  rfl

/-- Settles O7: `applyReset` writes the values of R58. -/
theorem resetInputClearsTheState : Obligations.ResetInputClearsTheState := fun s rest h =>
  ⟨_, step_reset s rest h, rfl, rfl, rfl, regRead_eq_zero_of_cleared rfl rfl rfl rfl, rfl, rfl, rfl, rfl,
    regRead_eq_of_params_eq rfl, rfl, rfl, rfl, rfl⟩

/-- Settles O8, field by field. -/
theorem resetStateMeetsTheInvariants : Obligations.ResetStateMeetsTheInvariants := fun _ =>
  ⟨inv_of_cleared rfl rfl rfl, rfl, regRead_eq_zero_of_cleared rfl rfl rfl rfl, fun _ he => List.eq_of_mem_replicate he,
    rfl, fun _ hu => List.eq_of_mem_replicate hu, rfl, rfl, rfl⟩

/-- Settles O25: one line of the register table each. -/
theorem registerReadsAnswerTheTable : Obligations.RegisterReadsAnswerTheTable := by
  rintro s ⟨-, harp, -, hudp, -, hmax⟩
  have hflag : ∀ b : Bool, (if b then 1 else 0 : Word).setWidth 64 = if b then 1 else 0 := by decide
  refine ⟨exec_regRd_value (regRead_localIp s) rfl,
    exec_regRd_value (regRead_localMac0 s) (setWidth_localMac0 s.localMac),
    exec_regRd_value (regRead_localMac1 s) (setWidth_localMac1 s.localMac),
    exec_regRd_value (regRead_fragId s) (BitVec.setWidth_setWidth (x := s.fragId) (by decide)),
    exec_regRd_value (regRead_engineStatus s) (hflag s.pend.valid),
    exec_regRd_value (regRead_arpCapacity s) (setWidth_ofNat_word_of_lt harp),
    exec_regRd_value (regRead_arpTimeout s) (setWidth_ofNat_word s.params.arpTimeout),
    exec_regRd_value (regRead_udpCapacity s) (setWidth_ofNat_word_of_lt hudp),
    exec_regRd_value (regRead_ipTtl s) (BitVec.setWidth_setWidth (x := s.params.ipTtl) (by decide)),
    exec_regRd_value (regRead_maxPkt s) (setWidth_ofNat_word_of_lt (by omega)),
    exec_regRd_value (regRead_flags s) (hflag s.params.ipTrimPadding),
    fun r hr => exec_regRd_of_none (regRead_unassigned s hr)⟩

/-- Settles O27, from ENGINE_STATUS's line of the register table. -/
theorem engineStatusFollowsThePendingSlot : Obligations.EngineStatusFollowsThePendingSlot := by
  refine ⟨fun s => ?_, fun s v => exec_regWr_of_none (regWrite_refused s v (by decide)), fun p => rfl⟩
  have hread : regRead s 0x004 = some (BitVec.ofNat 32 s.pend.valid.toNat) := by
    rw [regRead_engineStatus]
    cases s.pend.valid <;> rfl
  refine ⟨hread, ?_⟩
  rw [exec_regRd_of_some hread]
  cases s.pend.valid <;> rfl

end Sys2Proof.Proofs
end

section
/-! PROOFS. The output lists (20_memory.md R86): no command reads what was emitted before it. -/

namespace Sys2Proof.Proofs

open Sys2Proof Sys2Proof.Machine Sys2Proof.Safety Sys2Proof.Laws

/-- What was emitted before a step: events, their frames and response records. -/
structure Outputs where
  events : List Event
  frames : List Bytes
  responses : List Response

/-- `s` with the outputs `o` in front of its own. -/
def Outputs.before (o : Outputs) (s : State) : State :=
  { s with events := o.events ++ s.events, frames := o.frames ++ s.frames, responses := o.responses ++ s.responses }

theorem sameReceiver_before (o : Outputs) (s : State) : SameReceiver s (o.before s) := ⟨rfl, rfl, rfl⟩

/-! The state's operations: each appends behind the earlier outputs. -/

theorem respond_before (o : Outputs) (s : State) (st : Status) (r : BitVec 64) :
    respond (o.before s) st r = o.before (respond s st r) := by
  simp only [respond, Outputs.before, List.append_assoc]

theorem emitTx_before (o : Outputs) (s : State) (dst : Hw) (type : Half) (p : Bytes) :
    emitTx (o.before s) dst type p = o.before (emitTx s dst type p) := by
  simp only [emitTx, Outputs.before, List.append_assoc]

theorem emitDeliver_before (o : Outputs) (s : State) (h : Word) (src : Ip) (sport : Half) (p : Bytes) :
    emitDeliver (o.before s) h src sport p = o.before (emitDeliver s h src sport p) := by
  simp only [emitDeliver, Outputs.before, List.append_assoc]

theorem regWrite_before (o : Outputs) (s : State) (r : Half) (v : Word) :
    regWrite (o.before s) r v = (regWrite s r v).map o.before := by
  simp only [regWrite, apply_ite (Option.map o.before)]
  rfl

/-! Address resolution. -/

theorem arpRequest_before (o : Outputs) (s : State) (ip : Ip) :
    arpRequest (o.before s) ip = o.before (arpRequest s ip) :=
  emitTx_before o s hwBroadcast ethTypeArp (arpMsg s arpOpRequest 0 ip)

theorem arpUpdate_before (o : Outputs) (s : State) (ip : Ip) (hw : Hw) :
    arpUpdate (o.before s) ip hw = o.before (arpUpdate s ip hw) := rfl

theorem arpResolveSend_before (o : Outputs) (s : State) (pkt : Bytes) (ip : Ip) (proto : Half) :
    arpResolveSend (o.before s) pkt ip proto = o.before (arpResolveSend s pkt ip proto) := by
  have harp : (o.before s).arp = s.arp := rfl
  simp only [arpResolveSend, harp]
  cases arpLookup s.arp ip with
  | some hw => exact emitTx_before o s hw proto pkt
  | none => exact arpRequest_before o { s with pend := ⟨true, ip, proto, pkt⟩ } ip

theorem arpReply_before (o : Outputs) (s : State) (sha : Hw) :
    arpReply (o.before s) sha = o.before (arpReply s sha) := by
  have hpend : (o.before s).pend = s.pend := rfl
  simp only [arpReply, hpend, emitTx_before, apply_ite o.before]
  rfl

theorem arpAnswer_before (o : Outputs) (s : State) (sha : Hw) (spa tpa : Ip) :
    arpAnswer (o.before s) sha spa tpa = o.before (arpAnswer s sha spa tpa) := by
  simp only [arpAnswer, emitTx_before, apply_ite o.before]
  rfl

theorem arpIn_before (o : Outputs) (s : State) (m : Bytes) : arpIn (o.before s) m = o.before (arpIn s m) := by
  simp only [arpIn, arpUpdate_before, arpReply_before, arpAnswer_before, apply_ite o.before]

/-! IPv4 output and the receive path. -/

theorem ipSendFragment_before (o : Outputs) (s : State) (b : Buf) (dst : Ip) (proto : BitVec 8) (id : Half)
    (off : BitVec 13) (mf : Bool) :
    ipSendFragment (o.before s) b dst proto id off mf = o.before (ipSendFragment s b dst proto id off mf) :=
  arpResolveSend_before o s (ipDatagram s b dst proto id off mf).win dst ethTypeIpv4

theorem ipSendLoop_before (o : Outputs) (fuel : Nat) (s : State) (rest : Bytes) (off : Nat) (dst : Ip)
    (proto : BitVec 8) (id : Half) :
    ipSendLoop fuel (o.before s) rest off dst proto id = o.before (ipSendLoop fuel s rest off dst proto id) := by
  induction fuel generalizing s rest off with
  | zero => rfl
  | succ k ih => simp only [ipSendLoop, ipSendFragment_before, ih, apply_ite o.before]

theorem ipSend_before (o : Outputs) (s : State) (b : Buf) (dst : Ip) (proto : BitVec 8) :
    ipSend (o.before s) b dst proto = o.before (ipSend s b dst proto) := by
  simp only [ipSend]
  split
  · exact ipSendLoop_before o (bufLen b) { s with fragId := s.fragId + 1 } b.win 0 dst proto s.fragId
  · exact ipSendFragment_before o { s with fragId := s.fragId + 1 } b dst proto s.fragId 0 false

theorem InputAction.run_before (o : Outputs) (s : State) (a : InputAction) :
    a.run (o.before s) = o.before (a.run s) := by
  cases a with
  | drop => rfl
  | deliver h src sport p => exact emitDeliver_before o s h src sport p
  | send b dst proto => exact ipSend_before o s b dst proto

/-- R220 to R222: IP input takes the same action whatever was emitted before. -/
theorem ipIn_before (o : Outputs) (s : State) (b : Buf) :
    ∃ u, ipIn s b = .ok u ∧ ipIn (o.before s) b = .ok (o.before u) := by
  obtain ⟨a, ha⟩ := ipIn_action s b
  exact ⟨a.run s, ha s (.refl s), (ha _ (sameReceiver_before o s)).trans (congrArg _ (a.run_before o s))⟩

/-- R282, R283: UDP input takes the same action whatever was emitted before. -/
theorem udpIn_before (o : Outputs) (s : State) (b : Buf) (src : Ip) :
    ∃ u, udpIn s b src = .ok u ∧ udpIn (o.before s) b src = .ok (o.before u) := by
  obtain ⟨a, ha⟩ := udpIn_action s b src
  exact ⟨a.run s, ha s (.refl s), (ha _ (sameReceiver_before o s)).trans (congrArg _ (a.run_before o s))⟩

theorem icmpIn_before (o : Outputs) (s : State) (m : Bytes) (src : Ip) :
    icmpIn (o.before s) m src = o.before (icmpIn s m src) := by
  obtain ⟨a, ha⟩ := icmpIn_action m src
  rw [ha, ha, a.run_before]

/-- R311: the receive dispatch. -/
theorem ethRx_before (o : Outputs) (s : State) (f : Bytes) :
    ∃ u, ethRx s f = .ok u ∧ ethRx (o.before s) f = .ok (o.before u) := by
  by_cases hlen : f.length < linkHdrLen
  · exact ⟨s, if_pos hlen, if_pos hlen⟩
  simp only [ethRx, if_neg hlen, removeHeader_of_le (load f) linkHdrLen (Nat.le_of_not_lt hlen)]
  by_cases harp : be16 f 12 = ethTypeArp
  · simp only [if_pos harp, arpIn_before]
    exact ⟨_, rfl, rfl⟩
  by_cases hip : be16 f 12 = ethTypeIpv4
  · simp only [if_neg harp, if_pos hip, ethIpv4, arpUpdate_before, ← apply_ite o.before]
    exact ipIn_before o _ _
  · simp only [if_neg harp, if_neg hip]
    exact ⟨s, rfl, rfl⟩

/-! The commands. -/

/-- The command `i` runs from `s` as it does with the outputs `o` in front, and leaves them in front. -/
def OutputsUnread (o : Outputs) (i : Instr) (s : State) : Prop :=
  ∃ t, exec i s = .next t ∧ exec i (o.before s) = .next (o.before t)

theorem OutputsUnread.of_respond {o : Outputs} {i : Instr} {s u : State} (st : Status) (r : BitVec 64)
    (h : exec i s = .next (respond u st r)) (ho : exec i (o.before s) = .next (respond (o.before u) st r)) :
    OutputsUnread o i s :=
  ⟨respond u st r, h, ho.trans (congrArg _ (respond_before o u st r))⟩

/-- A command that ends with ST_OK and the result 0. -/
theorem OutputsUnread.of_complete {o : Outputs} {i : Instr} {s u : State} (h : exec i s = complete (.ok u))
    (ho : exec i (o.before s) = complete (.ok (o.before u))) : OutputsUnread o i s :=
  .of_respond .ok 0 h ho

theorem udpOpen_outputsUnread (o : Outputs) (port : Half) (handler : Word) (s : State) :
    OutputsUnread o (.udpOpen port handler) s := by
  cases hfind : udpFind s.udp port with
  | some j => exact .of_complete (exec_udpOpen_registered handler hfind) (exec_udpOpen_registered handler hfind)
  | none =>
    cases hfree : udpFree s.udp with
    | some j => exact .of_complete (exec_udpOpen_new handler hfind hfree) (exec_udpOpen_new handler hfind hfree)
    | none => exact .of_respond .fail 0 (exec_udpOpen_full handler hfind hfree) (exec_udpOpen_full handler hfind hfree)

theorem udpClose_outputsUnread (o : Outputs) (port : Half) (s : State) : OutputsUnread o (.udpClose port) s := by
  cases hfind : udpFind s.udp port with
  | some j => exact .of_complete (exec_udpClose_registered hfind) (exec_udpClose_registered hfind)
  | none => exact .of_complete (exec_udpClose_unregistered hfind) (exec_udpClose_unregistered hfind)

theorem regRd_outputsUnread (o : Outputs) (reg : Half) (s : State) : OutputsUnread o (.regRd reg) s := by
  cases hr : regRead s reg with
  | some v => exact .of_respond .ok _ (exec_regRd_of_some hr) (exec_regRd_of_some hr)
  | none => exact .of_respond .illegal 0 (exec_regRd_of_none hr) (exec_regRd_of_none hr)

theorem regWr_outputsUnread (o : Outputs) (reg : Half) (value : Word) (s : State) :
    OutputsUnread o (.regWr reg value) s := by
  cases hw : regWrite s reg value with
  | some u =>
    exact .of_complete (exec_regWr_of_some hw) (exec_regWr_of_some (by rw [regWrite_before, hw]; rfl))
  | none =>
    exact .of_respond .illegal 0 (exec_regWr_of_none hw) (exec_regWr_of_none (by rw [regWrite_before, hw]; rfl))

/-- R86: every command. -/
theorem exec_outputsUnread (o : Outputs) (i : Instr) (s : State) : OutputsUnread o i s := by
  have hof : ∀ {u v : State}, u = v → complete (.ok u) = complete (.ok v) := congrArg (fun u => complete (.ok u))
  cases i with
  | nop => exact .of_complete rfl rfl
  | csum pkt => exact .of_respond .ok _ rfl rfl
  | arpInit => exact .of_complete rfl (hof (arpRequest_before o { s with arp := _ } s.localIp))
  | arpUpdate ip hw => exact .of_complete rfl rfl
  | arpLookup ip => exact .of_respond .ok _ rfl rfl
  | arpRequest ip => exact .of_complete rfl (hof (arpRequest_before o s ip))
  | arpResolve ip proto pkt => exact .of_complete rfl (hof (arpResolveSend_before o s pkt ip proto))
  | arpIn pkt => exact .of_complete rfl (hof (arpIn_before o s pkt))
  | ipIn pkt =>
    obtain ⟨u, hu, ho⟩ := ipIn_before o s (load pkt)
    exact .of_complete (congrArg complete hu) (congrArg complete ho)
  | ipFrag dst proto id off mf pkt =>
    by_cases hlen : 65515 < pkt.length
    · exact .of_respond .length 0 (if_pos hlen) (if_pos hlen)
    · exact .of_complete (if_neg hlen)
        ((if_neg hlen).trans (hof (ipSendFragment_before o s (load pkt) dst proto id off mf)))
  | ipSend dst proto pkt => exact .of_complete rfl (hof (ipSend_before o s _ _ _))
  | icmpIn src pkt => exact .of_complete rfl (hof (icmpIn_before o s pkt src))
  | icmpUnreach dst code pkt => exact .of_complete rfl (hof (ipSend_before o s _ _ _))
  | udpIn src pkt =>
    obtain ⟨u, hu, ho⟩ := udpIn_before o s (load pkt) src
    exact .of_complete (congrArg complete hu) (congrArg complete ho)
  | udpSend sport dst dport pkt =>
    by_cases hlen : 65527 < pkt.length
    · exact .of_respond .length 0 (if_pos hlen) (if_pos hlen)
    · exact .of_complete (if_neg hlen) ((if_neg hlen).trans (hof (ipSend_before o s _ _ _)))
  | udpOpen port handler => exact udpOpen_outputsUnread o port handler s
  | udpClose port => exact udpClose_outputsUnread o port s
  | udpPcsum src dst pkt =>
    by_cases hlen : pkt.length < udpHdrLen
    · exact .of_respond .length 0 (if_pos hlen) (if_pos hlen)
    · exact .of_respond .ok _ (if_neg hlen) (if_neg hlen)
  | ethRx pkt =>
    obtain ⟨u, hu, ho⟩ := ethRx_before o s pkt
    exact .of_complete (congrArg complete hu) (congrArg complete ho)
  | regRd reg => exact regRd_outputsUnread o reg s
  | regWr reg value => exact regWr_outputsUnread o reg value s

/-! The step. -/

/-- Every step extends the event sequence at its end. -/
theorem step_extends_events {s t : State} (h : step s = .next t) : s.events <+: t.events := by
  rcases inputs_cases s with hin | ⟨rest, hin⟩ | ⟨c, now, rest, hin⟩
  · rw [step_idle s hin] at h
    cases h
    exact List.prefix_rfl
  · rw [step_reset s rest hin] at h
    cases h
    exact List.prefix_rfl
  · obtain ⟨i, u, st, r, hu, -, f⟩ := step_command_responds hin
    rw [hu] at h
    cases h
    obtain ⟨es, hes, -⟩ := f.emits
    exact ⟨es, hes.symm⟩

/-- Every step leaves the earlier outputs in front of its own, whatever they are. -/
theorem step_before {s t : State} (o : Outputs) (h : step s = .next t) : step (o.before s) = .next (o.before t) := by
  rcases inputs_cases s with hin | ⟨rest, hin⟩ | ⟨c, now, rest, hin⟩
  · rw [step_idle s hin] at h
    cases h
    exact step_idle (o.before s) hin
  · rw [step_reset s rest hin] at h
    cases h
    exact step_reset (o.before s) rest hin
  · rw [step_command s c now rest hin] at h
    rw [step_command (o.before s) c now rest hin, show (o.before s).params = s.params from rfl]
    cases hd : decode s.params c with
    | ok i =>
      obtain ⟨u, hu, ho⟩ := exec_outputsUnread o i (acceptCommand now rest s)
      rw [hd] at h
      cases hu.symm.trans h
      exact ho
    | error e =>
      rw [hd] at h
      cases h
      exact congrArg _ (respond_before o (acceptCommand now rest s) (decodeStatus e) 0)

/-- Settles O13: no command reads the output lists (`step_before`). -/
theorem outputsAppendInIssueOrder : Obligations.OutputsAppendInIssueOrder := fun _ _ es fs rs h =>
  ⟨step_extends_events h, step_before ⟨es, fs, rs⟩ h⟩

end Sys2Proof.Proofs
end

section
/-! PROOFS. What ARP_UPDATE leaves in the cache, and the commands that only read. -/

namespace Sys2Proof.Proofs

open Sys2Proof Sys2Proof.Machine Sys2Proof.Safety Sys2Proof.Laws

theorem exec_arpUpdate (ip : Ip) (hw : Hw) (s : State) :
    exec (.arpUpdate ip hw) s = .next (respond (arpUpdate s ip hw) .ok 0) := rfl

/-- R183: a lookup that misses answers 0. -/
theorem exec_arpLookup_of_none {s : State} {ip : Ip} (h : arpLookup s.arp ip = none) :
    exec (.arpLookup ip) s = .next (answered s .ok 0) := by
  simp only [exec, execArpLookup, h, respond_ok]

/-- R183: a lookup that hits answers the address, with bit 48 set. -/
theorem exec_arpLookup_of_some {s : State} {ip : Ip} {hw : Hw} (h : arpLookup s.arp ip = some hw) :
    exec (.arpLookup ip) s = .next (answered s .ok ((1 : BitVec 16) ++ hw)) := by
  simp only [exec, execArpLookup, h, respond_ok]

/-- What an update leaves in the cache: the new entry, and swept old ones. -/
theorem mem_arpUpdate {s : State} {ip : Ip} {hw : Hw} {e : ArpEntry} (h : e ∈ (arpUpdate s ip hw).arp) :
    e = ⟨.valid, ip, hw, s.timeNow⟩ ∨ ∃ d ∈ s.arp, e = sweepEntry s.params.arpTimeout s.timeNow d := by
  rw [arpUpdate_arp] at h
  rcases List.mem_or_eq_of_mem_set h with h | h
  · obtain ⟨d, hd, rfl⟩ := List.mem_map.1 h
    exact .inr ⟨d, hd, rfl⟩
  · exact .inl h

/-- R180: the sweep keeps no VALID entry that is older than the timeout. -/
theorem not_expired_of_sweepEntry_valid {timeout now : Nat} {e : ArpEntry}
    (h : (sweepEntry timeout now e).state = .valid) : now ≤ timeout + e.ts := by
  rcases sweepEntry_cases timeout now e with ⟨_, hs⟩ | ⟨hle, _⟩
  · rw [hs] at h
    cases h
  · exact hle

/-- R180: the sweep leaves an entry that is not older than the timeout. -/
theorem sweepEntry_of_not_expired {timeout now : Nat} {e : ArpEntry} (h : now ≤ timeout + e.ts) :
    sweepEntry timeout now e = e := by
  rcases sweepEntry_cases timeout now e with ⟨hlt, _⟩ | ⟨_, hs⟩
  · omega
  · exact hs

/-- R90: after an update for another address, an address whose entries are all older than the timeout misses. -/
theorem arpLookup_arpUpdate_of_expired {s : State} {ip other : Ip} (hw : Hw) (hne : other ≠ ip)
    (hold : ∀ e ∈ s.arp, e.ip = other → s.params.arpTimeout + e.ts < s.timeNow) :
    arpLookup (arpUpdate s ip hw).arp other = none := by
  refine (arpLookup_eq_none _ _).2 fun e he hvalid hother => ?_
  rcases mem_arpUpdate he with rfl | ⟨d, hd, rfl⟩
  · exact hne hother.symm
  · have hexpired := hold d hd ((sweepEntry_ip _ _ d).symm.trans hother)
    have hfresh := not_expired_of_sweepEntry_valid hvalid
    omega

/-- Settles O31: a slot after an update is the new entry or a swept old one (`getElem?_arpUpdate`). -/
theorem updateExpiresOldEntriesOnly : Obligations.UpdateExpiresOldEntriesOnly := by
  intro s ip hw
  refine ⟨_, exec_arpUpdate ip hw s, fun other hne hold => ?_, fun hs => ?_, fun k e hk he hfresh => ?_⟩
  · exact exec_arpLookup_of_none (arpLookup_arpUpdate_of_expired hw hne hold)
  · have hlt := updateIndex_lt (arpSweep s.params.arpTimeout s.timeNow s.arp) (by simpa [arpSweep] using hs)
    rw [length_arpSweep] at hlt
    rw [respond_arp, getElem?_arpUpdate, if_pos rfl, if_pos hlt]
  · rw [respond_arp, getElem?_arpUpdate, if_neg hk.symm, he, Option.map_some, sweepEntry_of_not_expired hfresh]

/-! Idempotence (20_memory.md R73). -/

/-- A command that does nothing but answer, whatever was answered before, answers the same when it is repeated. -/
theorem repeat_of_respond {i : Instr} {s : State} (st : Status) (v : BitVec 64)
    (h : ∀ rs, exec i { s with responses := rs } = .next (respond { s with responses := rs } st v)) :
    ∃ r : Response, exec i s = .next { s with responses := s.responses ++ [r] } ∧
      exec i { s with responses := s.responses ++ [r] } = .next { s with responses := s.responses ++ [r, r] } := by
  refine ⟨mkResponse st v, h s.responses, ?_⟩
  rw [h, respond, List.append_assoc]
  rfl

/-- Settles O21: none of the five reads a response. -/
theorem readingCommandsAreIdempotent : Obligations.ReadingCommandsAreIdempotent := by
  rintro i s (rfl | ⟨reg, rfl⟩ | ⟨ip, rfl⟩ | ⟨p, rfl⟩ | ⟨src, dst, p, rfl⟩)
  · exact repeat_of_respond .ok 0 fun rs => rfl
  · cases hr : regRead s reg with
    | some v => exact repeat_of_respond .ok (v.setWidth 64) fun rs => exec_regRd_of_some hr
    | none => exact repeat_of_respond .illegal 0 fun rs => exec_regRd_of_none hr
  · cases hl : arpLookup s.arp ip with
    | some hw => exact repeat_of_respond .ok ((1 : BitVec 16) ++ hw) fun rs => exec_arpLookup_of_some hl
    | none => exact repeat_of_respond .ok 0 fun rs => exec_arpLookup_of_none hl
  · exact repeat_of_respond .ok _ fun rs => rfl
  · by_cases hlen : p.length < udpHdrLen
    · exact repeat_of_respond .length 0 fun rs => if_pos hlen
    · exact repeat_of_respond .ok _ fun rs => if_neg hlen

end Sys2Proof.Proofs
end

section
/-! PROOFS. IPv4 and UDP input by the received bytes (42_ip.md, 44_udp.md): what is accepted, trimmed, cut and embedded. -/

namespace Sys2Proof.Proofs

open Sys2Proof Sys2Proof.Machine Sys2Proof.Safety Sys2Proof.Laws

/-! Reading a field in the front part of a byte string. -/

theorem be16_take (a : Bytes) {n o : Nat} (h : o + 1 < n) : be16 (a.take n) o = be16 a o := by
  rw [be16, be16, byteAt_take a n o (by omega), byteAt_take a n (o + 1) h]

theorem be32_take (a : Bytes) {n o : Nat} (h : o + 3 < n) : be32 (a.take n) o = be32 a o := by
  rw [be32, be32, be16_take a (by omega), be16_take a (by omega)]

/-! The checks of R220. -/

theorem ipHdrBytes_eq_headerLen (w : Bytes) : ipHdrBytes w = headerLen w := by
  rw [ipHdrBytes, headerLen, BitVec.extractLsb'_toNat, Nat.shiftRight_zero]

theorem ipVersion_eq_four_iff (w : Bytes) : ipVersion w = 4 ↔ (byteAt w 0).toNat / 16 = 4 := by
  have hlt := (byteAt w 0).isLt
  rw [← BitVec.toNat_inj, ipVersion, BitVec.extractLsb'_toNat, Nat.shiftRight_eq_div_pow]
  change _ / 2 ^ 4 % 2 ^ 4 = 4 ↔ _
  omega

/-- The low-order bit of a byte is its parity (R127). -/
theorem getLsbD_zero_iff_odd (b : Byte) : b.getLsbD 0 = true ↔ b.toNat % 2 = 1 := by
  simp [BitVec.getLsbD, Nat.testBit_zero]

/-- R220: a datagram is accepted when none of the checks fails. -/
theorem ipAccepts_iff (localIp : Ip) (w : Bytes) : ipAccepts localIp w = true ↔ ¬ipRejects localIp w := by
  simp only [ipAccepts, Bool.and_eq_true, decide_eq_true_eq, beq_iff_eq, Bool.not_eq_true', ← Bool.not_eq_true]
  simp only [ipVersion_eq_four_iff, getLsbD_zero_iff_odd, ipHdrBytes_eq_headerLen, ipTotalLen, ipHdrLen, ipMaxTotalIn,
    ipRejects, not_or, not_not, Nat.not_lt, headerLen]
  constructor
  · rintro ⟨⟨⟨⟨⟨⟨⟨hlen, hver⟩, hihl⟩, hhdr⟩, htos⟩, htotal⟩, hsum⟩, hdst⟩
    exact ⟨hlen, hver, by omega, hhdr, htos, htotal, hsum, hdst⟩
  · rintro ⟨hlen, hver, hihl, hhdr, htos, htotal, hsum, hdst⟩
    exact ⟨⟨⟨⟨⟨⟨⟨hlen, hver⟩, by omega⟩, hhdr⟩, htos⟩, htotal⟩, hsum⟩, hdst⟩

/-! Trimming (R221). -/

/-- What trimming leaves is the front part of the datagram, with the header in it. -/
theorem trimmed_eq_take (p : Params) {w : Bytes} (h : headerLen w ≤ w.length) :
    ∃ n, headerLen w ≤ n ∧ trimmed p w = w.take n := by
  rw [trimmed]
  split
  next hcut => exact ⟨(be16 w 2).toNat, hcut.2.2, rfl⟩
  · exact ⟨w.length, h, (List.take_length).symm⟩

/-- R221: trimming an accepted datagram gives `trimmed`, with nothing stored in front of it. -/
theorem ipTrim_load {s : State} {p : Bytes} (h20 : 20 ≤ headerLen p) (hlen : headerLen p ≤ p.length) :
    ∃ c, ipTrim s (load p) = .ok c ∧ c.win = trimmed s.params p ∧ c.front = [] := by
  rw [← ipHdrBytes_eq_headerLen] at h20 hlen
  obtain ⟨c, hc, -, -, hfront, hwin⟩ := ipTrim_ok s (load p) hlen h20
  exact ⟨c, hc, by rw [hwin, trimmed, ipHdrBytes_eq_headerLen]; rfl, hfront⟩

/-- R221: an accepted UDP datagram goes to UDP input with its header removed; the removed bytes stay in the store. -/
theorem ipIn_udp {s : State} {p : Bytes} (hacc : ¬ipRejects s.localIp p) (hproto : byteAt p 9 = 17) :
    ∃ b, b.win = (trimmed s.params p).drop (headerLen p) ∧
      b.front = ((trimmed s.params p).take (headerLen p)).reverse ∧
      ipIn s (load p) = udpIn s b (be32 p 12) := by
  have haccepts := (ipAccepts_iff s.localIp p).2 hacc
  obtain ⟨h20, hlen⟩ := ipAccepts_header _ _ haccepts
  rw [ipHdrBytes_eq_headerLen] at h20 hlen
  obtain ⟨c, hc, hwin, hfront⟩ := ipTrim_load (s := s) h20 hlen
  obtain ⟨n, hn, htake⟩ := trimmed_eq_take s.params hlen
  have hhdr : ipHdrBytes c.win = headerLen p := by
    rw [hwin, htake, ipHdrBytes_eq_headerLen, headerLen, byteAt_take _ _ _ (by omega), headerLen]
  have h9 : byteAt c.win 9 = ipProtoUdp := by rw [hwin, htake, byteAt_take _ _ _ (by omega), hproto]
  have h12 : be32 c.win 12 = be32 p 12 := by rw [hwin, htake, be32_take _ (by omega)]
  have hfit : headerLen p ≤ bufLen c := by rw [bufLen, hwin, htake, List.length_take]; omega
  refine ⟨⟨(c.win.take (headerLen p)).reverse ++ c.front, c.win.drop (headerLen p), c.back⟩, by rw [hwin],
    by rw [hwin, hfront, List.append_nil], ?_⟩
  have hicmp : ipProtoUdp ≠ ipProtoIcmp := by decide
  simp only [ipIn, load_win, haccepts, if_true, hc, ipDispatch, hhdr, h9, h12, if_neg hicmp,
    removeHeader_of_le c _ hfit]

/-! The segment UDP input checks (R282). -/

/-- What the cut leaves of a segment that declares a UDP header is its front part, with that header in it. -/
theorem udpCut_eq_take {seg : Bytes} (hlen : 8 ≤ seg.length) (hulen : 8 ≤ (be16 seg 4).toNat) :
    ∃ n, 8 ≤ n ∧ udpCut seg = seg.take n := by
  rw [udpCut]
  split
  · exact ⟨(be16 seg 4).toNat, hulen, rfl⟩
  · exact ⟨seg.length, hlen, (List.take_length).symm⟩

/-- A field in front of an overwrite reads as before. -/
theorem be16_putBytes_before {b v : Bytes} {o k : Nat} (h : o + v.length ≤ b.length) (hk : k + 1 < o) :
    be16 (putBytes b o v) k = be16 b k := by
  rw [be16, be16, byteAt_putBytes b v o k h, byteAt_putBytes b v o (k + 1) h, if_neg (by omega), if_neg (by omega)]

/-- R282: the checksum of a segment, its own field zeroed. -/
theorem udpInChecksum_eq (s : State) {c : Buf} (src : Ip) (h : 8 ≤ bufLen c) :
    udpInChecksum s c src =
      csum (bytes32 src ++ bytes32 s.localIp ++ [0x00, 17] ++ bytes16 (be16 c.win 4) ++ putBytes c.win 6 [0, 0]) := by
  rw [udpInChecksum, udpPseudoChecksum_eq, memWrite_win, be16_putBytes_before h (by omega)]
  rfl

/-- R282, R288: a checksum field that is zeroed and restored leaves the segment as received. -/
theorem memWrite_checksum_restored {c : Buf} (h : 8 ≤ bufLen c) :
    memWrite (memWrite c 6 (bytes16 0)) 6 (bytes16 (be16 c.win 6)) = c := by
  have hwin : putBytes (putBytes c.win 6 (bytes16 0)) 6 (bytes16 (be16 c.win 6)) = c.win :=
    (putBytes_putBytes c.win (bytes16 0) (bytes16 (be16 c.win 6)) 6 rfl h).trans (put16_be16 c.win 6 h)
  rw [memWrite, memWrite_win, hwin]
  rfl

/-- R282: a segment that does not verify is dropped; one that does is dispatched, cut as R282 says and otherwise as
received. -/
theorem udpIn_cases (s : State) (b : Buf) (src : Ip) :
    (¬udpVerifies s.localIp src b.win ∧ udpIn s b src = .ok s) ∨
      (udpVerifies s.localIp src b.win ∧
        ∃ c, c.win = udpCut b.win ∧ c.front = b.front ∧ udpIn s b src = udpDispatch s c src) := by
  by_cases hlen : bufLen b < udpHdrLen
  · exact .inl ⟨fun hv => absurd hv.1 (Nat.not_le.2 hlen), if_pos hlen⟩
  by_cases hulen : (be16 b.win 4).toNat < udpHdrLen
  · exact .inl ⟨fun hv => absurd hv.2.1 (Nat.not_le.2 hulen), by rw [udpIn, if_neg hlen, if_pos hulen]⟩
  have h8 : 8 ≤ b.win.length := Nat.le_of_not_lt hlen
  have hu8 : 8 ≤ (be16 b.win 4).toNat := Nat.le_of_not_lt hulen
  obtain ⟨c, hc, hl, hwin, hfront⟩ := udpTrim_ok b (be16 b.win 4).toNat h8 hu8
  rw [← udpCut] at hwin
  obtain ⟨n, hn, htake⟩ := udpCut_eq_take h8 hu8
  have h4 : be16 c.win 4 = be16 b.win 4 := by rw [hwin, htake, be16_take _ (by omega)]
  have h6 : be16 c.win 6 = be16 b.win 6 := by rw [hwin, htake, be16_take _ (by omega)]
  have hiff : udpVerifies s.localIp src b.win ↔ udpInChecksum s c src = be16 c.win 6 := by
    rw [udpInChecksum_eq s src hl, h4, h6, hwin]
    exact ⟨fun hv => hv.2.2, fun hsum => ⟨h8, hu8, hsum⟩⟩
  simp only [udpIn, if_neg hlen, if_neg hulen, hc, hiff, memWrite_checksum_restored hl]
  by_cases hsum : udpInChecksum s c src = be16 c.win 6
  · exact .inr ⟨hsum, c, hwin, hfront, if_neg (not_not.2 hsum)⟩
  · exact .inl ⟨hsum, if_pos hsum⟩

/-- A port that no valid slot holds is not found. -/
theorem udpFind_eq_none {t : List UdpSlot} {port : Half} (h : ∀ u ∈ t, u.valid = true → u.port ≠ port) :
    udpFind t port = none := by
  rw [udpFind, List.findIdx?_eq_none_iff]
  exact fun u hu => by simpa using h u hu

/-! The error's embedded bytes (43_icmp.md R262). -/

/-- R262: the error embeds the first 28 bytes, so it depends on nothing after them. -/
theorem icmpUnreachable_congr (s : State) {d e : Bytes} (dst : Ip) (code : BitVec 8) (h : d.take 28 = e.take 28) :
    icmpUnreachable s d dst code = icmpUnreachable s e dst code := by
  have hembed : ∀ x : Bytes, x.take (min 28 x.length) = x.take 28 := fun x => by
    rw [← List.take_take, List.take_length]
  have hlen : min 28 d.length = min 28 e.length := by simpa using congrArg List.length h
  simp only [icmpUnreachable, unreachMsg, icmpEmbedLen]
  rw [hembed, hembed, hlen, h]

/-- R80, R81: re-attaching the last `n` bytes of a removed header shows them again in front of the window. -/
theorem frontBytes_of_removed {b : Buf} {w : Bytes} {h n : Nat} (hfront : b.front = (w.take h).reverse) (hn : n ≤ h)
    (hlen : h ≤ w.length) : frontBytes b n ++ w.drop h = w.drop (h - n) := by
  have htake : (w.take h).length = h := List.length_take_of_le hlen
  have hbytes : frontBytes b n = (w.take h).drop (h - n) := by
    rw [frontBytes, hfront, List.take_append_of_le_length (by rw [List.length_reverse]; omega), List.take_reverse,
      List.reverse_reverse, htake]
  rw [hbytes, ← List.drop_append_of_le_length (by omega), List.take_append_drop]

/-- R282: what the error embeds is the last 20 bytes of the removed header and the UDP header after it, as received: the cut
leaves both. -/
theorem take_addHeader_cut {c : Buf} {w : Bytes} {h : Nat} (h20 : 20 ≤ h) (hfront : c.front = (w.take h).reverse)
    (hwin : c.win = udpCut (w.drop h)) (hseg : 8 ≤ (w.drop h).length) (hulen : 8 ≤ (be16 (w.drop h) 4).toNat) :
    (addHeader c 20).win.take 28 = (w.drop (h - 20)).take 28 := by
  obtain ⟨n, hn, htake⟩ := udpCut_eq_take hseg hulen
  have hlen : h ≤ w.length := by rw [List.length_drop] at hseg; omega
  rw [← frontBytes_of_removed hfront h20 hlen, addHeader_win, hwin, htake, List.take_append, List.take_append,
    length_frontBytes, List.take_take, Nat.min_eq_left (by omega)]

theorem exec_ipIn_of_ok {s u : State} {p : Bytes} (h : ipIn s (load p) = .ok u) :
    exec (.ipIn p) s = .next (respond u .ok 0) :=
  congrArg complete h

theorem exec_icmpUnreach (s : State) (dst : Ip) (code : BitVec 8) (p : Bytes) :
    exec (.icmpUnreach dst code p) s = .next (respond (icmpUnreachable s p dst code) .ok 0) := rfl

/-- Settles O42: the segment goes to UDP input behind its stored header (`ipIn_udp`), which drops it or dispatches it to no
handler (`udpIn_cases`); the error then embeds the bytes as received (`take_addHeader_cut`). -/
theorem closedPortEmbedsTheReceivedHeader : Obligations.ClosedPortEmbedsTheReceivedHeader := by
  intro s p hacc hproto hclosed
  obtain ⟨h20, hlen⟩ := ipAccepts_header _ _ ((ipAccepts_iff s.localIp p).2 hacc)
  rw [ipHdrBytes_eq_headerLen] at h20 hlen
  obtain ⟨b, hbwin, hbfront, hin⟩ := ipIn_udp hacc hproto
  rcases udpIn_cases s b (be32 p 12) with ⟨hbad, hdrop⟩ | ⟨hgood, c, hcwin, hcfront, hdispatch⟩
  · rw [hbwin] at hbad
    exact ⟨fun hv => absurd hv hbad, fun _ => exec_ipIn_of_ok (hin.trans hdrop)⟩
  rw [hbwin] at hgood hcwin
  refine ⟨fun _ => ?_, fun hbad => absurd hgood hbad⟩
  obtain ⟨hseg, hulen, -⟩ := hgood
  obtain ⟨n, hn, hcut⟩ := udpCut_eq_take hseg hulen
  have hport : be16 c.win 2 = be16 ((trimmed s.params p).drop (headerLen p)) 2 := by
    rw [hcwin, hcut, be16_take _ (by omega)]
  have hnone : udpFind s.udp (be16 c.win 2) = none := hport ▸ udpFind_eq_none hclosed
  have hembed := take_addHeader_cut h20 (hcfront.trans hbfront) hcwin hseg hulen
  have hsent : udpDispatch s c (be32 p 12) = .ok (icmpUnreachable s (addHeader c 20).win (be32 p 12) 3) := by
    simp only [udpDispatch, hnone]
  refine ⟨_, exec_ipIn_of_ok (hin.trans (hdispatch.trans hsent)), ?_, fun hbare => ?_⟩
  · rw [exec_icmpUnreach, icmpUnreachable_congr s _ 3 hembed]
  · obtain ⟨m, -, htrim⟩ := trimmed_eq_take s.params hlen
    have hm : 28 ≤ m := by
      rw [htrim, List.length_drop, List.length_take] at hseg
      omega
    have hfirst : (addHeader c 20).win.take 28 = (p.take 28).take 28 := by
      rw [hembed, hbare, Nat.sub_self, List.drop_zero, htrim, List.take_take, List.take_take, Nat.min_eq_left hm,
        Nat.min_self]
    rw [exec_icmpUnreach, icmpUnreachable_congr s _ 3 hfirst]

end Sys2Proof.Proofs
end

section
/-! PROOFS. The decoder and the encoder (30_encoding.md R100 to R109, R118): each undoes the other, and what does not decode is
rejected with the first cause. -/

namespace Sys2Proof.Proofs

open Sys2Proof Sys2Proof.Machine Sys2Proof.Safety Sys2Proof.Laws

/-! The words of a descriptor from their fields: with the bits that must be zero at zero, the other fields are the word. -/

/-- A field inside the bits that must be zero is zero. -/
theorem field_eq_zero {w m : Word} (start len : Nat) (hm : m.extractLsb' start len = BitVec.allOnes len)
    (h : w &&& m = 0) : w.extractLsb' start len = 0#len := by
  have hand := congrArg (BitVec.extractLsb' start len) h
  rw [BitVec.extractLsb'_and, hm, BitVec.and_allOnes] at hand
  rw [hand]
  exact BitVec.extractLsb'_zero

/-- Two adjacent fields of a word are one field. -/
theorem fields_append (w : Word) (high low lenHigh lenLow : Nat) (h : high = low + lenLow) :
    w.extractLsb' high lenHigh ++ w.extractLsb' low lenLow = w.extractLsb' low (lenHigh + lenLow) :=
  BitVec.extractLsb'_append_extractLsb'_eq_extractLsb' h

theorem field_whole (w : Word) : w.extractLsb' 0 32 = w := BitVec.extractLsb'_eq_self

theorem eq_zero_of_and_allZero {w : Word} (h : w &&& allZero = 0) : w = 0 := by
  rw [← field_whole w]
  exact field_eq_zero 0 32 (by decide) h

theorem w0N_opcOf {w : Word} (h : w &&& Format.n.mustBeZero = 0) : w0N (opcOf w) = w := by
  rw [w0N, opcOf, show (0 : BitVec 24) = w.extractLsb' 0 24 from (field_eq_zero 0 24 (by decide) h).symm,
    fields_append w 24 0 8 24 rfl, field_whole]

theorem w0A16_fields {w : Word} (h : w &&& Format.a16.mustBeZero = 0) : w0A16 (opcOf w) (a16Of w) = w := by
  rw [w0A16, opcOf, a16Of, show (0 : BitVec 8) = w.extractLsb' 16 8 from (field_eq_zero 16 8 (by decide) h).symm,
    fields_append w 24 16 8 8 rfl, fields_append w 16 0 (8 + 8) 16 rfl, field_whole]

theorem w0A8_fields {w : Word} (h : w &&& Format.a8.mustBeZero = 0) : w0A8 (opcOf w) (a8Of w) = w := by
  rw [w0A8, opcOf, a8Of, show (0 : BitVec 16) = w.extractLsb' 0 16 from (field_eq_zero 0 16 (by decide) h).symm,
    fields_append w 24 16 8 8 rfl, fields_append w 16 0 (8 + 8) 16 rfl, field_whole]

/-- MF as a field of one bit. -/
theorem ofBool_mfOf (w : Word) : BitVec.ofBool (mfOf w) = w.extractLsb' 15 1 :=
  BitVec.eq_of_getLsbD_eq fun i hi => by
    obtain rfl : i = 0 := by omega
    simp [mfOf]

theorem w0Frag_fields {w : Word} (h : w &&& Format.frag.mustBeZero = 0) :
    w0Frag (opcOf w) (a8Of w) (mfOf w) (offOf w) = w := by
  rw [w0Frag, opcOf, a8Of, ofBool_mfOf, offOf,
    show (0 : BitVec 2) = w.extractLsb' 13 2 from (field_eq_zero 13 2 (by decide) h).symm,
    fields_append w 24 16 8 8 rfl, fields_append w 16 15 (8 + 8) 1 rfl, fields_append w 15 13 (8 + 8 + 1) 2 rfl,
    fields_append w 13 0 (8 + 8 + 1 + 2) 13 rfl, field_whole]

theorem wordOfLow_lowHalf {w : Word} (h : w &&& highZero = 0) : wordOfLow (lowHalf w) = w := by
  rw [wordOfLow, lowHalf, show (0 : BitVec 16) = w.extractLsb' 16 16 from (field_eq_zero 16 16 (by decide) h).symm,
    fields_append w 16 0 16 16 rfl, field_whole]

theorem hwWord2_hwOf (w2 w3 : Word) : hwWord2 (hwOf w2 w3) = w2 := extract_append_high w2 _

theorem hwWord3_hwOf (w2 : Word) {w3 : Word} (h : w3 &&& lowZero = 0) : hwWord3 (hwOf w2 w3) = w3 := by
  have hlow : (hwOf w2 w3).extractLsb' 0 16 = (w3.extractLsb' 16 16 : Half) := extract_append_low w2 _
  rw [hwWord3, hlow, show (0 : BitVec 16) = w3.extractLsb' 0 16 from (field_eq_zero 0 16 (by decide) h).symm,
    fields_append w3 16 0 16 16 rfl, field_whole]

/-! What decodes (R108). -/

/-- The row `r` admits the command under the parameters `p`: its opcode, 0 in every bit the row requires to be 0, a packet
only where the row takes one, and none above MAX_PKT (R102, R103, R106). -/
structure Admits (p : Params) (r : Row) (c : Command) : Prop where
  row : findRow (opcOf c.w0) = some r
  w0 : c.w0 &&& r.format.mustBeZero = 0
  w1 : c.w1 &&& r.w1Zero = 0
  w2 : c.w2 &&& r.w2Zero = 0
  w3 : c.w3 &&& r.w3Zero = 0
  noPacket : r.pkt = false → c.pkt = []
  length : c.pkt.length ≤ p.maxPkt

/-- The four checks of R108 on a command whose row is known. -/
theorem decode_of_row {p : Params} {c : Command} {r : Row} (h : findRow (opcOf c.w0) = some r) :
    decode p c =
      if c.w0 &&& r.format.mustBeZero ≠ 0 then .error .reservedW0Bit
      else if c.w1 &&& r.w1Zero ≠ 0 ∨ c.w2 &&& r.w2Zero ≠ 0 ∨ c.w3 &&& r.w3Zero ≠ 0 then .error .reservedOperandBit
      else if r.pkt = false ∧ c.pkt.length ≠ 0 then .error .packetNotTaken
      else if r.pkt = true ∧ p.maxPkt < c.pkt.length then .error .packetTooLong
      else .ok (buildInstr r.op c) := by
  simp only [decode, h]

theorem decode_of_no_row {p : Params} {c : Command} (h : findRow (opcOf c.w0) = none) :
    decode p c = .error .reservedOpcode := by
  simp only [decode, h]

/-- A command that its row admits decodes to the row's command. -/
theorem Admits.decode_eq {p : Params} {r : Row} {c : Command} (h : Admits p r c) :
    decode p c = .ok (buildInstr r.op c) := by
  rw [decode_of_row h.row, if_neg (not_not.2 h.w0), if_neg (by simp [h.w1, h.w2, h.w3]),
    if_neg (fun hp => hp.2 (by rw [h.noPacket hp.1]; rfl)), if_neg (fun hp => Nat.not_le.2 hp.2 h.length)]

/-- What decodes is admitted by its row. -/
theorem admits_of_decode {p : Params} {c : Command} {i : Instr} (h : decode p c = .ok i) :
    ∃ r, Admits p r c ∧ i = buildInstr r.op c := by
  cases hrow : findRow (opcOf c.w0) with
  | none => rw [decode_of_no_row hrow] at h; cases h
  | some r =>
    rw [decode_of_row hrow] at h
    split_ifs at h with h0 hops hnone hlong
    cases h
    simp only [not_or, not_not] at h0 hops
    obtain ⟨h1, h2, h3⟩ := hops
    have hempty : r.pkt = false → c.pkt = [] := fun hp => by simpa [hp] using hnone
    refine ⟨r, ⟨hrow, h0, h1, h2, h3, hempty, ?_⟩, rfl⟩
    cases hp : r.pkt with
    | false => simp [hempty hp]
    | true => simpa [hp] using hlong

/-! The encoder then the decoder. -/

/-- The encoder writes a descriptor that the command's row admits (R103, R107). -/
theorem encodesItsRow (i : Instr) : EncodesItsRow.Statement i := by
  cases i with
  | nop => exact EncodesItsRow.nop
  | csum p => exact EncodesItsRow.csum p
  | arpInit => exact EncodesItsRow.arpInit
  | arpUpdate ip hw => exact EncodesItsRow.arpUpdate ip hw
  | arpLookup ip => exact EncodesItsRow.arpLookup ip
  | arpRequest ip => exact EncodesItsRow.arpRequest ip
  | arpResolve ip proto p => exact EncodesItsRow.arpResolve ip proto p
  | arpIn p => exact EncodesItsRow.arpIn p
  | ipIn p => exact EncodesItsRow.ipIn p
  | ipFrag dst proto id off mf p => exact EncodesItsRow.ipFrag dst proto id off mf p
  | ipSend dst proto p => exact EncodesItsRow.ipSend dst proto p
  | icmpIn src p => exact EncodesItsRow.icmpIn src p
  | icmpUnreach dst code p => exact EncodesItsRow.icmpUnreach dst code p
  | udpIn src p => exact EncodesItsRow.udpIn src p
  | udpSend sport dst dport p => exact EncodesItsRow.udpSend sport dst dport p
  | udpOpen port handler => exact EncodesItsRow.udpOpen port handler
  | udpClose port => exact EncodesItsRow.udpClose port
  | udpPcsum src dst p => exact EncodesItsRow.udpPcsum src dst p
  | ethRx p => exact EncodesItsRow.ethRx p
  | regRd reg => exact EncodesItsRow.regRd reg
  | regWr reg value => exact EncodesItsRow.regWr reg value

theorem encode_pkt (i : Instr) : (encode i).pkt = i.packet := by cases i <;> rfl

/-- Every operand stands in the field its row reads it from (R101 to R105). -/
theorem buildInstr_encode (i : Instr) : buildInstr (EncodesItsRow.rowName i) (encode i) = i := by
  cases i <;> simp [EncodesItsRow.rowName, buildInstr, encode]

/-- Settles O1: the encoder's words are admitted by the command's row (`encodesItsRow`), and its fields are the operands
(`buildInstr_encode`). -/
theorem decodeOfEncodeGivesTheCommandBack : Obligations.DecodeOfEncodeGivesTheCommandBack := by
  intro p i hwf
  obtain ⟨r, hrow, hop, h0, h1, h2, h3, hpkt⟩ := encodesItsRow i
  have hlen : (encode i).pkt.length ≤ p.maxPkt := by
    rw [encode_pkt]
    exact of_decide_eq_true hwf
  have hadm : Admits p r (encode i) := ⟨hrow, h0, h1, h2, h3, hpkt, hlen⟩
  rw [hadm.decode_eq, hop, buildInstr_encode]

/-! The decoder then the encoder. -/

theorem mem_of_findRow {o : BitVec 8} {r : Row} (h : findRow o = some r) : r ∈ opcodeMap ∧ r.opc = o :=
  ⟨List.mem_of_find?_eq_some h, by simpa using List.find?_some h⟩

theorem command_eq {c : Command} {w0 w1 w2 w3 : Word} {p : Bytes} (h0 : w0 = c.w0) (h1 : w1 = c.w1) (h2 : w2 = c.w2)
    (h3 : w3 = c.w3) (hp : p = c.pkt) : (⟨w0, w1, w2, w3, p⟩ : Command) = c := by
  subst h0 h1 h2 h3 hp
  rfl

/-- An admitted command is the encoding of its row's command, row by row of R107: W0 is its format's fields, an operand word is
its operand or 0. -/
theorem Admits.encode_buildInstr {p : Params} {r : Row} {c : Command} (h : Admits p r c) :
    encode (buildInstr r.op c) = c := by
  obtain ⟨hrow, h0, h1, h2, h3, hpkt, -⟩ := h
  obtain ⟨hmem, hopc⟩ := mem_of_findRow hrow
  simp only [opcodeMap, List.mem_cons, List.not_mem_nil, or_false] at hmem
  have zero {w : Word} (hw : w &&& allZero = 0) : 0 = w := (eq_zero_of_and_allZero hw).symm
  have formatN (hw : c.w0 &&& Format.n.mustBeZero = 0) : w0N r.opc = c.w0 := hopc ▸ w0N_opcOf hw
  have formatA16 (hw : c.w0 &&& Format.a16.mustBeZero = 0) : w0A16 r.opc (a16Of c.w0) = c.w0 :=
    hopc ▸ w0A16_fields hw
  have formatA8 (hw : c.w0 &&& Format.a8.mustBeZero = 0) : w0A8 r.opc (a8Of c.w0) = c.w0 := hopc ▸ w0A8_fields hw
  have formatFrag (hw : c.w0 &&& Format.frag.mustBeZero = 0) :
      w0Frag r.opc (a8Of c.w0) (mfOf c.w0) (offOf c.w0) = c.w0 := hopc ▸ w0Frag_fields hw
  rcases hmem with rfl | rfl | rfl | rfl | rfl | rfl | rfl | rfl | rfl | rfl | rfl | rfl | rfl | rfl | rfl | rfl | rfl |
    rfl | rfl | rfl | rfl
  · exact command_eq (formatN h0) (zero h1) (zero h2) (zero h3) (hpkt rfl).symm
  · exact command_eq (formatN h0) (zero h1) (zero h2) (zero h3) rfl
  · exact command_eq (formatN h0) (zero h1) (zero h2) (zero h3) (hpkt rfl).symm
  · exact command_eq (formatN h0) rfl (hwWord2_hwOf _ _) (hwWord3_hwOf _ h3) (hpkt rfl).symm
  · exact command_eq (formatN h0) rfl (zero h2) (zero h3) (hpkt rfl).symm
  · exact command_eq (formatN h0) rfl (zero h2) (zero h3) (hpkt rfl).symm
  · exact command_eq (formatA16 h0) rfl (zero h2) (zero h3) rfl
  · exact command_eq (formatN h0) (zero h1) (zero h2) (zero h3) rfl
  · exact command_eq (formatN h0) (zero h1) (zero h2) (zero h3) rfl
  · exact command_eq (formatFrag h0) rfl (wordOfLow_lowHalf h2) (zero h3) rfl
  · exact command_eq (formatA8 h0) rfl (zero h2) (zero h3) rfl
  · exact command_eq (formatN h0) rfl (zero h2) (zero h3) rfl
  · exact command_eq (formatA8 h0) rfl (zero h2) (zero h3) rfl
  · exact command_eq (formatN h0) rfl (zero h2) (zero h3) rfl
  · exact command_eq (formatA16 h0) rfl (wordOfLow_lowHalf h2) (zero h3) rfl
  · exact command_eq (formatA16 h0) rfl (zero h2) (zero h3) (hpkt rfl).symm
  · exact command_eq (formatA16 h0) (zero h1) (zero h2) (zero h3) (hpkt rfl).symm
  · exact command_eq (formatN h0) rfl rfl (zero h3) rfl
  · exact command_eq (formatN h0) (zero h1) (zero h2) (zero h3) rfl
  · exact command_eq (formatA16 h0) (zero h1) (zero h2) (zero h3) (hpkt rfl).symm
  · exact command_eq (formatA16 h0) rfl (zero h2) (zero h3) (hpkt rfl).symm

/-- Settles O2: what decodes is admitted by its row (`admits_of_decode`), and an admitted command is the encoding of the row's
command (`Admits.encode_buildInstr`). -/
theorem encodeOfDecodeGivesTheDescriptorBack : Obligations.EncodeOfDecodeGivesTheDescriptorBack := by
  intro p c i h
  obtain ⟨r, hadm, rfl⟩ := admits_of_decode h
  exact ⟨hadm.encode_buildInstr, decide_eq_true (packet_length_le_of_decode h)⟩

/-! What is rejected (R108, R109). -/

/-- A command that does not decode answers its status and changes nothing else (R352). -/
theorem step_of_decode_error {s : State} {c : Command} {now : Nat} {rest : List Input} {e : DecodeError}
    (h : s.inputs = .command c now :: rest) (he : decode s.params c = .error e) :
    step s = .next (answered { s with inputs := rest, timeNow := now } (decodeStatus e) 0) := by
  rw [step_command s c now rest h, he]
  exact congrArg Host.Outcome.next (respond_zero _ _)

/-- An opcode is reserved only where no row has it: each of the four later causes needs a row. -/
theorem decode_reservedOpcode_iff (p : Params) (c : Command) :
    decode p c = .error .reservedOpcode ↔ findRow (opcOf c.w0) = none := by
  refine ⟨fun h => ?_, decode_of_no_row⟩
  cases hrow : findRow (opcOf c.w0) with
  | none => rfl
  | some r =>
    rw [decode_of_row hrow] at h
    split_ifs at h <;> cases h

/-- The ranges of R109 are the opcodes of no row of R107. -/
theorem findRow_eq_none_iff (o : BitVec 8) : findRow o = none ↔ reservedOpc o.toNat := by
  revert o
  decide

/-- OPC is the top byte of W0 (R101). -/
theorem toNat_opcOf (w : Word) : (opcOf w).toNat = w.toNat / 2 ^ 24 := by
  have hw := w.isLt
  rw [opcOf, BitVec.extractLsb'_toNat, Nat.shiftRight_eq_div_pow]
  omega

theorem reservedOpcode_iff (p : Params) (c : Command) :
    decode p c = .error .reservedOpcode ↔ reservedOpc (c.w0.toNat / 2 ^ 24) := by
  rw [decode_reservedOpcode_iff, findRow_eq_none_iff, toNat_opcOf]

/-- Settles O4: the decoder finds no row exactly in the ranges of R109 (`reservedOpcode_iff`). -/
theorem reservedOpcodesAreIllegal : Obligations.ReservedOpcodesAreIllegal :=
  ⟨reservedOpcode_iff, by decide +kernel,
    fun _ c _ _ hin hres => step_of_decode_error hin ((reservedOpcode_iff _ c).2 hres)⟩

/-- No two rows of R107 have one opcode. -/
theorem findRow_opc {r : Row} (h : r ∈ opcodeMap) : findRow r.opc = some r := by
  revert r
  decide

/-- Settles O5: the decoder makes the four checks of a row in R108's order (`decode_of_row`), and the step answers the status of
the one that fails. -/
theorem rejectedDescriptorsReportTheFirstCause : Obligations.RejectedDescriptorsReportTheFirstCause := by
  intro s c now rest r hin hmem hopc
  have hrow : findRow (opcOf c.w0) = some r := hopc ▸ findRow_opc hmem
  have rejected {e : DecodeError} (he : decode s.params c = .error e) :
      decode s.params c = .error e ∧
        step s = .next (answered { s with inputs := rest, timeNow := now } (decodeStatus e) 0) :=
    ⟨he, step_of_decode_error hin he⟩
  refine ⟨fun h0 => rejected ?w0, fun h0 hops => rejected ?operand, fun h0 h1 h2 h3 hp hne => rejected ?packet,
    fun h0 h1 h2 h3 hp hlong => rejected ?long, fun h0 h1 h2 h3 hlen => ⟨buildInstr r.op c, Admits.decode_eq ?_⟩⟩
  case w0 => rw [decode_of_row hrow, if_pos h0]
  case operand => rw [decode_of_row hrow, if_neg (not_not.2 h0), if_pos hops]
  case packet =>
    rw [decode_of_row hrow, if_neg (not_not.2 h0), if_neg (by simp [h1, h2, h3]),
      if_pos ⟨hp, mt List.length_eq_zero_iff.1 hne⟩]
  case long =>
    rw [decode_of_row hrow, if_neg (not_not.2 h0), if_neg (by simp [h1, h2, h3]), if_neg (by simp [hp]),
      if_pos ⟨hp, hlong⟩]
  cases hp : r.pkt with
  | false =>
    have hempty : c.pkt = [] := by simpa [hp] using hlen
    exact ⟨hrow, h0, h1, h2, h3, fun _ => hempty, by simp [hempty]⟩
  | true =>
    exact ⟨hrow, h0, h1, h2, h3, by simp [hp], by simpa [hp] using hlen⟩

/-- Settles O3: the words of R118, computed; what decodes of the IP_FRAG word has a packet of one byte. -/
theorem specExampleWordsEncodeAndDecode : Obligations.SpecExampleWordsEncodeAndDecode :=
  ⟨⟨rfl, rfl⟩, ⟨fun _ => rfl, rfl, rfl, rfl, rfl, rfl⟩, ⟨rfl, rfl⟩⟩

end Sys2Proof.Proofs
end

section
/-! PROOFS. The messages the block builds (41_arp.md R184, 43_icmp.md R262, 44_udp.md R280 to R285): their fields, and that an
inserted checksum (40_checksum.md R164) verifies; and BOOT, which announces with the first of them. -/

namespace Sys2Proof.Proofs

open Sys2Proof Sys2Proof.Machine Sys2Proof.Safety Sys2Proof.Laws

/-! An inserted checksum (R162, R164). -/

/-- A sum with its own checksum added folds to 0xFFFF. -/
theorem foldSum_add_complement (n : Nat) : foldSum (n + (0xFFFF - foldSum n)) = 0xFFFF := by
  rw [foldSum_eq n]
  split
  · subst n; decide
  · rw [foldSum_eq, if_neg (by omega)]
    omega

/-- A value in place of a zero field at an even offset adds itself to the sum. -/
theorem wordSum_field (a r : Bytes) (v : Half) (ha : a.length % 2 = 0) :
    wordSum (a ++ bytes16 v ++ r) = wordSum (a ++ [0, 0] ++ r) + v.toNat := by
  rw [List.append_assoc, List.append_assoc, wordSum_append a _ ha, wordSum_append a _ ha,
    wordSum_append (bytes16 v) r (by rw [length_bytes16]), wordSum_append [0, 0] r rfl, wordSum_bytes16]
  simp only [wordSum_cons_cons, wordSum_nil, BitVec.ofNat_eq_ofNat, BitVec.toNat_ofNat, Nat.zero_mod]
  omega

/-- R162: a string checks to zero when a field at an even offset holds the checksum of the string with that field zero. -/
theorem csum_inserted (a r : Bytes) (ha : a.length % 2 = 0) :
    csum (a ++ bytes16 (csum (a ++ [0, 0] ++ r)) ++ r) = 0 := by
  apply BitVec.eq_of_toNat_eq
  rw [csum_toNat, wordSum_field a r _ ha, csum_toNat, foldSum_add_complement]
  rfl

/-- R162, R164: a message checks to zero, behind bytes that its checksum also covers, when its field at `o` holds that
checksum as computed with the field zero. -/
theorem csum_eq_zero_of_field {a b : Bytes} {o : Nat} (ha : a.length % 2 = 0) (ho : o % 2 = 0) (h : o + 2 ≤ b.length)
    (hfield : be16 b o = csum (a ++ putBytes b o [0, 0])) : csum (a ++ b) = 0 := by
  have hsplit : b = b.take o ++ bytes16 (be16 b o) ++ b.drop (o + 2) := (put16_be16 b o h).symm
  have heven : (a ++ b.take o).length % 2 = 0 := by
    rw [List.length_append, List.length_take_of_le (by omega)]
    omega
  have hzero : a ++ putBytes b o [0, 0] = a ++ b.take o ++ [0, 0] ++ b.drop (o + 2) := by
    simp only [putBytes, List.append_assoc, List.length_cons, List.length_nil]
  have hcs := csum_inserted (a ++ b.take o) (b.drop (o + 2)) heven
  rw [← hzero, ← hfield] at hcs
  conv_lhs => rw [hsplit]
  simpa only [List.append_assoc] using hcs

/-! ARP_REQUEST (R184, R185). -/

theorem isArpMessage_arpMsg (s : State) (op : Half) (tha : Hw) (tpa : Ip) :
    isArpMessage (arpMsg s op tha tpa) op s.localMac s.localIp tha tpa :=
  ⟨rfl, be16_bytes16 arpHwEther [], be16_bytes16 arpProtoIpv4 [], rfl, rfl, be16_bytes16 op [],
    be48_bytes48 s.localMac [], be32_bytes32 s.localIp [], be48_bytes48 tha [], be32_bytes32 tpa []⟩

/-- A request is one broadcast TX event with its frame (R184). -/
theorem arpRequest_emitted (s : State) (ip : Ip) :
    arpRequest s ip = emitted s [.tx 0xFFFFFFFFFFFF 0x0806 (arpMsg s 1 0 ip)] := rfl

/-- Settles O32: the broadcast request is `arpMsg` with opcode 1. -/
theorem arpRequestBroadcastsOneRequest : Obligations.ArpRequestBroadcastsOneRequest := fun s ip =>
  ⟨arpMsg s 1 0 ip, isArpMessage_arpMsg s 1 0 ip, by rw [← arpRequest_emitted]; rfl⟩

/-! ICMP_UNREACH (R130, R262). -/

/-- The error's bytes: type 3, the code, the checksum, four zero bytes, and the first 28 bytes of the datagram, zero-filled. -/
theorem unreachMsg_eq (d : Bytes) (code : BitVec 8) :
    ∃ v, unreachMsg d code = [3, code] ++ bytes16 v ++ [0, 0, 0, 0] ++ (d ++ zeros 28).take 28 := by
  have hembed : d.take (min icmpEmbedLen d.length) ++ zeros (icmpEmbedLen - min icmpEmbedLen d.length) =
      (d ++ zeros 28).take 28 := by
    rw [List.take_append, zeros, zeros, List.take_replicate, ← List.take_take, List.take_length]
    congr 2
    simp only [icmpEmbedLen]
    omega
  simp only [unreachMsg, hembed]
  exact ⟨_, rfl⟩

/-- Settles O44: the message's bytes are `unreachMsg_eq`, its checksum is inserted as computed and so verifies
(`csum_eq_zero_of_field`). -/
theorem unreachableEmbedsTwentyEightBytes : Obligations.UnreachableEmbedsTwentyEightBytes := by
  intro s dst code d
  obtain ⟨v, hv⟩ := unreachMsg_eq d code
  have hcheck : csum (unreachMsg d code) = 0 :=
    csum_eq_zero_of_field (a := []) (b := unreachMsg d code) rfl rfl (by rw [length_unreachMsg]; omega)
      (unreachMsg_checksum d code)
  refine ⟨unreachMsg d code, _, exec_icmpUnreach s dst code d, rfl, length_unreachMsg d code, ?typeByte, ?codeByte, ?unused,
    ?embedded, unreachMsg_checksum d code, hcheck⟩
  case typeByte => rw [hv]; rfl
  case codeByte => rw [hv]; rfl
  case unused =>
    rw [hv]
    exact (by decide : be32 [0, 0, 0, 0] 0 = 0)
  case embedded => rw [hv]; rfl

/-! UDP_PCSUM (R280, R281). -/

theorem exec_udpPcsum_short {s : State} {p : Bytes} (src dst : Ip) (h : p.length < 8) :
    exec (.udpPcsum src dst p) s = .next (answered s .length 0) := by
  simp only [exec, execUdpPcsum, udpHdrLen, h, if_true, raise_eq, respond_zero]

theorem exec_udpPcsum {s : State} {p : Bytes} (src dst : Ip) (h : 8 ≤ p.length) :
    exec (.udpPcsum src dst p) s =
      .next (answered s .ok ((csum (pseudoHeader src dst (be16 p 4) ++ p)).setWidth 64)) := by
  simp only [exec, execUdpPcsum, udpHdrLen, if_neg (Nat.not_lt.2 h), udpPseudoChecksum_eq, load_win, respond_ok]

theorem length_pseudoHeader (src dst : Ip) (ulen : Half) : (pseudoHeader src dst ulen).length = 12 := rfl

/-- The pseudo-header ends with the segment's own two length bytes (R132). -/
theorem pseudoHeader_be16 (src dst : Ip) (p : Bytes) :
    pseudoHeader src dst (be16 p 4) = bytes32 src ++ bytes32 dst ++ [0x00, 17, byteAt p 4, byteAt p 5] := by
  rw [pseudoHeader, be16, bytes16_append]
  rfl

/-- Settles O45, by the command's two cases. -/
theorem udpPcsumCoversThePseudoHeader : Obligations.UdpPcsumCoversThePseudoHeader := fun s src dst p =>
  ⟨exec_udpPcsum_short src dst, fun h => by rw [exec_udpPcsum src dst h, pseudoHeader_be16]⟩

/-! UDP_SEND (R131, R284, R285). -/

theorem exec_udpSend_long {s : State} {p : Bytes} (sport : Half) (dst : Ip) (dport : Half) (h : 65527 < p.length) :
    exec (.udpSend sport dst dport p) s = .next (answered s .length 0) := by
  simp only [exec, execUdpSend, h, if_true, raise_eq, respond_zero]

theorem exec_udpSend {s : State} {p : Bytes} (sport : Half) (dst : Ip) (dport : Half) (h : p.length ≤ 65527) :
    exec (.udpSend sport dst dport p) s = .next (respond (udpSend s (load p) sport dst dport) .ok 0) := by
  simp only [exec, execUdpSend, if_neg (Nat.not_lt.2 h), complete_ok]

/-- A segment built from a loaded payload is itself as loaded: nothing else is in the store. -/
theorem udpSegment_load (s : State) (p : Bytes) (sport : Half) (dst : Ip) (dport : Half) :
    udpSegment s (load p) sport dst dport = load (udpSegment s (load p) sport dst dport).win := rfl

/-- The segment's bytes: ports, length, checksum and payload (R131). -/
theorem udpSegment_win (s : State) (p : Bytes) (sport : Half) (dst : Ip) (dport : Half) :
    ∃ v, (udpSegment s (load p) sport dst dport).win =
      bytes16 sport ++ bytes16 dport ++ bytes16 (BitVec.ofNat 16 (8 + p.length)) ++ bytes16 v ++ p := by
  simp only [udpSegment, memWrite_win, pushHeader_win, bufLen_load, load_win]
  exact ⟨_, rfl⟩

/-- Settles O46: the segment's bytes are `udpSegment_win`, its checksum is inserted as computed (`udpSegment_checksum`), so
behind the pseudo-header it checks to zero (`csum_eq_zero_of_field`). -/
theorem udpSendBuildsAVerifyingSegment : Obligations.UdpSendBuildsAVerifyingSegment := by
  intro s sport dst dport p
  refine ⟨exec_udpSend_long sport dst dport, fun hp => ?_⟩
  have hfield := udpSegment_checksum s (load p) sport dst dport
  have hsent : exec (.ipSend dst 17 (udpSegment s (load p) sport dst dport).win) s =
      .next (respond (udpSend s (load p) sport dst dport) .ok 0) := by
    rw [udpSend, udpSegment_load]
    rfl
  obtain ⟨v, hv⟩ := udpSegment_win s p sport dst dport
  generalize (udpSegment s (load p) sport dst dport).win = seg at hfield hsent hv
  have hlen : seg.length = 8 + p.length := by
    rw [hv]
    simp only [List.length_append, length_bytes16]
  have hcheck : csum (pseudoHeader s.localIp dst (be16 seg 4) ++ seg) = 0 :=
    csum_eq_zero_of_field (by rw [length_pseudoHeader]) rfl (by omega) hfield
  have hulen : be16 seg 4 = BitVec.ofNat 16 (8 + p.length) := by
    rw [hv]
    exact be16_bytes16 _ []
  refine ⟨seg, _, exec_udpSend sport dst dport hp, hsent, ?source, ?destination, ?length, ?payload, hfield, ?verifies⟩
  case source => rw [hv]; exact be16_bytes16 sport []
  case destination => rw [hv]; exact be16_bytes16 dport []
  case length =>
    rw [hulen, BitVec.toNat_ofNat]
    omega
  case payload => rw [hv]; rfl
  case verifies =>
    rw [exec_udpPcsum s.localIp dst (by omega), hcheck]
    rfl

/-! BOOT (30_encoding.md R117; 70_reset_and_hazards.md R382). -/

theorem exec_arpInit (s : State) :
    exec .arpInit s =
      .next (respond (arpRequest { s with arp := List.replicate s.arp.length ArpEntry.empty } s.localIp) .ok 0) := rfl

/-- SET_MAC's two register writes load the address, whatever LOCAL_MAC held before (R35, R36, R117). -/
theorem exec_setMac (s : State) (hw : Hw) :
    ∃ t, exec (.regWr 0x001 (hwWord2 hw)) s = .next t ∧
      exec (.regWr 0x002 (hwWord3 hw)) t = .next (answered (answered { s with localMac := hw } .ok 0) .ok 0) := by
  refine ⟨_, exec_regWr_of_some (regWrite_localMac0 s (hwWord2 hw)), ?_⟩
  rw [exec_regWr_of_some (regWrite_localMac1 _ (hwWord3 hw))]
  simp only [answered, localMac0_append]
  rw [show hwWord2 hw ++ ((hwWord3 hw).extractLsb' 16 16 : Half) = hw from hwOf_hwWords hw]

/-- Settles O52: the register writes load the addresses (`exec_setMac`), and ARP_INIT clears the cache and broadcasts the
request with them. -/
theorem bootLoadsTheAddressesAndAnnounces : Obligations.BootLoadsTheAddressesAndAnnounces := by
  intro s ip hw
  have hip := exec_regWr_of_some (regWrite_localIp s ip)
  obtain ⟨t, hmac2, hmac3⟩ := exec_setMac (answered { s with localIp := ip } .ok 0) hw
  exact ⟨_, _, _, _, _, t, _, _, _, rfl, hip, hmac2, hmac3, exec_arpInit _, rfl, rfl,
    fun e he => congrArg ArpEntry.state (List.eq_of_mem_replicate he), isArpMessage_arpMsg _ 1 0 ip, rfl, rfl, rfl, rfl⟩

end Sys2Proof.Proofs
end

section
/-! PROOFS. The Internet checksum (40_checksum.md R160 to R163): the sum over words at their offsets, the padding of an odd
string, and the four properties of R162. -/

namespace Sys2Proof.Proofs

open Sys2Proof Sys2Proof.Machine Sys2Proof.Safety Sys2Proof.Laws

/-! The sum of the words (R160, R161). -/

/-- R160, R161: the words by their offsets; past the end of an odd string the low byte reads 0. -/
theorem wordSum_eq_sum (p : Bytes) :
    wordSum p = ∑ k ∈ Finset.range ((p.length + 1) / 2),
      ((byteAt p (2 * k)).toNat * 256 + (byteAt p (2 * k + 1)).toNat) := by
  induction p using wordSum.induct with
  | case1 => rfl
  | case2 a => simp [byteAt]
  | case3 a b rest ih =>
    have hcount : ((a :: b :: rest).length + 1) / 2 = (rest.length + 1) / 2 + 1 := by
      simp only [List.length_cons]
      omega
    have hnext (k : Nat) : 2 * (k + 1) = 2 * k + 1 + 1 := rfl
    rw [hcount, Finset.sum_range_succ', wordSum_cons_cons, ih, Nat.add_comm]
    simp only [hnext, byteAt_cons_succ, Nat.mul_zero, Nat.zero_add, byteAt_cons_zero]

/-- R162: the sum is zero only for a string of zero bytes. -/
theorem wordSum_eq_zero_iff (b : Bytes) : wordSum b = 0 ↔ ∀ x ∈ b, x = 0 := by
  have hbyte (x : Byte) : x.toNat = 0 ↔ x = 0 := BitVec.toNat_inj (y := 0)
  induction b using wordSum.induct with
  | case1 => simp
  | case2 a =>
    rw [wordSum_single, List.forall_mem_singleton, ← hbyte]
    omega
  | case3 a b rest ih =>
    rw [wordSum_cons_cons, List.forall_mem_cons, List.forall_mem_cons]
    refine Iff.trans ?_ (and_congr (hbyte a) (and_congr (hbyte b) ih))
    omega

/-- The words of a string of whole words, and what follows them. -/
theorem wordSum_words_append (ws : List Half) (tail : Bytes) :
    wordSum (ws.flatMap bytes16 ++ tail) = (ws.map BitVec.toNat).sum + wordSum tail := by
  induction ws with
  | nil => simp
  | cons w ws ih =>
    rw [List.flatMap_cons, List.append_assoc, wordSum_append (bytes16 w) _ (by rw [length_bytes16]),
      wordSum_bytes16, ih, List.map_cons, List.sum_cons, Nat.add_assoc]

/-! CSUM and the properties of R162. -/

/-- Settles O22: the complement of the folded sum (`csum_toNat`, `foldSum_eq`) over the words at their offsets. -/
theorem csumAnswersTheOnesComplementSum : Obligations.CsumAnswersTheOnesComplementSum := by
  refine fun p s => ⟨csum p, rfl, ?_⟩
  rw [csum_toNat, foldSum_eq, ← wordSum_eq_sum]
  simp only
  split
  · rfl
  · omega

/-- Settles O23: the last byte is a word of its own behind the whole words, with or without the zero byte. -/
theorem oddStringIsPaddedWithAZeroByte : Obligations.OddStringIsPaddedWithAZeroByte := by
  intro b a hb
  have hpad : wordSum [a, 0] = wordSum [a] := by simp
  refine ⟨csum_congr _ _ ?_, wordSum_append b [a] hb⟩
  rw [wordSum_append b [a] hb, wordSum_append b [a, 0] hb, hpad]

theorem foldSum_eq_zero_iff (n : Nat) : foldSum n = 0 ↔ n = 0 := by
  rw [foldSum_eq]
  split <;> omega

theorem csum_eq_zero_iff (b : Bytes) : csum b = 0 ↔ foldSum (wordSum b) = 0xFFFF := by
  have hle := foldSum_le (wordSum b)
  rw [← BitVec.toNat_inj, csum_toNat]
  change 0xFFFF - foldSum (wordSum b) = 0 ↔ _
  omega

/-- R162: a field at an even offset that is filled with the checksum of the string with that field zero. -/
theorem csum_put16_csum (b : Bytes) (f : Nat) (hf : f % 2 = 0) (h : f + 2 ≤ b.length) :
    csum (put16 (put16 b f 0) f (csum (put16 b f 0))) = 0 := by
  have hz : put16 (put16 b f 0) f 0 = put16 b f 0 := putBytes_putBytes b (bytes16 0) (bytes16 0) f rfl h
  have hlen : f + 2 ≤ (put16 b f 0).length := (length_put16 b f 0 h).symm ▸ h
  exact csum_eq_zero_of_field (a := []) (b := put16 _ f _) rfl hf (by rwa [length_put16 _ _ _ hlen])
    (be16_put16_csum _ f hlen hz)

/-- Settles O24: the checksum depends on the sum of the words alone (`csum_congr`), which is a sum of naturals
(`wordSum_words_append`). -/
theorem checksumProperties : Obligations.ChecksumProperties := by
  refine ⟨⟨rfl, fun n => ?zeros⟩, fun b => ⟨?foldedZero, foldSum_le _, csum_eq_zero_iff b⟩, csum_put16_csum,
    fun ws vs tail hperm => csum_congr _ _ ?permuted, fun ws vs tail => csum_congr _ _ ?inserted⟩
  case zeros => exact csum_congr (zeros n) [] (wordSum_zeros n)
  case foldedZero => rw [foldSum_eq_zero_iff, wordSum_eq_zero_iff]
  case permuted => rw [wordSum_words_append, wordSum_words_append, (hperm.map BitVec.toNat).sum_eq]
  case inserted =>
    have hzero : ((0 : Half) :: vs).map BitVec.toNat = 0 :: vs.map BitVec.toNat := rfl
    rw [wordSum_words_append, wordSum_words_append, List.map_append, List.map_append, hzero, List.sum_append,
      List.sum_append, List.sum_cons, Nat.zero_add]

end Sys2Proof.Proofs
end

section
/-! PROOFS. IPv4 output (42_ip.md R223 to R227): the datagram by its fields, and fragmentation as a list of datagrams that are
handed to address resolution one after the other. -/

namespace Sys2Proof.Proofs

open Sys2Proof Sys2Proof.Machine Sys2Proof.Safety Sys2Proof.Laws

/-! The datagram (30_encoding.md R124 to R126; R223). -/

/-- R126: the value of the flags and offset word. -/
theorem flagsOffset_toNat (mf : Bool) (off : BitVec 13) :
    (flagsOffset mf off).toNat = (if mf then 0x2000 else 0) + off.toNat := by
  rw [flagsOffset, BitVec.toNat_append, ← Nat.shiftLeft_add_eq_or_of_lt off.isLt]
  cases mf <;> rfl

/-- The header's bytes, field by field. -/
theorem ipHeader_eq (s : State) (total : Half) (dst : Ip) (proto : BitVec 8) (id : Half) (off : BitVec 13) (mf : Bool) :
    ∃ v, ipHeader s total dst proto id off mf =
      [0x45, 0x00] ++ bytes16 total ++ bytes16 id ++ bytes16 (flagsOffset mf off) ++ [s.params.ipTtl, proto] ++
        bytes16 v ++ bytes32 s.localIp ++ bytes32 dst :=
  ⟨_, rfl⟩

/-- R162, R164: the header of every datagram checks to zero. -/
theorem csum_ipHeader (s : State) (total : Half) (dst : Ip) (proto : BitVec 8) (id : Half) (off : BitVec 13)
    (mf : Bool) : csum (ipHeader s total dst proto id off mf) = 0 :=
  csum_eq_zero_of_field (a := []) (b := ipHeader s total dst proto id off mf) rfl rfl (by rw [length_ipHeader]; omega)
    (ipHeader_checksum s total dst proto id off mf)

/-- The datagram `ip_send_fragment` builds of a payload (R223). -/
def datagramOf (s : State) (p : Bytes) (dst : Ip) (proto : BitVec 8) (id : Half) (off : BitVec 13) (mf : Bool) : Bytes :=
  (ipDatagram s (load p) dst proto id off mf).win

theorem datagramOf_eq (s : State) (p : Bytes) (dst : Ip) (proto : BitVec 8) (id : Half) (off : BitVec 13) (mf : Bool) :
    datagramOf s p dst proto id off mf = ipHeader s (BitVec.ofNat 16 (20 + p.length)) dst proto id off mf ++ p :=
  ipDatagram_win s (load p) dst proto id off mf

theorem ipSendFragment_load (s : State) (p : Bytes) (dst : Ip) (proto : BitVec 8) (id : Half) (off : BitVec 13)
    (mf : Bool) :
    ipSendFragment s (load p) dst proto id off mf = arpResolveSend s (datagramOf s p dst proto id off mf) dst 0x0800 := rfl

/-- R223: the datagram has the fields it is built from, as long as its length fits the total length field. -/
theorem isDatagram_datagramOf (s : State) {p : Bytes} (dst : Ip) (proto : BitVec 8) (id : Half) (off : BitVec 13)
    (mf : Bool) (hp : p.length ≤ 65515) :
    isDatagram s (datagramOf s p dst proto id off mf) dst proto id ((if mf then 0x2000 else 0) + off.toNat) p := by
  have hfield := ipHeader_checksum s (BitVec.ofNat 16 (20 + p.length)) dst proto id off mf
  have hcheck := csum_ipHeader s (BitVec.ofNat 16 (20 + p.length)) dst proto id off mf
  have hlen := length_ipHeader s (BitVec.ofNat 16 (20 + p.length)) dst proto id off mf
  obtain ⟨v, hv⟩ := ipHeader_eq s (BitVec.ofNat 16 (20 + p.length)) dst proto id off mf
  rw [datagramOf_eq]
  generalize ipHeader s (BitVec.ofNat 16 (20 + p.length)) dst proto id off mf = h at hfield hcheck hlen hv ⊢
  have htake : (h ++ p).take 20 = h := List.take_left' hlen
  have hsum : be16 (h ++ p) 10 = be16 h 10 := be16_append_left h p 10 (by omega)
  refine ⟨by rw [List.length_append, hlen], ?version, ?tos, ?total, ?identifier, ?flags, ?ttl, ?protocol, ?source,
    ?destination, ?checksum, ?verifies, List.drop_left' hlen⟩
  case checksum => rw [hsum, htake, hfield]
  case verifies => rw [htake, hcheck]
  case total =>
    have h2 : be16 (h ++ p) 2 = BitVec.ofNat 16 (20 + p.length) := by rw [hv]; exact be16_bytes16 _ []
    rw [h2, BitVec.toNat_ofNat, List.length_append, hlen]
    omega
  case flags =>
    have h6 : be16 (h ++ p) 6 = flagsOffset mf off := by rw [hv]; exact be16_bytes16 _ []
    rw [h6, flagsOffset_toNat]
  case version => rw [hv]; rfl
  case tos => rw [hv]; rfl
  case identifier => rw [hv]; exact be16_bytes16 _ []
  case ttl => rw [hv]; rfl
  case protocol => rw [hv]; rfl
  case source => rw [hv]; exact be32_bytes32 _ []
  case destination => rw [hv]; exact be32_bytes32 _ []

/-! Handing packets to address resolution (41_arp.md R186). -/

theorem arpResolveSend_hit {s : State} {ip : Ip} {hw : Hw} (proto : Half) (pkt : Bytes)
    (h : arpLookup s.arp ip = some hw) : arpResolveSend s pkt ip proto = emitted s [.tx hw proto pkt] := by
  rw [arpResolveSend, h]
  rfl

theorem arpResolveSend_miss {s : State} {ip : Ip} (proto : Half) (pkt : Bytes) (h : arpLookup s.arp ip = none) :
    arpResolveSend s pkt ip proto =
      emitted { s with pend := ⟨true, ip, proto, pkt⟩ } [.tx 0xFFFFFFFFFFFF 0x0806 (arpMsg s 1 0 ip)] := by
  rw [arpResolveSend, h]
  rfl

theorem resolved_arpResolveSend (s : State) (ip : Ip) (proto : Half) (pkt : Bytes) :
    resolved s ip proto pkt (arpResolveSend s pkt ip proto) := by
  cases h : arpLookup s.arp ip with
  | some hw => exact .inl ⟨hw, h, arpResolveSend_hit proto pkt h⟩
  | none => exact .inr ⟨h, arpMsg s 1 0 ip, isArpMessage_arpMsg s 1 0 ip, arpResolveSend_miss proto pkt h⟩

/-- The packets `ds`, one after the other, for the next hop `ip`. -/
def sendAll (ip : Ip) (s : State) (ds : List Bytes) : State :=
  ds.foldl (fun t d => arpResolveSend t d ip 0x0800) s

theorem sendAll_cons (ip : Ip) (s : State) (d : Bytes) (ds : List Bytes) :
    sendAll ip s (d :: ds) = sendAll ip (arpResolveSend s d ip 0x0800) ds := rfl

theorem emitted_emitted (s : State) (es fs : List Event) : emitted (emitted s es) fs = emitted s (es ++ fs) := by
  simp only [emitted, List.filterMap_append, List.append_assoc]

theorem emitted_nil (s : State) : emitted s [] = s := by
  simp only [emitted, List.filterMap_nil, List.append_nil]

/-- With the next hop cached every packet goes out at once. -/
theorem sendAll_hit {ip : Ip} {hw : Hw} (s : State) (ds : List Bytes) (h : arpLookup s.arp ip = some hw) :
    sendAll ip s ds = emitted s (ds.map (.tx hw 0x0800 ·)) := by
  induction ds generalizing s with
  | nil => exact (emitted_nil s).symm
  | cons d ds ih =>
    rw [sendAll_cons, arpResolveSend_hit _ d h]
    exact (ih (emitted s [.tx hw 0x0800 d]) h).trans (emitted_emitted s _ _)

/-- With the next hop not cached every packet broadcasts a request, and the slot holds the last one. -/
theorem sendAll_miss {ip : Ip} (s : State) (ds : List Bytes) (d : Bytes) (h : arpLookup s.arp ip = none) :
    sendAll ip s (ds ++ [d]) =
      emitted { s with pend := ⟨true, ip, 0x0800, d⟩ }
        (List.replicate (ds.length + 1) (.tx 0xFFFFFFFFFFFF 0x0806 (arpMsg s 1 0 ip))) := by
  induction ds generalizing s with
  | nil => exact arpResolveSend_miss 0x0800 d h
  | cons c ds ih =>
    rw [List.cons_append, sendAll_cons, arpResolveSend_miss _ c h]
    exact (ih (emitted { s with pend := ⟨true, ip, 0x0800, c⟩ } _) h).trans
      (emitted_emitted { s with pend := ⟨true, ip, 0x0800, d⟩ } _ _)

/-! Fragmentation (R225, R227). -/

/-- The bytes of the `k`-th fragment. -/
def fragmentPayload (p : Bytes) (k : Nat) : Bytes := (p.drop (1480 * k)).take 1480

/-- The number of the last fragment. -/
def lastFragment (p : Bytes) : Nat := (p.length - 1) / 1480

/-- The `k`-th fragment of a payload sent from the state `s`: offset 185 k in units of eight bytes, MF unless it is the
last. -/
def fragment (s : State) (p : Bytes) (dst : Ip) (proto : BitVec 8) (k : Nat) : Bytes :=
  datagramOf s (fragmentPayload p k) dst proto s.fragId (BitVec.ofNat 13 (185 * k)) (decide (k < lastFragment p))

/-- R225: the fragments of a payload, in emission order. -/
def fragments (s : State) (p : Bytes) (dst : Ip) (proto : BitVec 8) : List Bytes :=
  (List.range (lastFragment p + 1)).map (fragment s p dst proto)

theorem lastFragment_succ (p : Bytes) : lastFragment p + 1 = max 1 ((p.length + 1479) / 1480) := by
  rw [lastFragment]
  omega

/-- R225: more than one fragment's payload is left exactly before the last fragment. -/
theorem lt_length_drop_iff (p : Bytes) (k : Nat) : 1480 < (p.drop (1480 * k)).length ↔ k < lastFragment p := by
  rw [List.length_drop, lastFragment]
  omega

theorem length_fragmentPayload (p : Bytes) (k : Nat) :
    (fragmentPayload p k).length = min 1480 (p.length - 1480 * k) := by
  rw [fragmentPayload, List.length_take, List.length_drop]

/-- R227: the fragments' bytes up to the `n`-th are the payload's first 1480 n bytes. -/
theorem flatten_fragmentPayload (p : Bytes) (n : Nat) :
    ((List.range n).map (fragmentPayload p)).flatten = p.take (1480 * n) := by
  induction n with
  | zero => rfl
  | succ n ih =>
    rw [List.range_succ, List.map_append, List.flatten_append, ih, Nat.mul_succ, List.take_add]
    simp only [List.map_cons, List.map_nil, List.flatten_cons, List.flatten_nil, List.append_nil, fragmentPayload]

/-- R223, R227: a fragment of a payload of at most 65535 bytes has the fields R225 names. -/
theorem isDatagram_fragment (s : State) {p : Bytes} (dst : Ip) (proto : BitVec 8) {k : Nat} (hp : p.length ≤ 65535)
    (hk : k ≤ lastFragment p) :
    isDatagram s (fragment s p dst proto k) dst proto s.fragId ((if k < lastFragment p then 0x2000 else 0) + 185 * k)
      (fragmentPayload p k) := by
  have hoff : (BitVec.ofNat 13 (185 * k)).toNat = 185 * k := by
    rw [BitVec.toNat_ofNat]
    rw [lastFragment] at hk
    omega
  have hlen : (fragmentPayload p k).length ≤ 65515 := by
    rw [length_fragmentPayload]
    omega
  have hd := isDatagram_datagramOf s dst proto s.fragId (BitVec.ofNat 13 (185 * k)) (decide (k < lastFragment p)) hlen
  rwa [hoff, ← fragment, if_congr decide_eq_true_iff rfl rfl] at hd

/-- The block's datagrams depend on nothing that sending one changes. -/
theorem datagramOf_congr {s t : State} (h : SameReceiver s t) (p : Bytes) (dst : Ip) (proto : BitVec 8) (id : Half)
    (off : BitVec 13) (mf : Bool) : datagramOf t p dst proto id off mf = datagramOf s p dst proto id off mf := by
  simp only [datagramOf_eq, ipHeader, ipHeaderZero, h.params, h.localIp]

theorem sameReceiver_arpResolveSend {s t : State} (h : SameReceiver s t) (pkt : Bytes) (ip : Ip) (proto : Half) :
    SameReceiver s (arpResolveSend t pkt ip proto) := by
  obtain ⟨hframe, -⟩ := arpResolveSend_frame t pkt ip proto
  exact ⟨hframe.params.trans h.params, hframe.localIp.trans h.localIp, hframe.udp.trans h.udp⟩

/-- A turn of the loop sends the `k`-th fragment, from any state that sending leaves. -/
theorem ipSendFragment_fragment {s t : State} (p : Bytes) (dst : Ip) (proto : BitVec 8) (k : Nat) (h : SameReceiver s t) :
    ipSendFragment t (load (fragmentPayload p k)) dst proto s.fragId (BitVec.ofNat 13 (185 * k))
      (decide (k < lastFragment p)) = arpResolveSend t (fragment s p dst proto k) dst 0x0800 := by
  rw [ipSendFragment_load, datagramOf_congr h, fragment]

/-- R225: the loop, at the `k`-th fragment with `j` more after it, sends those fragments. -/
theorem ipSendLoop_eq_sendAll {s t : State} {p : Bytes} (dst : Ip) (proto : BitVec 8) {fuel j k : Nat}
    (hst : SameReceiver s t) (hlast : k + j = lastFragment p) (hfuel : j < fuel) :
    ipSendLoop fuel t (p.drop (1480 * k)) (1480 * k) dst proto s.fragId =
      sendAll dst t ((List.range' k (j + 1)).map (fragment s p dst proto)) := by
  have hoff (k : Nat) : 1480 * k / 8 = 185 * k := by omega
  induction j generalizing fuel t k with
  | zero =>
    obtain ⟨fuel, rfl⟩ : ∃ n, fuel = n + 1 := ⟨fuel - 1, by omega⟩
    have hshort : ¬ipFragPayload < (p.drop (1480 * k)).length := by
      rw [lt_length_drop_iff]
      omega
    have hrest : p.drop (1480 * k) = fragmentPayload p k := (List.take_of_length_le (Nat.le_of_not_lt hshort)).symm
    have hmf : false = decide (k < lastFragment p) := by simp [← hlast]
    rw [ipSendLoop, if_neg hshort, hoff, hrest, hmf, ipSendFragment_fragment p dst proto k hst]
    rfl
  | succ j ih =>
    obtain ⟨fuel, rfl⟩ : ∃ n, fuel = n + 1 := ⟨fuel - 1, by omega⟩
    have hlong : ipFragPayload < (p.drop (1480 * k)).length := by
      rw [lt_length_drop_iff]
      omega
    have hmf : true = decide (k < lastFragment p) := by simp [← hlast]
    have hsent := ih (sameReceiver_arpResolveSend hst (fragment s p dst proto k) dst 0x0800) (k := k + 1) (fuel := fuel)
      (by omega) (by omega)
    rw [ipSendLoop, if_pos hlong, hoff, List.drop_drop, ← fragmentPayload, hmf, ipSendFragment_fragment p dst proto k hst,
      List.range'_succ, List.map_cons, sendAll_cons, ← hsent]
    rfl

/-- R225: a payload that fits one datagram is the case of one fragment. -/
theorem ipSend_eq_sendAll (s : State) (p : Bytes) (dst : Ip) (proto : BitVec 8) :
    ipSend s (load p) dst proto = sendAll dst { s with fragId := s.fragId + 1 } (fragments s p dst proto) := by
  have hst : SameReceiver s { s with fragId := s.fragId + 1 } := ⟨rfl, rfl, rfl⟩
  rw [fragments, List.range_eq_range']
  by_cases hlong : 1480 < p.length
  · have hfuel : lastFragment p < p.length := by
      rw [lastFragment]
      omega
    rw [← ipSendLoop_eq_sendAll dst proto hst (Nat.zero_add _) hfuel]
    exact if_pos hlong
  · have hlast : lastFragment p = 0 := by
      rw [lastFragment]
      omega
    have hloop := ipSendLoop_eq_sendAll dst proto hst (Nat.zero_add (lastFragment p)) (Nat.lt_succ_self _)
    rw [← hloop, hlast]
    exact (if_neg hlong).trans (if_neg hlong).symm

theorem exec_ipSend (s : State) (dst : Ip) (proto : BitVec 8) (p : Bytes) :
    exec (.ipSend dst proto p) s =
      .next (answered (sendAll dst { s with fragId := s.fragId + 1 } (fragments s p dst proto)) .ok 0) := by
  rw [← ipSend_eq_sendAll]
  rfl

theorem exec_ipFrag_long {s : State} {p : Bytes} (dst : Ip) (proto : BitVec 8) (id : Half) (off : BitVec 13) (mf : Bool)
    (h : 65515 < p.length) : exec (.ipFrag dst proto id off mf p) s = .next (answered s .length 0) := by
  simp only [exec, execIpFrag, h, if_true, raise_eq, respond_zero]

theorem exec_ipFrag {s : State} {p : Bytes} (dst : Ip) (proto : BitVec 8) (id : Half) (off : BitVec 13) (mf : Bool)
    (h : p.length ≤ 65515) :
    exec (.ipFrag dst proto id off mf p) s =
      .next (answered (arpResolveSend s (datagramOf s p dst proto id off mf) dst 0x0800) .ok 0) := by
  simp only [exec, execIpFrag, if_neg (Nat.not_lt.2 h), complete_ok, respond_ok, ipSendFragment_load]

/-- Settles O37: the datagram is the header and the payload (`isDatagram_datagramOf`), and it goes to address resolution. -/
theorem ipFragSendsTheDescribedDatagram : Obligations.IpFragSendsTheDescribedDatagram := fun s dst proto id off mf _ =>
  ⟨exec_ipFrag_long dst proto id off mf, fun hp =>
    ⟨_, _, isDatagram_datagramOf s dst proto id off mf hp, resolved_arpResolveSend s dst 0x0800 _,
      exec_ipFrag dst proto id off mf hp⟩⟩

theorem length_fragments (s : State) (p : Bytes) (dst : Ip) (proto : BitVec 8) :
    (fragments s p dst proto).length = lastFragment p + 1 := by
  rw [fragments, List.length_map, List.length_range]

theorem getElem?_fragments {s : State} {p : Bytes} {dst : Ip} {proto : BitVec 8} {k : Nat} {d : Bytes}
    (h : (fragments s p dst proto)[k]? = some d) : k ≤ lastFragment p ∧ d = fragment s p dst proto k := by
  rw [fragments, List.getElem?_map, Option.map_eq_some_iff] at h
  obtain ⟨j, hj, rfl⟩ := h
  obtain ⟨hk, rfl⟩ := List.getElem?_eq_some_iff.1 hj
  rw [List.length_range] at hk
  rw [List.getElem_range]
  exact ⟨Nat.le_of_lt_succ hk, rfl⟩

theorem drop_fragment (s : State) (p : Bytes) (dst : Ip) (proto : BitVec 8) (k : Nat) :
    (fragment s p dst proto k).drop 20 = fragmentPayload p k := by
  rw [fragment, datagramOf_eq, List.drop_left' (length_ipHeader ..)]

/-- R227: the fragments' payloads, in emission order, are the payload. -/
theorem flatten_drop_fragments (s : State) (p : Bytes) (dst : Ip) (proto : BitVec 8) :
    ((fragments s p dst proto).map (·.drop 20)).flatten = p := by
  have hall : p.length ≤ 1480 * (lastFragment p + 1) := by
    rw [lastFragment]
    omega
  have hdrop : (List.drop 20 ∘ fragment s p dst proto) = fragmentPayload p := funext fun k => by
    rw [Function.comp_apply, drop_fragment]
  rw [fragments, List.map_map, hdrop, flatten_fragmentPayload, List.take_of_length_le hall]

/-- Settles O38: with the next hop cached the fragments go out one after the other (`sendAll_hit`). -/
theorem ipSendFragmentsThePayload : Obligations.IpSendFragmentsThePayload := by
  intro s dst proto p hw hp hhit
  refine ⟨fragments s p dst proto, ?sent, ?number, flatten_drop_fragments s p dst proto, fun k d hd => ?each⟩
  case sent => rw [exec_ipSend, sendAll_hit { s with fragId := s.fragId + 1 } _ hhit]
  case number => rw [length_fragments, lastFragment_succ]
  case each =>
    obtain ⟨hk, rfl⟩ := getElem?_fragments hd
    have hdata := isDatagram_fragment s dst proto hp hk
    have hlen : (fragment s p dst proto k).length = 20 + min 1480 (p.length - 1480 * k) :=
      length_fragmentPayload p k ▸ hdata.1
    simp only [length_fragments, Nat.add_lt_add_iff_right]
    refine ⟨hdata, by omega, fun hmore => ?_⟩
    rw [← lt_length_drop_iff, List.length_drop] at hmore
    omega

/-- Settles O39: with the next hop not cached every fragment broadcasts a request and the last one is held
(`sendAll_miss`). -/
theorem ipSendThatMissesHoldsTheLastFragment : Obligations.IpSendThatMissesHoldsTheLastFragment := by
  intro s dst proto p hp hmiss
  refine ⟨lastFragment p, fragment s p dst proto (lastFragment p), arpMsg s 1 0 dst, lastFragment_succ p,
    isArpMessage_arpMsg s 1 0 dst, ?datagram, ?sent⟩
  case datagram =>
    have hrest : fragmentPayload p (lastFragment p) = p.drop (1480 * lastFragment p) := by
      rw [fragmentPayload, List.take_of_length_le]
      rw [List.length_drop, lastFragment]
      omega
    have hdata := isDatagram_fragment s dst proto hp (Nat.le_refl _)
    rwa [if_neg (Nat.lt_irrefl _), Nat.zero_add, hrest] at hdata
  case sent =>
    rw [exec_ipSend, fragments, List.range_succ, List.map_append, List.map_singleton,
      sendAll_miss { s with fragId := s.fragId + 1 } _ _ hmiss, List.length_map, List.length_range]
    rfl

end Sys2Proof.Proofs
end

section
/-! PROOFS. The resolution cache and the ARP messages (41_arp.md R180 to R193): what a lookup finds, what an update overwrites,
and what ARP_RESOLVE, ARP_IN and ARP_INIT do. -/

namespace Sys2Proof.Proofs

open Sys2Proof Sys2Proof.Machine Sys2Proof.Safety Sys2Proof.Laws

/-! ARP_LOOKUP (R182, R183). -/

/-- R183: bit 48 above a hardware address, as a number. -/
theorem one_append_hw (hw : Hw) : (1 : BitVec 16) ++ hw = BitVec.ofNat 64 (2 ^ 48 + hw.toNat) := by
  apply BitVec.eq_of_toNat_eq
  have hlt := hw.isLt
  rw [BitVec.toNat_append, ← Nat.shiftLeft_add_eq_or_of_lt hlt, Nat.shiftLeft_eq, BitVec.toNat_ofNat]
  simp only [BitVec.ofNat_eq_ofNat, BitVec.toNat_ofNat]
  omega

/-- R182: the lookup answers the entry of the lowest index that is VALID and has the address. -/
theorem arpLookup_of_first {t : List ArpEntry} {ip : Ip} {k : Nat} {e : ArpEntry} (hk : t[k]? = some e)
    (hvalid : e.state = .valid) (hip : e.ip = ip)
    (hfirst : ∀ (j : Nat) (d : ArpEntry), j < k → t[j]? = some d → ¬(d.state = .valid ∧ d.ip = ip)) :
    arpLookup t ip = some e.hw := by
  obtain ⟨hlt, hget⟩ := List.getElem?_eq_some_iff.1 hk
  have hfind : t.find? (fun d => d.state == .valid && d.ip == ip) = some e := by
    refine List.find?_eq_some_iff_getElem.2 ⟨by simp [hvalid, hip], k, hlt, hget, fun j hj => ?_⟩
    simpa [imp_iff_not_or] using hfirst j _ hj (List.getElem?_eq_getElem (Nat.lt_trans hj hlt))
  rw [arpLookup, hfind, Option.map_some]

theorem arpLookup_of_not_cached {t : List ArpEntry} {ip : Ip} (h : ∀ e ∈ t, ¬(e.state = .valid ∧ e.ip = ip)) :
    arpLookup t ip = none :=
  (arpLookup_eq_none t ip).2 fun e he hvalid hip => h e he ⟨hvalid, hip⟩

/-- Settles O28: the entry at `k` is the one the lookup finds (`arpLookup_of_first`). -/
theorem arpLookupAnswersTheFirstValidEntry : Obligations.ArpLookupAnswersTheFirstValidEntry := by
  refine fun s ip => ⟨fun k e hk hvalid hip hfirst => ?_, fun h => exec_arpLookup_of_none (arpLookup_of_not_cached h)⟩
  rw [exec_arpLookup_of_some (arpLookup_of_first hk hvalid hip hfirst), one_append_hw]

/-! ARP_UPDATE (R180, R181). -/

theorem arpSweep_ne_nil {t : List ArpEntry} (timeout now : Nat) (h : t ≠ []) : arpSweep timeout now t ≠ [] :=
  fun hs => h (List.map_eq_nil_iff.1 hs)

/-- R180, step 3: the oldest entry's timestamp is the smallest, and every entry before it has a larger one. -/
theorem oldestIndex_spec {t : List ArpEntry} (h : t ≠ []) :
    ∃ e, t[oldestIndex t]? = some e ∧ (∀ d ∈ t, e.ts ≤ d.ts) ∧
      ∀ (j : Nat) (d : ArpEntry), j < oldestIndex t → t[j]? = some d → e.ts < d.ts := by
  have hlt := oldestIndex_lt t h
  have hmin : t[oldestIndex t].ts = minTs t := beq_iff_eq.1 (List.findIdx_getElem (w := hlt))
  refine ⟨t[oldestIndex t], List.getElem?_eq_getElem hlt, fun d hd => hmin ▸ minTs_le t d hd, fun j d hj hd => ?_⟩
  obtain ⟨hjt, rfl⟩ := List.getElem?_eq_some_iff.1 hd
  have hne : t[j].ts ≠ minTs t := by simpa using List.not_of_lt_findIdx hj
  have hle := minTs_le t t[j] (List.getElem_mem hjt)
  omega

/-- R180, steps 2 and 3: the slot an update overwrites is the first INVALID one, or, where none is INVALID, the first of the
smallest timestamp. -/
theorem updateIndex_spec {t : List ArpEntry} (h : t ≠ []) :
    (∃ e, t[updateIndex t]? = some e ∧ e.state = .invalid ∧
        ∀ (j : Nat) (d : ArpEntry), j < updateIndex t → t[j]? = some d → d.state ≠ .invalid) ∨
      ((∀ d ∈ t, d.state ≠ .invalid) ∧
        ∃ e, t[updateIndex t]? = some e ∧ (∀ d ∈ t, e.ts ≤ d.ts) ∧
          ∀ (j : Nat) (d : ArpEntry), j < updateIndex t → t[j]? = some d → e.ts < d.ts) := by
  rcases updateIndex_cases t with hi | ⟨hnone, hi⟩
  · obtain ⟨hlt, hinv, hbefore⟩ := List.findIdx?_eq_some_iff_getElem.1 hi
    refine .inl ⟨_, List.getElem?_eq_getElem hlt, by simpa using hinv, fun j d hj hd => ?_⟩
    obtain ⟨hjt, rfl⟩ := List.getElem?_eq_some_iff.1 hd
    simpa using hbefore j hj
  · exact .inr ⟨hnone, hi ▸ oldestIndex_spec h⟩

/-- R180: an update writes the new entry into the slot it takes. -/
theorem getElem?_arpUpdate_updateIndex {s : State} (ip : Ip) (hw : Hw) (hs : s.arp ≠ []) :
    (arpUpdate s ip hw).arp[updateIndex (arpSweep s.params.arpTimeout s.timeNow s.arp)]? =
      some ⟨.valid, ip, hw, s.timeNow⟩ := by
  have hlt := updateIndex_lt _ (arpSweep_ne_nil s.params.arpTimeout s.timeNow hs)
  rw [length_arpSweep] at hlt
  rw [getElem?_arpUpdate, if_pos rfl, if_pos hlt]

theorem exec_arpUpdate_answered (ip : Ip) (hw : Hw) (s : State) :
    exec (.arpUpdate ip hw) s = .next (answered { s with arp := (arpUpdate s ip hw).arp } .ok 0) := rfl

/-- Settles O29: the slot is `updateIndex` of the swept cache (`updateIndex_spec`). -/
theorem arpUpdateSweepsThenOverwritesOneSlot : Obligations.ArpUpdateSweepsThenOverwritesOneSlot := by
  intro s ip hw hs
  have hswept := arpSweep_ne_nil s.params.arpTimeout s.timeNow hs
  refine ⟨arpSweep s.params.arpTimeout s.timeNow s.arp, _, updateIndex (arpSweep s.params.arpTimeout s.timeNow s.arp),
    exec_arpUpdate_answered ip hw s, length_arpSweep .., length_arpUpdate s ip hw, ?inside, fun k e he => ?sweeps,
    getElem?_arpUpdate_updateIndex ip hw hs, fun k hk => ?others, updateIndex_spec hswept⟩
  case inside => simpa only [length_arpSweep] using updateIndex_lt _ hswept
  case sweeps =>
    rw [arpSweep, List.getElem?_map, he, Option.map_some]
    simp only [sweepEntry, expired, decide_eq_true_eq]
  case others => rw [arpUpdate_arp, List.getElem?_set_ne hk.symm]

/-- R180: an entry that is VALID after the sweep was VALID before it. -/
theorem valid_of_sweepEntry_valid {timeout now : Nat} {e : ArpEntry} (h : (sweepEntry timeout now e).state = .valid) :
    e.state = .valid := by
  rwa [sweepEntry_of_not_expired (not_expired_of_sweepEntry_valid h)] at h

/-- R191: after an update for an address that was not cached, the new entry is the only one that has it. -/
theorem arpLookup_arpUpdate_of_not_cached {s : State} {ip : Ip} (hw : Hw) (hs : s.arp ≠ [])
    (hnew : ∀ e ∈ s.arp, ¬(e.state = .valid ∧ e.ip = ip)) : arpLookup (arpUpdate s ip hw).arp ip = some hw := by
  cases hl : arpLookup (arpUpdate s ip hw).arp ip with
  | none =>
    have hmem := List.mem_of_getElem? (getElem?_arpUpdate_updateIndex ip hw hs)
    exact absurd rfl ((arpLookup_eq_none _ _).1 hl _ hmem rfl)
  | some found =>
    obtain ⟨e, he, hvalid, hip, rfl⟩ := arpLookup_eq_some _ _ _ hl
    rcases mem_arpUpdate he with rfl | ⟨d, hd, rfl⟩
    · rfl
    · exact absurd ⟨valid_of_sweepEntry_valid hvalid, (sweepEntry_ip _ _ d).symm.trans hip⟩ (hnew d hd)

/-- Settles O30: no other entry can answer (`arpLookup_arpUpdate_of_not_cached`). -/
theorem learnedAddressIsFoundAtOnce : Obligations.LearnedAddressIsFoundAtOnce := fun s ip hw hs hnew =>
  ⟨_, exec_arpUpdate ip hw s, one_append_hw hw ▸ exec_arpLookup_of_some (arpLookup_arpUpdate_of_not_cached hw hs hnew)⟩

/-! ARP_INIT and ARP_RESOLVE (R186, R187, R193). -/

/-- Settles O33: the request ARP_INIT broadcasts is `arpMsg` with opcode 1 for LOCAL_IP. -/
theorem arpInitClearsTheCacheAndAnnounces : Obligations.ArpInitClearsTheCacheAndAnnounces := by
  refine fun s => ⟨arpMsg s 1 0 s.localIp, isArpMessage_arpMsg s 1 0 s.localIp, ?_⟩
  rw [exec_arpInit, arpRequest_emitted, respond_zero, List.map_const']
  rfl

theorem exec_arpResolve (ip : Ip) (proto : Half) (p : Bytes) (s : State) :
    exec (.arpResolve ip proto p) s = .next (answered (arpResolveSend s p ip proto) .ok 0) := rfl

/-- R186: a miss holds the packet, whatever the slot held, and broadcasts a request. -/
theorem exec_arpResolve_miss {s : State} {ip : Ip} (proto : Half) (p : Bytes) (h : arpLookup s.arp ip = none) :
    exec (.arpResolve ip proto p) s =
      .next (answered (emitted { s with pend := ⟨true, ip, proto, p⟩ }
        [.tx 0xFFFFFFFFFFFF 0x0806 (arpMsg s 1 0 ip)]) .ok 0) := by
  rw [exec_arpResolve, arpResolveSend_miss proto p h]

/-- Settles O34: ARP_RESOLVE is `arpResolveSend` (`resolved_arpResolveSend`). -/
theorem arpResolveSendsOrHolds : Obligations.ArpResolveSendsOrHolds := fun s ip proto p =>
  ⟨_, resolved_arpResolveSend s ip proto p, exec_arpResolve ip proto p s⟩

/-! ARP_IN (R188 to R190). -/

theorem arpAccepts_iff (m : Bytes) : arpAccepts m = true ↔ arpProfile m := by
  simp only [arpAccepts, Bool.and_eq_true, decide_eq_true_eq, beq_iff_eq, and_assoc]

theorem exec_arpIn (m : Bytes) (s : State) : exec (.arpIn m) s = .next (answered (arpIn s m) .ok 0) := rfl

/-- R188: a message that is short or has another profile is dropped. -/
theorem exec_arpIn_rejected (s : State) {m : Bytes} (h : ¬arpProfile m) :
    exec (.arpIn m) s = .next (answered s .ok 0) := by
  rw [exec_arpIn, arpIn, if_neg (mt (arpAccepts_iff m).1 h)]

/-- The cache after the sender of `m` is learned (R188). -/
def learnedCache (s : State) (m : Bytes) : List ArpEntry := (arpUpdate s (be32 m 14) (be48 m 8)).arp

/-- R189: a reply sends the held packet to its sender and empties the slot. -/
theorem exec_arpIn_reply {s : State} {m : Bytes} (h : arpProfile m) (hop : be16 m 6 = 2) (hheld : s.pend.valid = true) :
    exec (.arpIn m) s = .next (answered (emitted { s with arp := learnedCache s m, pend := ⟨false, 0, 0, []⟩ }
      [.tx (be48 m 8) s.pend.proto s.pend.pkt]) .ok 0) := by
  rw [exec_arpIn]
  rcases arpIn_cases s m with ⟨hrej, _⟩ | ⟨_, _, _, hin⟩ | ⟨_, hreq, _, _⟩ | ⟨_, hfree, _, _⟩
  · simp [(arpAccepts_iff m).2 h] at hrej
  · rw [hin]; rfl
  · exact absurd (hop.symm.trans hreq) (by decide)
  · simp [hfree hop] at hheld

/-- R189: a request for LOCAL_IP is answered with a reply to its sender. -/
theorem exec_arpIn_request {s : State} {m : Bytes} (h : arpProfile m) (hop : be16 m 6 = 1)
    (htpa : be32 m 24 = s.localIp) :
    exec (.arpIn m) s = .next (answered (emitted { s with arp := learnedCache s m }
      [.tx (be48 m 8) 0x0806 (arpMsg s 2 (be48 m 8) (be32 m 14))]) .ok 0) := by
  rw [exec_arpIn]
  rcases arpIn_cases s m with ⟨hrej, _⟩ | ⟨_, hrep, _, _⟩ | ⟨_, _, _, hin⟩ | ⟨_, _, hother, _⟩
  · simp [(arpAccepts_iff m).2 h] at hrej
  · exact absurd (hop.symm.trans hrep) (by decide)
  · rw [hin]; rfl
  · exact absurd htpa (hother hop)

/-- R189: anything else teaches the sender and does nothing more. -/
theorem exec_arpIn_other {s : State} {m : Bytes} (h : arpProfile m) (hrep : ¬(be16 m 6 = 2 ∧ s.pend.valid = true))
    (hreq : ¬(be16 m 6 = 1 ∧ be32 m 24 = s.localIp)) :
    exec (.arpIn m) s = .next (answered { s with arp := learnedCache s m } .ok 0) := by
  rw [exec_arpIn]
  rcases arpIn_cases s m with ⟨hrej, _⟩ | ⟨_, hop, hheld, _⟩ | ⟨_, hop, htpa, _⟩ | ⟨_, _, _, hin⟩
  · simp [(arpAccepts_iff m).2 h] at hrej
  · exact absurd ⟨hop, hheld⟩ hrep
  · exact absurd ⟨hop, htpa⟩ hreq
  · rw [hin]; rfl

/-- Settles O35: one equation of ARP_IN per clause; the cache is the one ARP_UPDATE leaves. -/
theorem arpInLearnsThenActs : Obligations.ArpInLearnsThenActs := fun s m =>
  ⟨exec_arpIn_rejected s, fun h => ⟨learnedCache s m, rfl, fun ⟨hop, hheld⟩ => exec_arpIn_reply h hop hheld,
    fun ⟨hop, htpa⟩ => ⟨_, isArpMessage_arpMsg s 2 (be48 m 8) (be32 m 14), exec_arpIn_request h hop htpa⟩,
    exec_arpIn_other h⟩⟩

/-- Settles O36: the second miss overwrites the slot (`exec_arpResolve_miss`), so the reply drains its packet
(`exec_arpIn_reply`). -/
theorem replyReleasesOnlyTheSecondMiss : Obligations.ReplyReleasesOnlyTheSecondMiss := by
  intro s ip1 ip2 q1 q2 p1 p2 m hmiss1 hmiss2 hm hop
  refine ⟨_, _, _, arpMsg s 1 0 ip1, arpMsg s 1 0 ip2, exec_arpResolve_miss q1 p1 hmiss1,
    exec_arpResolve_miss q2 p2 hmiss2, exec_arpIn_reply hm hop rfl, isArpMessage_arpMsg s 1 0 ip1,
    isArpMessage_arpMsg s 1 0 ip2, ?events, rfl⟩
  case events =>
    simp only [answered, emitted, List.append_assoc]
    rfl

end Sys2Proof.Proofs
end

section
/-! PROOFS. The pending slot's address (41_arp.md R189): every command does the same whatever address stands there. -/

namespace Sys2Proof.Proofs

open Sys2Proof Sys2Proof.Machine Sys2Proof.Safety Sys2Proof.Laws

/-- `s` with another address in the pending slot. -/
def atPendIp (ip : Ip) (s : State) : State := { s with pend := { s.pend with ip := ip } }

/-- `t` is `s` but for the address in the pending slot. -/
def SameButPendIp (s t : State) : Prop := ∃ ip, t = atPendIp ip s

theorem SameButPendIp.refl (s : State) : SameButPendIp s s := ⟨s.pend.ip, rfl⟩

theorem SameButPendIp.sameReceiver {s t : State} (h : SameButPendIp s t) : SameReceiver s t := by
  obtain ⟨ip, rfl⟩ := h
  exact ⟨rfl, rfl, rfl⟩

/-- An operation that does not touch the pending slot. -/
theorem SameButPendIp.map {s t : State} (f : State → State) (hf : ∀ ip s, f (atPendIp ip s) = atPendIp ip (f s))
    (h : SameButPendIp s t) : SameButPendIp (f s) (f t) := by
  obtain ⟨ip, rfl⟩ := h
  exact ⟨ip, hf ip s⟩

theorem SameButPendIp.respond {s t : State} (h : SameButPendIp s t) (st : Status) (r : BitVec 64) :
    SameButPendIp (respond s st r) (respond t st r) :=
  h.map (Machine.respond · st r) fun _ _ => rfl

theorem SameButPendIp.arpUpdate {s t : State} (h : SameButPendIp s t) (ip : Ip) (hw : Hw) :
    SameButPendIp (arpUpdate s ip hw) (arpUpdate t ip hw) :=
  h.map (Machine.arpUpdate · ip hw) fun _ _ => rfl

theorem SameButPendIp.arpRequest {s t : State} (h : SameButPendIp s t) (ip : Ip) :
    SameButPendIp (arpRequest s ip) (arpRequest t ip) :=
  h.map (Machine.arpRequest · ip) fun _ _ => rfl

theorem regWrite_atPendIp (ip : Ip) (s : State) (r : Half) (v : Word) :
    regWrite (atPendIp ip s) r v = (regWrite s r v).map (atPendIp ip) := by
  simp only [regWrite, apply_ite (Option.map (atPendIp ip))]
  rfl

/-! The operations that write the slot. -/

/-- R186: a hit leaves the slot, and a miss overwrites all of it. -/
theorem SameButPendIp.arpResolveSend {s t : State} (h : SameButPendIp s t) (pkt : Bytes) (ip : Ip) (proto : Half) :
    SameButPendIp (arpResolveSend s pkt ip proto) (arpResolveSend t pkt ip proto) := by
  obtain ⟨old, rfl⟩ := h
  cases hl : arpLookup s.arp ip with
  | some hw =>
    rw [arpResolveSend_hit proto pkt hl, arpResolveSend_hit (s := atPendIp old s) proto pkt hl]
    exact ⟨old, rfl⟩
  | none =>
    rw [arpResolveSend_miss proto pkt hl, arpResolveSend_miss (s := atPendIp old s) proto pkt hl]
    exact .refl _

/-- R189: a reply drains the slot whatever address it waited for. -/
theorem SameButPendIp.arpReply {s t : State} (h : SameButPendIp s t) (sha : Hw) :
    SameButPendIp (arpReply s sha) (arpReply t sha) := by
  obtain ⟨ip, rfl⟩ := h
  have hvalid : (atPendIp ip s).pend.valid = s.pend.valid := rfl
  simp only [Machine.arpReply, hvalid]
  split
  · exact .refl _
  · exact ⟨ip, rfl⟩

theorem SameButPendIp.arpAnswer {s t : State} (h : SameButPendIp s t) (sha : Hw) (spa tpa : Ip) :
    SameButPendIp (arpAnswer s sha spa tpa) (arpAnswer t sha spa tpa) := by
  refine h.map (Machine.arpAnswer · sha spa tpa) fun ip s => ?_
  simp only [Machine.arpAnswer, apply_ite (atPendIp ip)]
  rfl

theorem SameButPendIp.arpIn {s t : State} (h : SameButPendIp s t) (m : Bytes) :
    SameButPendIp (arpIn s m) (arpIn t m) := by
  have hlearned := h.arpUpdate (be32 m 14) (be48 m 8)
  simp only [Machine.arpIn]
  split_ifs
  · exact hlearned.arpReply _
  · exact hlearned.arpAnswer _ _ _
  · exact hlearned
  · exact h

/-! IPv4 output and the receive path. -/

theorem SameButPendIp.ipSendFragment {s t : State} (h : SameButPendIp s t) (b : Buf) (dst : Ip) (proto : BitVec 8)
    (id : Half) (off : BitVec 13) (mf : Bool) :
    SameButPendIp (ipSendFragment s b dst proto id off mf) (ipSendFragment t b dst proto id off mf) := by
  have hdatagram : ipDatagram t b dst proto id off mf = ipDatagram s b dst proto id off mf := by
    obtain ⟨ip, rfl⟩ := h
    rfl
  rw [Machine.ipSendFragment, Machine.ipSendFragment, hdatagram]
  exact h.arpResolveSend _ dst ethTypeIpv4

theorem SameButPendIp.ipSendLoop {s t : State} (h : SameButPendIp s t) (fuel : Nat) (rest : Bytes) (o : Nat) (dst : Ip)
    (proto : BitVec 8) (id : Half) :
    SameButPendIp (ipSendLoop fuel s rest o dst proto id) (ipSendLoop fuel t rest o dst proto id) := by
  induction fuel generalizing s t rest o with
  | zero => exact h
  | succ n ih =>
    simp only [Machine.ipSendLoop]
    split
    · exact ih (h.ipSendFragment _ dst proto id _ true) _ _
    · exact h.ipSendFragment _ dst proto id _ false

theorem SameButPendIp.ipSend {s t : State} (h : SameButPendIp s t) (b : Buf) (dst : Ip) (proto : BitVec 8) :
    SameButPendIp (ipSend s b dst proto) (ipSend t b dst proto) := by
  have hid : t.fragId = s.fragId := by
    obtain ⟨ip, rfl⟩ := h
    rfl
  have hdrawn := h.map (fun u => { u with fragId := s.fragId + 1 }) fun _ _ => rfl
  simp only [Machine.ipSend, hid]
  split
  · exact hdrawn.ipSendLoop (bufLen b) b.win 0 dst proto s.fragId
  · exact hdrawn.ipSendFragment b dst proto s.fragId 0 false

theorem SameButPendIp.run {s t : State} (h : SameButPendIp s t) (a : InputAction) : SameButPendIp (a.run s) (a.run t) := by
  cases a with
  | drop => exact h
  | deliver hd src sport p => exact h.map (emitDeliver · hd src sport p) fun _ _ => rfl
  | send b dst proto => exact h.ipSend b dst proto

theorem SameButPendIp.icmpIn {s t : State} (h : SameButPendIp s t) (m : Bytes) (src : Ip) :
    SameButPendIp (icmpIn s m src) (icmpIn t m src) := by
  obtain ⟨a, ha⟩ := icmpIn_action m src
  rw [ha, ha]
  exact h.run a

theorem SameButPendIp.ipIn {s t : State} (h : SameButPendIp s t) (b : Buf) :
    ∃ u v, ipIn s b = .ok u ∧ ipIn t b = .ok v ∧ SameButPendIp u v := by
  obtain ⟨a, ha⟩ := ipIn_action s b
  exact ⟨_, _, ha s (.refl s), ha t h.sameReceiver, h.run a⟩

theorem SameButPendIp.udpIn {s t : State} (h : SameButPendIp s t) (b : Buf) (src : Ip) :
    ∃ u v, udpIn s b src = .ok u ∧ udpIn t b src = .ok v ∧ SameButPendIp u v := by
  obtain ⟨a, ha⟩ := udpIn_action s b src
  exact ⟨_, _, ha s (.refl s), ha t h.sameReceiver, h.run a⟩

theorem SameButPendIp.ethRx {s t : State} (h : SameButPendIp s t) (f : Bytes) :
    ∃ u v, ethRx s f = .ok u ∧ ethRx t f = .ok v ∧ SameButPendIp u v := by
  by_cases hlen : f.length < linkHdrLen
  · exact ⟨s, t, if_pos hlen, if_pos hlen, h⟩
  simp only [Machine.ethRx, if_neg hlen, removeHeader_of_le (load f) linkHdrLen (Nat.le_of_not_lt hlen)]
  by_cases harp : be16 f 12 = ethTypeArp
  · simp only [if_pos harp]
    exact ⟨_, _, rfl, rfl, h.arpIn _⟩
  by_cases hip : be16 f 12 = ethTypeIpv4
  · simp only [if_neg harp, if_pos hip, ethIpv4]
    split
    · exact (h.arpUpdate _ _).ipIn _
    · exact h.ipIn _
  · simp only [if_neg harp, if_neg hip]
    exact ⟨s, t, rfl, rfl, h⟩

/-! The commands. -/

/-- The command `i` runs from `s` and from `t` to states that differ in no more than the slot's address. -/
def EndsSameButPendIp (i : Instr) (s t : State) : Prop :=
  ∃ u v, exec i s = .next u ∧ exec i t = .next v ∧ SameButPendIp u v

theorem EndsSameButPendIp.of_respond {i : Instr} {s t u v : State} (st : Status) (r : BitVec 64)
    (hs : exec i s = .next (respond u st r)) (ht : exec i t = .next (respond v st r)) (h : SameButPendIp u v) :
    EndsSameButPendIp i s t :=
  ⟨_, _, hs, ht, h.respond st r⟩

/-- A command that ends with ST_OK and the result 0. -/
theorem EndsSameButPendIp.of_complete {i : Instr} {s t u v : State} (hs : exec i s = complete (.ok u))
    (ht : exec i t = complete (.ok v)) (h : SameButPendIp u v) : EndsSameButPendIp i s t :=
  .of_respond .ok 0 hs ht h

/-- A command of the receive path, whose procedure runs to its end. -/
theorem EndsSameButPendIp.of_procedure {i : Instr} {s t : State} {p q : Except Fault State}
    (h : ∃ u v, p = .ok u ∧ q = .ok v ∧ SameButPendIp u v) (hs : exec i s = complete p) (ht : exec i t = complete q) :
    EndsSameButPendIp i s t := by
  obtain ⟨u, v, rfl, rfl, huv⟩ := h
  exact .of_complete hs ht huv

theorem udpOpen_pendIp (port : Half) (handler : Word) (ip : Ip) (s : State) :
    EndsSameButPendIp (.udpOpen port handler) s (atPendIp ip s) := by
  cases hfind : udpFind s.udp port with
  | some j =>
    exact .of_complete (exec_udpOpen_registered handler hfind) (exec_udpOpen_registered handler hfind) ⟨ip, rfl⟩
  | none =>
    cases hfree : udpFree s.udp with
    | some j => exact .of_complete (exec_udpOpen_new handler hfind hfree) (exec_udpOpen_new handler hfind hfree) ⟨ip, rfl⟩
    | none =>
      exact .of_respond .fail 0 (exec_udpOpen_full handler hfind hfree) (exec_udpOpen_full handler hfind hfree) ⟨ip, rfl⟩

theorem udpClose_pendIp (port : Half) (ip : Ip) (s : State) : EndsSameButPendIp (.udpClose port) s (atPendIp ip s) := by
  cases hfind : udpFind s.udp port with
  | some j => exact .of_complete (exec_udpClose_registered hfind) (exec_udpClose_registered hfind) ⟨ip, rfl⟩
  | none => exact .of_complete (exec_udpClose_unregistered hfind) (exec_udpClose_unregistered hfind) ⟨ip, rfl⟩

theorem regRd_pendIp (reg : Half) (ip : Ip) (s : State) : EndsSameButPendIp (.regRd reg) s (atPendIp ip s) := by
  cases hr : regRead s reg with
  | some v => exact .of_respond .ok _ (exec_regRd_of_some hr) (exec_regRd_of_some hr) ⟨ip, rfl⟩
  | none => exact .of_respond .illegal 0 (exec_regRd_of_none hr) (exec_regRd_of_none hr) ⟨ip, rfl⟩

theorem regWr_pendIp (reg : Half) (value : Word) (ip : Ip) (s : State) :
    EndsSameButPendIp (.regWr reg value) s (atPendIp ip s) := by
  cases hw : regWrite s reg value with
  | some u =>
    exact .of_complete (exec_regWr_of_some hw) (exec_regWr_of_some (by rw [regWrite_atPendIp, hw]; rfl)) ⟨ip, rfl⟩
  | none =>
    exact .of_respond .illegal 0 (exec_regWr_of_none hw) (exec_regWr_of_none (by rw [regWrite_atPendIp, hw]; rfl))
      ⟨ip, rfl⟩

/-- R189: every command. -/
theorem exec_pendIp (i : Instr) (ip : Ip) (s : State) : EndsSameButPendIp i s (atPendIp ip s) := by
  have h : SameButPendIp s (atPendIp ip s) := ⟨ip, rfl⟩
  cases i with
  | nop => exact .of_complete rfl rfl h
  | csum pkt => exact .of_respond .ok _ rfl rfl h
  | arpInit =>
    exact .of_complete rfl rfl
      ((h.map (fun u => { u with arp := List.replicate u.arp.length ArpEntry.empty }) fun _ _ => rfl).arpRequest s.localIp)
  | arpUpdate dst hw => exact .of_complete rfl rfl (h.arpUpdate dst hw)
  | arpLookup dst => exact .of_respond .ok _ rfl rfl h
  | arpRequest dst => exact .of_complete rfl rfl (h.arpRequest dst)
  | arpResolve dst proto pkt => exact .of_complete rfl rfl (h.arpResolveSend pkt dst proto)
  | arpIn pkt => exact .of_complete rfl rfl (h.arpIn pkt)
  | ipIn pkt => exact .of_procedure (h.ipIn (load pkt)) rfl rfl
  | ipFrag dst proto id off mf pkt =>
    by_cases hlen : 65515 < pkt.length
    · exact .of_respond .length 0 (if_pos hlen) (if_pos hlen) h
    · exact .of_complete (if_neg hlen) (if_neg hlen) (h.ipSendFragment (load pkt) dst proto id off mf)
  | ipSend dst proto pkt => exact .of_complete rfl rfl (h.ipSend _ _ _)
  | icmpIn src pkt => exact .of_complete rfl rfl (h.icmpIn pkt src)
  | icmpUnreach dst code pkt => exact .of_complete rfl rfl (h.ipSend _ _ _)
  | udpIn src pkt => exact .of_procedure (h.udpIn (load pkt) src) rfl rfl
  | udpSend sport dst dport pkt =>
    by_cases hlen : 65527 < pkt.length
    · exact .of_respond .length 0 (if_pos hlen) (if_pos hlen) h
    · exact .of_complete (if_neg hlen) (if_neg hlen) (h.ipSend _ _ _)
  | udpOpen port handler => exact udpOpen_pendIp port handler ip s
  | udpClose port => exact udpClose_pendIp port ip s
  | udpPcsum src dst pkt =>
    by_cases hlen : pkt.length < udpHdrLen
    · exact .of_respond .length 0 (if_pos hlen) (if_pos hlen) h
    · exact .of_respond .ok _ (if_neg hlen) (if_neg hlen) h
  | ethRx pkt => exact .of_procedure (h.ethRx pkt) rfl rfl
  | regRd reg => exact regRd_pendIp reg ip s
  | regWr reg value => exact regWr_pendIp reg value ip s

/-- Settles O17: every command ends the same but for that address (`exec_pendIp`). -/
theorem pendingAddressIsNeverRead : Obligations.PendingAddressIsNeverRead := by
  intro i s t ip h
  obtain ⟨u, v, hu, hv, ip', rfl⟩ := exec_pendIp i ip s
  cases hu.symm.trans h
  exact ⟨ip', hv⟩

end Sys2Proof.Proofs
end

section
/-! PROOFS. IPv4 input (42_ip.md R220 to R222): what fails a check is dropped, what passes is dispatched; and the round trip of a
UDP payload from one block's output to another block's input. -/

namespace Sys2Proof.Proofs

open Sys2Proof Sys2Proof.Machine Sys2Proof.Safety Sys2Proof.Laws

/-! Rejected datagrams (R220, R353). -/

theorem ipIn_rejected {s : State} {b : Buf} (h : ipRejects s.localIp b.win) : ipIn s b = .ok s := by
  have hrefused : ¬ipAccepts s.localIp b.win = true := fun hacc => (ipAccepts_iff s.localIp b.win).1 hacc h
  rw [ipIn, if_neg hrefused]

/-- Settles O40: IP input ends where it began (`ipIn_rejected`). -/
theorem ipInDropsWhatFailsACheck : Obligations.IpInDropsWhatFailsACheck := fun _ _ hrej =>
  exec_ipIn_of_ok (ipIn_rejected hrej)

/-! Accepted datagrams (R221). -/

/-- R221: an accepted datagram goes to the dispatch as `trimmed`; trimming leaves the header fields the dispatch reads, and the
whole header. -/
theorem ipIn_accepted {s : State} {p : Bytes} (hacc : ¬ipRejects s.localIp p) :
    ∃ c, c.win = trimmed s.params p ∧ ipHdrBytes c.win = headerLen p ∧ headerLen p ≤ bufLen c ∧
      byteAt c.win 9 = byteAt p 9 ∧ be32 c.win 12 = be32 p 12 ∧ ipIn s (load p) = ipDispatch s c := by
  have haccepts := (ipAccepts_iff s.localIp p).2 hacc
  obtain ⟨h20, hlen⟩ := ipAccepts_header _ _ haccepts
  rw [ipHdrBytes_eq_headerLen] at h20 hlen
  obtain ⟨c, hc, hwin, -⟩ := ipTrim_load (s := s) h20 hlen
  obtain ⟨n, hn, htake⟩ := trimmed_eq_take s.params hlen
  rw [htake] at hwin
  refine ⟨c, hwin.trans htake.symm, ?header, ?fits, ?protocol, ?source, ?dispatched⟩
  case header => rw [hwin, ipHdrBytes_eq_headerLen, headerLen, byteAt_take _ _ _ (by omega), headerLen]
  case fits => rw [bufLen, hwin, List.length_take]; omega
  case protocol => rw [hwin, byteAt_take _ _ _ (by omega)]
  case source => rw [hwin, be32_take _ (by omega)]
  case dispatched => simp only [ipIn, load_win, haccepts, if_true, hc]

theorem ipIn_icmp {s : State} {p : Bytes} (hacc : ¬ipRejects s.localIp p) (hproto : byteAt p 9 = 1) :
    ipIn s (load p) = .ok (icmpIn s ((trimmed s.params p).drop (headerLen p)) (be32 p 12)) := by
  obtain ⟨c, hwin, hhdr, hfit, h9, h12, hin⟩ := ipIn_accepted hacc
  have hicmp : byteAt p 9 = ipProtoIcmp := hproto
  rw [← hwin]
  simp only [hin, ipDispatch, hhdr, h9, h12, if_pos hicmp, removeHeader_of_le c _ hfit]

theorem ipIn_other {s : State} {p : Bytes} (hacc : ¬ipRejects s.localIp p) (hicmp : byteAt p 9 ≠ 1)
    (hudp : byteAt p 9 ≠ 17) :
    ipIn s (load p) = .ok (icmpUnreachable s (trimmed s.params p) (be32 p 12) 2) := by
  obtain ⟨c, hwin, -, -, h9, h12, hin⟩ := ipIn_accepted hacc
  rw [← hwin]
  simp only [hin, ipDispatch, h9, h12, if_neg hicmp, if_neg hudp]

/-! UDP input for an open port (R282). -/

theorem udpIn_dropped {s : State} {b : Buf} {src : Ip} (hv : ¬udpVerifies s.localIp src b.win) : udpIn s b src = .ok s := by
  rcases udpIn_cases s b src with ⟨-, hdrop⟩ | ⟨hgood, -⟩
  · exact hdrop
  · exact absurd hgood hv

/-- R282: a segment that verifies and whose port is found is delivered to that slot's handler, whatever stands in the store in
front of it. -/
theorem udpIn_delivered {s : State} {b : Buf} {src : Ip} {j : Nat} (hv : udpVerifies s.localIp src b.win)
    (hj : udpFind s.udp (be16 b.win 2) = some j) :
    udpIn s b src =
      .ok (emitDeliver s (s.udp.getD j UdpSlot.empty).handler src (be16 b.win 0) ((udpCut b.win).drop 8)) := by
  rcases udpIn_cases s b src with ⟨hbad, -⟩ | ⟨-, c, hcwin, -, hdispatch⟩
  · exact absurd hv hbad
  obtain ⟨hlen, hulen, -⟩ := hv
  obtain ⟨n, hn, hcut⟩ := udpCut_eq_take hlen hulen
  have hc8 : 8 ≤ bufLen c := by rw [bufLen, hcwin, hcut, List.length_take]; omega
  have hsport : be16 c.win 0 = be16 b.win 0 := by rw [hcwin, hcut, be16_take _ (by omega)]
  have hdport : be16 c.win 2 = be16 b.win 2 := by rw [hcwin, hcut, be16_take _ (by omega)]
  rcases udpDispatch_cases s c src hc8 with ⟨k, hk, hsent⟩ | ⟨hnone, -⟩
  · rw [hdport, hj, Option.some.injEq] at hk
    rw [hdispatch, hsent, hsport, hcwin, hk]
  · rw [hdport, hj] at hnone
    cases hnone

/-- For an open port UDP input does not look at the store in front of the segment. -/
theorem udpIn_eq_of_open {s : State} {b : Buf} (src : Ip)
    (hopen : ∃ u ∈ s.udp, u.valid = true ∧ u.port = be16 b.win 2) : udpIn s b src = udpIn s (load b.win) src := by
  by_cases hv : udpVerifies s.localIp src b.win
  · obtain ⟨j, hj⟩ : ∃ j, udpFind s.udp (be16 b.win 2) = some j := by
      obtain ⟨u, hu, hvalid, hport⟩ := hopen
      exact Option.ne_none_iff_exists'.1 fun hnone => port_ne_of_udpFind_eq_none hnone u hu hvalid hport
    rw [udpIn_delivered hv hj, udpIn_delivered (b := load b.win) hv hj, load_win]
  · rw [udpIn_dropped hv, udpIn_dropped (b := load b.win) hv]

theorem exec_icmpIn (s : State) (src : Ip) (m : Bytes) :
    exec (.icmpIn src m) s = .next (respond (icmpIn s m src) .ok 0) := rfl

theorem exec_udpIn_of_ok {s u : State} {src : Ip} {p : Bytes} (h : udpIn s (load p) src = .ok u) :
    exec (.udpIn src p) s = .next (respond u .ok 0) :=
  congrArg complete h

/-- Settles O41: IP input always answers (`ipIn_ok`), and what it answers is, by protocol, `ipIn_icmp`, `ipIn_udp` with
`udpIn_eq_of_open`, or `ipIn_other`. -/
theorem ipInDispatchesByProtocol : Obligations.IpInDispatchesByProtocol := by
  intro s p hacc
  obtain ⟨t, ht, -⟩ := ipIn_ok s (load p)
  refine ⟨_, exec_ipIn_of_ok ht, fun hicmp => ?icmp, fun hudp hopen => ?udp, fun hicmp hudp => ?other⟩
  case icmp =>
    cases ht.symm.trans (ipIn_icmp hacc hicmp)
    exact exec_icmpIn s _ _
  case udp =>
    obtain ⟨b, hwin, -, hin⟩ := ipIn_udp hacc hudp
    rw [← hwin] at hopen ⊢
    exact exec_udpIn_of_ok ((udpIn_eq_of_open _ hopen).symm.trans (hin.symm.trans ht))
  case other =>
    cases ht.symm.trans (ipIn_other hacc hicmp hudp)
    exact exec_icmpUnreach s _ 2 _

/-! From UDP_SEND on one block to DELIVER on another. -/

/-- R46: with no port in two valid slots, the slot found for the port of a valid slot is that slot. -/
theorem udpFind_of_unique {t : List UdpSlot} {j : Nat} {u : UdpSlot} (huniq : uniquePorts t) (hj : t[j]? = some u)
    (hvalid : u.valid = true) : udpFind t u.port = some j := by
  obtain ⟨hlt, rfl⟩ := List.getElem?_eq_some_iff.1 hj
  rw [udpFind, List.findIdx?_eq_some_iff_getElem]
  refine ⟨hlt, by simp [hvalid], fun k hk => ?_⟩
  have hdiffer := List.pairwise_iff_getElem.1 huniq k j (by omega) hlt hk
  simpa using fun hkvalid => hdiffer hkvalid hvalid

/-- What a block sends as one datagram of at most 1500 bytes, the block with its destination address accepts; no trimming changes
it, and its payload stands behind 20 header bytes. -/
theorem isDatagram_accepted {a : State} {d payload : Bytes} {dst : Ip} {proto : BitVec 8} {id : Half} {word : Nat}
    (h : isDatagram a d dst proto id word payload) (hlen : d.length ≤ 1500) :
    ¬ipRejects dst d ∧ ∀ params, (trimmed params d).drop (headerLen d) = payload := by
  obtain ⟨hsize, hver, htos, htotal, -, -, -, -, -, hdst, -, hsum, hdrop⟩ := h
  have hver' : (byteAt d 0).toNat = 0x45 := congrArg BitVec.toNat hver
  have htos' : (byteAt d 1).toNat = 0 := congrArg BitVec.toNat htos
  have hhdr : headerLen d = 20 := by rw [headerLen, hver']
  constructor
  · rintro (hshort | hversion | hihl | hheader | htype | hlong | hbad | hother)
    · omega
    · omega
    · omega
    · omega
    · omega
    · omega
    · exact hbad (by rw [hhdr, hsum])
    · exact hother hdst
  · intro params
    have hwhole : trimmed params d = d := if_neg fun hcut => by omega
    rw [hwhole, hhdr, hdrop]

/-- R282: the cut leaves a segment that declares its own length as it is. -/
theorem udpCut_of_length {seg : Bytes} (h : (be16 seg 4).toNat = seg.length) : udpCut seg = seg := by
  rw [udpCut, h, List.take_length, ite_self]

/-- R225: to a cached address a payload of at most 1480 bytes leaves as one datagram. -/
theorem exec_ipSend_single {s : State} {dst : Ip} {hw : Hw} {p : Bytes} (proto : BitVec 8) (hp : p.length ≤ 1480)
    (hhit : arpLookup s.arp dst = some hw) :
    ∃ d, exec (.ipSend dst proto p) s =
        .next (answered (emitted { s with fragId := s.fragId + 1 } [.tx hw 0x0800 d]) .ok 0) ∧
      isDatagram s d dst proto s.fragId 0 p ∧ d.length ≤ 1500 := by
  obtain ⟨ds, hsent, hcount, -, heach⟩ := ipSendFragmentsThePayload s dst proto p hw (by omega) hhit
  obtain ⟨d, rfl⟩ : ∃ d, ds = [d] := List.length_eq_one_iff.1 (by omega)
  obtain ⟨hdata, hlen, -⟩ := heach 0 d rfl
  refine ⟨d, hsent, ?_, hlen⟩
  simpa [List.take_of_length_le hp] using hdata

/-- R281: UDP_PCSUM completes only on a segment that holds a header. -/
theorem eight_le_length_of_udpPcsum_ok {s : State} {src dst : Ip} {p : Bytes} {r : BitVec 64}
    (h : exec (.udpPcsum src dst p) s = .next (answered s .ok r)) : 8 ≤ p.length := by
  by_contra hshort
  rw [exec_udpPcsum_short src dst (Nat.not_le.1 hshort), Host.Outcome.next.injEq] at h
  simpa [answered] using congrArg State.responses h

/-- R284: to a cached address UDP_SEND sends a payload of at most 1472 bytes as one datagram, which carries it in a segment that
verifies at the destination. -/
theorem exec_udpSend_single {s : State} {dst : Ip} {hw : Hw} {p : Bytes} (sport dport : Half) (hp : p.length ≤ 1472)
    (hhit : arpLookup s.arp dst = some hw) :
    ∃ d seg, exec (.udpSend sport dst dport p) s =
        .next (answered (emitted { s with fragId := s.fragId + 1 } [.tx hw 0x0800 d]) .ok 0) ∧
      isDatagram s d dst 17 s.fragId 0 seg ∧ d.length ≤ 1500 ∧ be16 seg 0 = sport ∧ be16 seg 2 = dport ∧
      (udpCut seg).drop 8 = p ∧ udpVerifies dst s.localIp seg := by
  obtain ⟨-, hbuild⟩ := udpSendBuildsAVerifyingSegment s sport dst dport p
  obtain ⟨seg, t, hudp, hip, hsport, hdport, hulen, hpayload, hsum, hpcsum⟩ := hbuild (by omega)
  have h8 := eight_le_length_of_udpPcsum_ok hpcsum
  have hlen : seg.length = 8 + p.length := by
    rw [← hpayload, List.length_drop]
    omega
  obtain ⟨d, hsent, hdata, hfits⟩ := exec_ipSend_single 17 (by omega : seg.length ≤ 1480) hhit
  have hcut := udpCut_of_length (hulen.trans hlen.symm)
  exact ⟨d, seg, hudp.trans (hip.symm.trans hsent), hdata, hfits, hsport, hdport, by rw [hcut, hpayload],
    h8, by omega, by rw [hcut, hsum]⟩

/-- A delivery is one event and no frame (R53, R310). -/
theorem emitDeliver_emitted (s : State) (handler : Word) (src : Ip) (sport : Half) (p : Bytes) :
    emitDeliver s handler src sport p = emitted s [.deliver handler src sport p] := by
  simp [emitDeliver, emitted, frameOf]

/-- R220, R221, R282: a datagram to this block with a verifying segment for an open port is delivered to the port's handler. -/
theorem exec_ipIn_delivered {a b : State} {d seg : Bytes} {id : Half} {word : Nat} {u : UdpSlot}
    (hdata : isDatagram a d b.localIp 17 id word seg) (hfits : d.length ≤ 1500)
    (hverifies : udpVerifies b.localIp a.localIp seg) (huniq : uniquePorts b.udp) (hu : u ∈ b.udp)
    (hvalid : u.valid = true) (hport : be16 seg 2 = u.port) :
    exec (.ipIn d) b =
      .next (answered (emitted b [.deliver u.handler a.localIp (be16 seg 0) ((udpCut seg).drop 8)]) .ok 0) := by
  obtain ⟨hacc, htrim⟩ := isDatagram_accepted hdata hfits
  obtain ⟨-, -, -, -, -, -, -, hproto, hsrc, -⟩ := hdata
  obtain ⟨c, hwin, -, hin⟩ := ipIn_udp hacc hproto
  rw [htrim] at hwin
  subst hwin
  obtain ⟨j, hj⟩ := List.mem_iff_getElem?.1 hu
  have hfind : udpFind b.udp (be16 c.win 2) = some j := hport ▸ udpFind_of_unique huniq hj hvalid
  have hslot : b.udp.getD j UdpSlot.empty = u := by rw [List.getD_eq_getElem?_getD, hj, Option.getD_some]
  rw [hsrc, udpIn_delivered hverifies hfind, hslot, emitDeliver_emitted] at hin
  exact exec_ipIn_of_ok hin

/-- Settles O50: what one block sends (`exec_udpSend_single`) is what the other delivers (`exec_ipIn_delivered`). -/
theorem sentPayloadIsDelivered : Obligations.SentPayloadIsDelivered := by
  rintro a b sport dst dport p hw u hp hhit rfl huniq hu hvalid rfl
  obtain ⟨d, seg, hsent, hdata, hfits, rfl, hdport, rfl, hverifies⟩ := exec_udpSend_single sport u.port hp hhit
  exact ⟨d, hsent, exec_ipIn_delivered hdata hfits hverifies huniq hu hvalid hdport⟩

end Sys2Proof.Proofs
end

section
/-! PROOFS. The echo reply (43_icmp.md R260, R264): its bytes, and that ICMP_IN sends it. -/

namespace Sys2Proof.Proofs

open Sys2Proof Sys2Proof.Machine Sys2Proof.Safety Sys2Proof.Laws

/-- The reply's bytes: type and code 0, the checksum, and the request from offset 4 on (R260). -/
theorem echoReply_eq (m : Bytes) : ∃ v, echoReply m = [0, 0] ++ bytes16 v ++ m.drop 4 := by
  have hcopied : (putBytes m 0 [icmpEchoReply, 0]).drop 4 = m.drop 4 := by
    rw [putBytes_zero]
    exact List.drop_drop
  rw [← hcopied]
  exact ⟨_, rfl⟩

/-- R260: a 16-bit field from offset 4 on is the request's. -/
theorem be16_echoReply (m : Bytes) (k : Nat) : be16 (echoReply m) (4 + k) = be16 m (4 + k) := by
  obtain ⟨v, hv⟩ := echoReply_eq m
  rw [hv, be16_append_right _ _ _ (Nat.le_add_right 4 k), ← be16_drop]
  exact congrArg (be16 (m.drop 4)) (Nat.add_sub_cancel_left 4 k)

/-- R162, R264: the reply to a message that holds a header checks to zero. -/
theorem csum_echoReply {m : Bytes} (h : 8 ≤ m.length) : csum (echoReply m) = 0 :=
  csum_eq_zero_of_field (a := []) (b := echoReply m) rfl rfl (by rw [length_echoReply m h]; omega) (echoReply_checksum m h)

/-- R260: an echo request does what IP_SEND does with the reply. -/
theorem exec_icmpIn_request {s : State} {src : Ip} {m : Bytes} (h : 8 ≤ m.length ∧ byteAt m 0 = 8 ∧ byteAt m 1 = 0) :
    exec (.icmpIn src m) s = exec (.ipSend src 1 (echoReply m)) s := by
  obtain ⟨-, -, -, hsend⟩ | ⟨hnot, -⟩ := icmpIn_cases s m src
  · rw [exec_icmpIn, hsend]
    rfl
  · exact absurd h hnot

/-- R260: any other message is ignored. -/
theorem exec_icmpIn_ignored {s : State} {src : Ip} {m : Bytes} (h : ¬(8 ≤ m.length ∧ byteAt m 0 = 8 ∧ byteAt m 1 = 0)) :
    exec (.icmpIn src m) s = .next (answered s .ok 0) := by
  obtain ⟨hlen, htype, hcode, -⟩ | ⟨-, hkeep⟩ := icmpIn_cases s m src
  · exact absurd ⟨hlen, htype, hcode⟩ h
  · rw [exec_icmpIn, hkeep, respond_zero]

/-- Settles O43: the two cases of ICMP_IN, and the reply by its bytes (`echoReply_eq`) and its inserted checksum
(`echoReply_checksum`). -/
theorem echoReplyMirrorsTheRequest : Obligations.EchoReplyMirrorsTheRequest := by
  refine fun s src m => ⟨fun hreq => ?_, exec_icmpIn_ignored⟩
  have hlen := hreq.1
  obtain ⟨v, hv⟩ := echoReply_eq m
  refine ⟨echoReply m, _, exec_icmpIn_request hreq, rfl, csum_echoReply hlen, echoReply_checksum m hlen,
    length_echoReply m hlen, ?typeByte, ?codeByte, be16_echoReply m 0, be16_echoReply m 2, ?payload⟩
  case typeByte => rw [hv]; rfl
  case codeByte => rw [hv]; rfl
  case payload =>
    rw [hv]
    exact List.drop_drop

end Sys2Proof.Proofs
end

section
/-! PROOFS. UDP input and the handler table (44_udp.md R282, R283, R286, R287): what UDP_IN does with a segment that verifies, and
the slot that UDP_OPEN and UDP_CLOSE write. -/

namespace Sys2Proof.Proofs

open Sys2Proof Sys2Proof.Machine Sys2Proof.Safety Sys2Proof.Laws

/-! UDP_IN (R282, R283). -/

/-- R282, R46: a segment that verifies is delivered to the handler of the one valid slot that holds its port. -/
theorem udpIn_delivered_of_unique {s : State} {b : Buf} {src : Ip} {u : UdpSlot} (hv : udpVerifies s.localIp src b.win)
    (huniq : uniquePorts s.udp) (hu : u ∈ s.udp) (hvalid : u.valid = true) (hport : u.port = be16 b.win 2) :
    udpIn s b src = .ok (emitted s [.deliver u.handler src (be16 b.win 0) ((udpCut b.win).drop 8)]) := by
  obtain ⟨j, hj⟩ := List.mem_iff_getElem?.1 hu
  have hfind : udpFind s.udp (be16 b.win 2) = some j := hport ▸ udpFind_of_unique huniq hj hvalid
  have hslot : s.udp.getD j UdpSlot.empty = u := by rw [List.getD_eq_getElem?_getD, hj, Option.getD_some]
  rw [udpIn_delivered hv hfind, hslot, emitDeliver_emitted]

/-- R282, R262: the error for a closed port embeds the store's 20 bytes in front of the segment, and the segment's header; the cut
leaves both, so it stands for the whole segment. -/
theorem udpIn_closed {s : State} {b : Buf} {src : Ip} (hv : udpVerifies s.localIp src b.win)
    (hclosed : udpFind s.udp (be16 b.win 2) = none) :
    udpIn s b src = .ok (icmpUnreachable s (frontBytes b 20 ++ b.win) src 3) := by
  rcases udpIn_cases s b src with ⟨hbad, -⟩ | ⟨-, c, hcwin, hcfront, hdispatch⟩
  · exact absurd hv hbad
  obtain ⟨hlen, hulen, -⟩ := hv
  obtain ⟨n, hn, hcut⟩ := udpCut_eq_take hlen hulen
  rw [hcut] at hcwin
  have hport : be16 c.win 2 = be16 b.win 2 := by rw [hcwin, be16_take _ (by omega)]
  have hsent : udpDispatch s c src = .ok (icmpUnreachable s (addHeader c 20).win src 3) := by
    simp only [udpDispatch, hport, hclosed]
  have hfront : frontBytes c 20 = frontBytes b 20 := by rw [frontBytes, hcfront, frontBytes]
  have hembed : (addHeader c 20).win.take 28 = (frontBytes b 20 ++ b.win).take 28 := by
    rw [addHeader_win, hfront, hcwin, List.take_append, List.take_append, length_frontBytes, List.take_take,
      Nat.min_eq_left (by omega)]
  rw [hdispatch, hsent, icmpUnreachable_congr s src 3 hembed]

/-- R79: in front of a loaded packet the store holds zeros. -/
theorem frontBytes_load (p : Bytes) (n : Nat) : frontBytes (load p) n = zeros n := by
  simp [frontBytes, zeros]

/-- Settles O47: a segment that does not verify is dropped (`udpIn_dropped`), one for an open port is delivered
(`udpIn_delivered_of_unique`), and the error for a closed one embeds the zeros in front of a loaded packet (`udpIn_closed`). -/
theorem udpInVerifiesThenDispatches : Obligations.UdpInVerifiesThenDispatches := by
  refine fun s src p => ⟨fun hbad => ?dropped, fun hv => ⟨fun u hu huniq hvalid hport => ?opened, fun hclosed => ?closed⟩⟩
  case dropped => exact exec_udpIn_of_ok (udpIn_dropped hbad)
  case opened => exact exec_udpIn_of_ok (udpIn_delivered_of_unique (b := load p) hv huniq hu hvalid hport)
  case closed =>
    have hsent := udpIn_closed (b := load p) hv (udpFind_eq_none hclosed)
    rw [frontBytes_load] at hsent
    exact ⟨_, exec_udpIn_of_ok hsent, exec_icmpUnreach s src 3 _⟩

/-! The free slot (R286). -/

theorem udpFree_eq_some {t : List UdpSlot} {j : Nat} {u : UdpSlot} (hj : t[j]? = some u) (hfree : u.valid = false)
    (hlowest : ∀ (k : Nat) (v : UdpSlot), k < j → t[k]? = some v → v.valid = true) : udpFree t = some j := by
  obtain ⟨hlt, rfl⟩ := List.getElem?_eq_some_iff.1 hj
  rw [udpFree, List.findIdx?_eq_some_iff_getElem]
  refine ⟨hlt, by simp [hfree], fun k hk => ?_⟩
  simp [hlowest k _ hk (List.getElem?_eq_getElem (hk.trans hlt))]

theorem udpFree_eq_none {t : List UdpSlot} (hfull : ∀ u ∈ t, u.valid = true) : udpFree t = none := by
  rw [udpFree, List.findIdx?_eq_none_iff]
  exact fun u hu => by simp [hfull u hu]

/-! UDP_OPEN (R286). -/

/-- Another handler in a valid slot is the slot written with its port and that handler. -/
theorem modify_handler_eq_set {t : List UdpSlot} {j : Nat} {u : UdpSlot} (handler : Word) (hj : t[j]? = some u)
    (hvalid : u.valid = true) :
    t.modify j (fun u => { u with handler := handler }) = t.set j ⟨true, u.port, handler⟩ := by
  rw [List.modify_eq_set_getElem?, hj, ← hvalid]
  rfl

/-- Settles O48: R46 makes the port's slot the one found (`udpFind_of_unique`), and a new port takes the lowest free slot
(`udpFree_eq_some`) if there is one (`udpFree_eq_none`). -/
theorem udpOpenReplacesInsertsOrFails : Obligations.UdpOpenReplacesInsertsOrFails := by
  refine fun s port handler => ⟨?registered, fun hnew => ⟨fun j u hj hfree hlowest => ?inserted, fun hfull => ?full⟩⟩
  case registered =>
    rintro j u huniq hj hvalid rfl
    rw [exec_udpOpen_registered handler (udpFind_of_unique huniq hj hvalid), modify_handler_eq_set handler hj hvalid,
      complete_ok, respond_zero]
  case inserted =>
    rw [exec_udpOpen_new handler (udpFind_eq_none hnew) (udpFree_eq_some hj hfree hlowest), complete_ok, respond_zero]
  case full => rw [exec_udpOpen_full handler (udpFind_eq_none hnew) (udpFree_eq_none hfull), respond_zero]

/-! UDP_CLOSE (R287). -/

/-- R46: with the one slot of a port emptied, no valid slot holds the port. -/
theorem port_ne_of_mem_set_empty {t : List UdpSlot} {j : Nat} {u v : UdpSlot} (huniq : uniquePorts t)
    (hj : t[j]? = some u) (huvalid : u.valid = true) (hv : v ∈ t.set j UdpSlot.empty) (hvalid : v.valid = true) :
    v.port ≠ u.port := by
  intro hport
  obtain ⟨k, hk⟩ := List.mem_iff_getElem?.1 hv
  by_cases hjk : j = k
  · obtain ⟨hlt, -⟩ := List.getElem?_eq_some_iff.1 hj
    subst hjk
    rw [List.getElem?_set_self hlt] at hk
    cases hk
    cases hvalid
  · rw [List.getElem?_set_ne hjk] at hk
    have hfound : some j = some k :=
      (udpFind_of_unique huniq hj huvalid).symm.trans (hport ▸ udpFind_of_unique huniq hk hvalid)
    exact hjk (Option.some.inj hfound)

/-- Settles O49: R46 makes the port's slot the one found (`udpFind_of_unique`), and no other holds the port
(`port_ne_of_mem_set_empty`). -/
theorem udpCloseFreesTheSlot : Obligations.UdpCloseFreesTheSlot := by
  refine fun s port => ⟨?registered, fun hclosed => ?unregistered⟩
  case registered =>
    rintro j u huniq hj hvalid rfl
    refine ⟨?_, fun v => port_ne_of_mem_set_empty huniq hj hvalid⟩
    rw [exec_udpClose_registered (udpFind_of_unique huniq hj hvalid), complete_ok, respond_zero, UdpSlot.empty]
  case unregistered => rw [exec_udpClose_unregistered (udpFind_eq_none hclosed), complete_ok, respond_zero]

end Sys2Proof.Proofs
end

section
/-! PROOFS. The receive dispatch of the link layer (45_link.md R311, R312). IP input reads nothing that the store holds in front of
the datagram, so behind a link header it does what IP_IN does with the payload alone. -/

namespace Sys2Proof.Proofs

open Sys2Proof Sys2Proof.Machine Sys2Proof.Safety Sys2Proof.Laws

/-! What input reads of the store in front of its window (20_memory.md R79 to R81). -/

/-- R81: the bytes just before the window are the end of the header removed last, whatever lies in front of it. -/
theorem frontBytes_eq_of_same_removed {b c : Buf} {removed before before' : Bytes} {n : Nat}
    (hb : b.front = removed ++ before) (hc : c.front = removed ++ before') (hn : n ≤ removed.length) :
    frontBytes b n = frontBytes c n := by
  simp only [frontBytes, hb, hc, List.append_assoc, List.take_append_of_le_length hn]

/-- R282: UDP input reads the segment and, for its error, the 20 bytes in front of it. -/
theorem udpIn_congr (s : State) {b c : Buf} (src : Ip) (hwin : b.win = c.win)
    (hfront : frontBytes b 20 = frontBytes c 20) : udpIn s b src = udpIn s c src := by
  by_cases hv : udpVerifies s.localIp src b.win
  · have hvc : udpVerifies s.localIp src c.win := hwin ▸ hv
    cases hfind : udpFind s.udp (be16 b.win 2) with
    | some j => rw [udpIn_delivered hv hfind, udpIn_delivered hvc (hwin ▸ hfind), hwin]
    | none => rw [udpIn_closed hv hfind, udpIn_closed hvc (hwin ▸ hfind), hwin, hfront]
  · rw [udpIn_dropped hv, udpIn_dropped (hwin ▸ hv)]

/-- R221: the dispatch reads the datagram alone: the 20 bytes in front of a UDP segment are bytes of the datagram's own
header. -/
theorem ipDispatch_congr (s : State) {b c : Buf} (hwin : b.win = c.win) (h20 : 20 ≤ ipHdrBytes c.win)
    (hfit : ipHdrBytes c.win ≤ bufLen c) : ipDispatch s b = ipDispatch s c := by
  have hfitb : ipHdrBytes c.win ≤ bufLen b := by rwa [bufLen, hwin]
  have hremoved : 20 ≤ (c.win.take (ipHdrBytes c.win)).reverse.length := by
    rwa [List.length_reverse, List.length_take_of_le hfit]
  simp only [ipDispatch, hwin, removeHeader_of_le b _ hfitb, removeHeader_of_le c _ hfit]
  split_ifs with hicmp hudp
  · rfl
  · exact udpIn_congr s _ rfl (frontBytes_eq_of_same_removed rfl rfl hremoved)
  · rfl

/-- R220, R221: IP input reads the datagram alone. -/
theorem ipIn_eq_load_win (s : State) (b : Buf) : ipIn s b = ipIn s (load b.win) := by
  by_cases hacc : ipAccepts s.localIp b.win = true
  · obtain ⟨h20, hlen⟩ := ipAccepts_header _ _ hacc
    obtain ⟨c, hc, -, -, -, hcwin⟩ := ipTrim_ok s b hlen h20
    obtain ⟨d, hd, hdhdr, hdfit, -, hdwin⟩ := ipTrim_ok s (load b.win) hlen h20
    simp only [ipIn, load_win, if_pos hacc, hc, hd]
    exact ipDispatch_congr s (hcwin.trans hdwin.symm) (h20.trans_eq hdhdr.symm) hdfit
  · rw [ipIn, if_neg hacc, ipIn, load_win, if_neg hacc]

/-! ETH_RX (R311). -/

theorem ethRx_dropped {s : State} {f : Bytes}
    (h : f.length < 14 ∨ (be16 f 12 ≠ ethTypeArp ∧ be16 f 12 ≠ ethTypeIpv4)) : ethRx s f = .ok s := by
  by_cases hlen : f.length < linkHdrLen
  · exact if_pos hlen
  · obtain ⟨harp, hip⟩ := h.resolve_left hlen
    simp only [ethRx, if_neg hlen, removeHeader_of_le (load f) linkHdrLen (Nat.le_of_not_lt hlen), if_neg harp, if_neg hip]

theorem ethRx_arp {s : State} {f : Bytes} (hlen : 14 ≤ f.length) (htype : be16 f 12 = ethTypeArp) :
    ethRx s f = .ok (arpIn s (f.drop 14)) := by
  simp only [ethRx, if_neg (Nat.not_lt.2 hlen), removeHeader_of_le (load f) linkHdrLen hlen, if_pos htype, load_win]

/-- The state in which IP input runs on the payload of the IPv4 frame `f`: a payload of at least 20 bytes has taught the cache
its source (R311). -/
def ethLearned (s : State) (f : Bytes) : State :=
  if 34 ≤ f.length then arpUpdate s (be32 f 26) (be48 f 6) else s

theorem ethLearned_of_le (s : State) {f : Bytes} (h : 34 ≤ f.length) :
    ethLearned s f = arpUpdate s (be32 f 26) (be48 f 6) := if_pos h

theorem ethLearned_of_lt (s : State) {f : Bytes} (h : f.length < 34) : ethLearned s f = s := if_neg (Nat.not_le.2 h)

/-- R311: learning writes the cache alone. -/
theorem ethLearned_eq_with_arp (s : State) (f : Bytes) : ethLearned s f = { s with arp := (ethLearned s f).arp } := by
  rcases Nat.lt_or_ge f.length 34 with h | h
  · rw [ethLearned_of_lt s h]
  · rw [ethLearned_of_le s h]
    rfl

/-- R311: the payload's source address stands 26 bytes into the frame. -/
theorem ethRx_ipv4 {s : State} {f : Bytes} (hlen : 14 ≤ f.length) (htype : be16 f 12 = ethTypeIpv4) :
    ethRx s f = ipIn (ethLearned s f) (load (f.drop 14)) := by
  have harp : be16 f 12 ≠ ethTypeArp := htype ▸ by decide
  have hpayload : 20 ≤ f.length - 14 ↔ 34 ≤ f.length := by omega
  simp only [ethRx, if_neg (Nat.not_lt.2 hlen), removeHeader_of_le (load f) linkHdrLen hlen, if_neg harp, if_pos htype,
    ethIpv4, load_win, bufLen, List.length_drop, be32_drop, hpayload]
  exact ipIn_eq_load_win _ _

theorem exec_ethRx_of_ok {s u : State} {f : Bytes} (h : ethRx s f = .ok u) :
    exec (.ethRx f) s = .next (respond u .ok 0) :=
  congrArg complete h

/-- Settles O51: one equation of ETH_RX per route; IP input always answers (`ipIn_ok`), and the cache it runs with is the one
that `ethLearned` holds. -/
theorem ethRxRoutesByType : Obligations.EthRxRoutesByType := by
  refine fun s f => ⟨fun hdrop => ?dropped, fun hlen htype => ?arp, fun hlen htype => ?ipv4⟩
  case dropped => exact exec_ethRx_of_ok (ethRx_dropped hdrop)
  case arp => exact ⟨_, exec_ethRx_of_ok (ethRx_arp hlen htype), exec_arpIn (f.drop 14) s⟩
  case ipv4 =>
    obtain ⟨t, ht, -⟩ := ipIn_ok (ethLearned s f) (load (f.drop 14))
    refine ⟨(ethLearned s f).arp, _, fun hlearn => ?learned, fun hshort => ?kept,
      exec_ethRx_of_ok ((ethRx_ipv4 hlen htype).trans ht), ?input⟩
    case learned => rw [ethLearned_of_le s hlearn, exec_arpUpdate_answered]
    case kept => rw [ethLearned_of_lt s hshort]
    case input =>
      rw [← ethLearned_eq_with_arp]
      exact exec_ipIn_of_ok ht

end Sys2Proof.Proofs
end

section
/-! PROOFS. NOP (46_control.md R330). -/

namespace Sys2Proof.Proofs

open Sys2Proof Sys2Proof.Machine Sys2Proof.Safety Sys2Proof.Laws

/-- R330: NOP is the procedure that ends in the state it began in. -/
theorem exec_nop (s : State) : exec .nop s = complete (.ok s) := rfl

/-- Settles O20: a completed procedure answers ST_OK with result 0 (`complete_ok`), and NOP's leaves the state as it was. -/
theorem nopDoesNothing : Obligations.NopDoesNothing := by
  intro s
  rw [exec_nop, complete_ok, respond_zero]

end Sys2Proof.Proofs
end

section
/-! PROOFS. How a command ends (60_exceptions.md R350 to R352, R362): with ST_OK, or raised on the state it found. -/

namespace Sys2Proof.Proofs

open Sys2Proof Sys2Proof.Machine Sys2Proof.Safety Sys2Proof.Laws

/-! The idle block (R362). -/

/-- Settles O9: it is the step's equation for an empty command port. -/
theorem idleBlockKeepsItsState : Obligations.IdleBlockKeepsItsState := step_idle

/-! The two ends of a command. -/

/-- The ways a command that began in `s` ends: with ST_OK after whatever it did, or with a raised status and nothing done
(R352). -/
inductive EndsOkOrRaised (s : State) : Host.Outcome State Fault Refusal → Prop
  | ok (u : State) (v : BitVec 64) : EndsOkOrRaised s (.next (respond u .ok v))
  | raised (st : Status) : EndsOkOrRaised s (raise st s)

/-- A procedure that reaches its end completes with ST_OK. -/
theorem EndsOkOrRaised.of_complete {s u : State} {p : Except Fault State} (hp : p = .ok u) :
    EndsOkOrRaised s (complete p) := by
  rw [hp, complete_ok]
  exact .ok u 0

/-- A command with one check in front raises its status or runs its body. -/
theorem EndsOkOrRaised.of_check {s : State} {c : Prop} [Decidable c] (st : Status)
    {body : Host.Outcome State Fault Refusal} (h : EndsOkOrRaised s body) : EndsOkOrRaised s (if c then raise st s else body) := by
  split
  · exact .raised st
  · exact h

theorem udpOpen_endsOkOrRaised (port : Half) (handler : Word) (s : State) :
    EndsOkOrRaised s (exec (.udpOpen port handler) s) := by
  cases hfind : udpFind s.udp port with
  | some j => exact exec_udpOpen_registered handler hfind ▸ .of_complete rfl
  | none =>
    cases hfree : udpFree s.udp with
    | some j => exact exec_udpOpen_new handler hfind hfree ▸ .of_complete rfl
    | none => exact exec_udpOpen_full handler hfind hfree ▸ .raised .fail

theorem udpClose_endsOkOrRaised (port : Half) (s : State) : EndsOkOrRaised s (exec (.udpClose port) s) := by
  cases hfind : udpFind s.udp port with
  | some j => exact exec_udpClose_registered hfind ▸ .of_complete rfl
  | none => exact exec_udpClose_unregistered hfind ▸ .of_complete rfl

theorem regRd_endsOkOrRaised (reg : Half) (s : State) : EndsOkOrRaised s (exec (.regRd reg) s) := by
  cases hr : regRead s reg with
  | some v => exact exec_regRd_of_some hr ▸ .ok s _
  | none => exact exec_regRd_of_none hr ▸ .raised .illegal

theorem regWr_endsOkOrRaised (reg : Half) (value : Word) (s : State) : EndsOkOrRaised s (exec (.regWr reg value) s) := by
  cases hw : regWrite s reg value with
  | some u => exact exec_regWr_of_some hw ▸ .of_complete rfl
  | none => exact exec_regWr_of_none hw ▸ .raised .illegal

/-- R352: every command. Those with a length check, UDP_OPEN on a full table and the register commands can raise; the receive
path always reaches its end (`ipIn_ok`, `udpIn_ok`, `ethRx_ok`). -/
theorem exec_endsOkOrRaised (i : Instr) (s : State) : EndsOkOrRaised s (exec i s) := by
  cases i with
  | nop => exact .of_complete rfl
  | csum pkt => exact .ok s _
  | arpInit => exact .of_complete rfl
  | arpUpdate ip hw => exact .of_complete rfl
  | arpLookup ip => exact .ok s _
  | arpRequest ip => exact .of_complete rfl
  | arpResolve ip proto pkt => exact .of_complete rfl
  | arpIn pkt => exact .of_complete rfl
  | ipIn pkt =>
    obtain ⟨u, hu, -⟩ := ipIn_ok s (load pkt)
    exact .of_complete hu
  | ipFrag dst proto id off mf pkt => exact .of_check .length (.of_complete rfl)
  | ipSend dst proto pkt => exact .of_complete rfl
  | icmpIn src pkt => exact .of_complete rfl
  | icmpUnreach dst code pkt => exact .of_complete rfl
  | udpIn src pkt =>
    obtain ⟨u, hu, -⟩ := udpIn_ok s (load pkt) src
    exact .of_complete hu
  | udpSend sport dst dport pkt => exact .of_check .length (.of_complete rfl)
  | udpOpen port handler => exact udpOpen_endsOkOrRaised port handler s
  | udpClose port => exact udpClose_endsOkOrRaised port s
  | udpPcsum src dst pkt => exact .of_check .length (.ok s _)
  | ethRx pkt =>
    obtain ⟨u, hu⟩ := ethRx_ok s pkt
    exact .of_complete hu
  | regRd reg => exact regRd_endsOkOrRaised reg s
  | regWr reg value => exact regWr_endsOkOrRaised reg value s

/-- The step that takes a command ends it, on the state that accepted it; a descriptor that does not decode is raised. -/
theorem step_endsOkOrRaised {s : State} {c : Command} {now : Nat} {rest : List Input}
    (h : s.inputs = .command c now :: rest) : EndsOkOrRaised (acceptCommand now rest s) (step s) := by
  rw [step_command s c now rest h]
  cases decode s.params c with
  | ok i => exact exec_endsOkOrRaised i _
  | error e => exact .raised (decodeStatus e)

/-- An end whose response is not ST_OK is the raised one, which appended that response alone. -/
theorem EndsOkOrRaised.unchanged_of_ne_ok {s t : State} {r : Response} (h : EndsOkOrRaised s (.next t))
    (ht : t.responses = s.responses ++ [r]) (hr : r.status ≠ .ok) :
    r.result = 0 ∧ t = { s with responses := s.responses ++ [r] } := by
  cases h with
  | ok u v =>
    obtain ⟨-, hlast⟩ := List.append_inj' ht rfl
    obtain rfl := List.singleton_inj.1 hlast
    exact absurd rfl hr
  | raised st =>
    obtain rfl := List.singleton_inj.1 (List.append_cancel_left ht)
    exact ⟨mkResponse_result_of_ne_ok st 0 hr, rfl⟩

/-- Settles O12: the command was raised (`step_endsOkOrRaised`), so the state that accepted it gained the response alone. -/
theorem errorStatusHasNoEffect : Obligations.ErrorStatusHasNoEffect := by
  intro s t c now rest r hin hstep hresp hr
  have hend : EndsOkOrRaised (acceptCommand now rest s) (.next t) := hstep ▸ step_endsOkOrRaised hin
  exact hend.unchanged_of_ne_ok hresp hr

end Sys2Proof.Proofs
end
